-- ==== Sys2Proof/Word.lean ====
section
/-! DEFINITION. The word types of the block: the 32-bit command, response and status words, and the bit vector of
R10, which has an explicit length and index 0 first. -/

namespace Sys2Proof

/-- A command word, a response word, a status register or a buffer word (R100, R105, R46, R68). -/
abbrev Word := BitVec 32

/-- A byte of a buffer as the host's byte view sees it (R68). -/
abbrev Byte := BitVec 8

/-- A bit vector (R10): a finite sequence of bits; the head of the list is index 0, the first bit transmitted and the
first bit sampled. -/
abbrev Bits := List Bool

/-- An instruction-name id (R109): a number below 2^16, compared for equality only. -/
abbrev NameId := Nat

end Sys2Proof
end

