-- ==== Sys2Proof/Syntax.lean ====
section
/-! DEFINITION. The syntax: one constructor per row of spec/opcode_table.json (five commands, R102, and the sixteen rows
of the transition function `advance`, R107), and the two shapes an instruction word has. -/

namespace Sys2Proof

/-- One instruction of the opcode table.  Part indices, name ids and lengths are the unsigned numbers of R104; the
bounds their fields set are checked by `Instr.wellFormed`. -/
inductive Instr where
  /-- RESET_TAP (R153): five TMS = 1 pulses. -/
  | resetTap
  /-- ENTER_IDLE (R154): one TMS = 0 pulse. -/
  | enterIdle
  /-- SET_INSTRUCTION p<part>, <name> (R172). -/
  | setInstruction (part : Nat) (name : NameId)
  /-- EXCHANGE_DATA p<part>, n bits of OUTBUF (R175). -/
  | exchangeData (part : Nat) (n : Nat)
  /-- DISCOVER_CHAIN (R200). -/
  | discoverChain
  /-- STATE_Reset (R131): the row of `advance` for this state, applied to the TMS bit `tms`. -/
  | stateReset (tms : Bool)
  /-- STATE_Idle (R132): the row of `advance` for this state, applied to the TMS bit `tms`. -/
  | stateIdle (tms : Bool)
  /-- STATE_SelectDR (R133): the row of `advance` for this state, applied to the TMS bit `tms`. -/
  | stateSelectDR (tms : Bool)
  /-- STATE_CaptureDR (R134): the row of `advance` for this state, applied to the TMS bit `tms`. -/
  | stateCaptureDR (tms : Bool)
  /-- STATE_ShiftDR (R135): the row of `advance` for this state, applied to the TMS bit `tms`. -/
  | stateShiftDR (tms : Bool)
  /-- STATE_Exit1DR (R136): the row of `advance` for this state, applied to the TMS bit `tms`. -/
  | stateExit1DR (tms : Bool)
  /-- STATE_PauseDR (R137): the row of `advance` for this state, applied to the TMS bit `tms`. -/
  | statePauseDR (tms : Bool)
  /-- STATE_Exit2DR (R138): the row of `advance` for this state, applied to the TMS bit `tms`. -/
  | stateExit2DR (tms : Bool)
  /-- STATE_UpdateDR (R139): the row of `advance` for this state, applied to the TMS bit `tms`. -/
  | stateUpdateDR (tms : Bool)
  /-- STATE_SelectIR (R140): the row of `advance` for this state, applied to the TMS bit `tms`. -/
  | stateSelectIR (tms : Bool)
  /-- STATE_CaptureIR (R141): the row of `advance` for this state, applied to the TMS bit `tms`. -/
  | stateCaptureIR (tms : Bool)
  /-- STATE_ShiftIR (R142): the row of `advance` for this state, applied to the TMS bit `tms`. -/
  | stateShiftIR (tms : Bool)
  /-- STATE_Exit1IR (R143): the row of `advance` for this state, applied to the TMS bit `tms`. -/
  | stateExit1IR (tms : Bool)
  /-- STATE_PauseIR (R144): the row of `advance` for this state, applied to the TMS bit `tms`. -/
  | statePauseIR (tms : Bool)
  /-- STATE_Exit2IR (R145): the row of `advance` for this state, applied to the TMS bit `tms`. -/
  | stateExit2IR (tms : Bool)
  /-- STATE_UpdateIR (R146): the row of `advance` for this state, applied to the TMS bit `tms`. -/
  | stateUpdateIR (tms : Bool)
  deriving DecidableEq, Repr

/-- The two shapes an instruction comes in (R107, R112): a command is one 32-bit word; a row of `advance` is named by
its state's 4-bit code, and the TMS bit it is applied to comes beside the code (DESIGN CHOICE, log 3: the table's row
gives the TMS bit no place). -/
inductive InstrWord where
  /-- A command word `CW` (R100). -/
  | command (cw : Word)
  /-- A row of `advance`: its state code (R107) and the TMS bit. -/
  | row (code : BitVec 4) (tms : Bool)
  deriving DecidableEq, Repr

end Sys2Proof
end

