-- ==== Sys2Proof/WellFormed.lean ====
section
/-! DEFINITION. Well-formedness of an instruction: its operands fit the fields of the command word (R100, R104). -/

namespace Sys2Proof

/-- The part index fits `CW[27:16]` (R100). -/
def partFits (part : Nat) : Bool := decide (part < 2 ^ 12)

/-- The argument fits `CW[15:0]` (R100): a name id or an operand length. -/
def argFits (arg : Nat) : Bool := decide (arg < 2 ^ 16)

/-- An instruction that a word can spell. -/
def Instr.wellFormed : Instr → Bool
  | .resetTap => true
  | .enterIdle => true
  | .setInstruction part name => partFits part && argFits name
  | .exchangeData part n => partFits part && argFits n
  | .discoverChain => true
  | .stateReset _ => true
  | .stateIdle _ => true
  | .stateSelectDR _ => true
  | .stateCaptureDR _ => true
  | .stateShiftDR _ => true
  | .stateExit1DR _ => true
  | .statePauseDR _ => true
  | .stateExit2DR _ => true
  | .stateUpdateDR _ => true
  | .stateSelectIR _ => true
  | .stateCaptureIR _ => true
  | .stateShiftIR _ => true
  | .stateExit1IR _ => true
  | .statePauseIR _ => true
  | .stateExit2IR _ => true
  | .stateUpdateIR _ => true

end Sys2Proof
end

