-- ==== Sys2Proof/Decode.lean ====
section
/-! DEFINITION. The decoder (R100 to R104, R107, R111): total on every word, rejecting by name; after it the encoder,
written from the same tables, and the host's entry to the decoder. -/

namespace Sys2Proof

/-- Why a command word spells no command (R111).  Only the two tests on the word itself stand here; the tests on the
chain (R111 (c), (d)) need the state and belong to the meanings. -/
inductive Reject where
  /-- R111 (a): `op` is 0x0 or 0x6 to 0xF. -/
  | reservedOp (op : BitVec 4)
  /-- R111 (b): a format-Z word with a non-zero bit below `op`. -/
  | formatZOperand (op : BitVec 4)
  deriving DecidableEq, Repr

/-- `CW[31:28]` (R100). -/
def opField (cw : Word) : BitVec 4 := cw.extractLsb' 28 4

/-- `CW[27:16]`, the unsigned 12-bit part index, used as is (R104). -/
def partField (cw : Word) : Nat := (cw.extractLsb' 16 12).toNat

/-- `CW[15:0]`: the name id of SET_INSTRUCTION, the length of EXCHANGE_DATA, unsigned (R104). -/
def argField (cw : Word) : Nat := (cw.extractLsb' 0 16).toNat

/-- Whether a format-Z word is well written: `CW[27:0] = 0` (R101, R111 (b)). -/
def formatZ (cw : Word) : Bool := cw.extractLsb' 0 28 == 0#28

/-- A format-Z command, if the word has no operand bits (R101, R103). -/
def decodeZ (i : Instr) (cw : Word) : Except Reject Instr :=
  if formatZ cw then .ok i else .error (.formatZOperand (opField cw))

/-- The command word decoder (R102, R103). -/
def decodeCommand (cw : Word) : Except Reject Instr :=
  match (opField cw).toNat with
  | 1 => decodeZ .resetTap cw
  | 2 => decodeZ .enterIdle cw
  | 3 => .ok (.setInstruction (partField cw) (argField cw))
  | 4 => .ok (.exchangeData (partField cw) (argField cw))
  | 5 => decodeZ .discoverChain cw
  | _ => .error (.reservedOp (opField cw))

/-- The row of `advance` a state code names (R107): all sixteen codes are used, none is illegal. -/
def decodeRow (code : BitVec 4) (tms : Bool) : Instr :=
  match code.toNat with
  | 0 => .stateReset tms
  | 1 => .stateIdle tms
  | 2 => .stateSelectDR tms
  | 3 => .stateCaptureDR tms
  | 4 => .stateShiftDR tms
  | 5 => .stateExit1DR tms
  | 6 => .statePauseDR tms
  | 7 => .stateExit2DR tms
  | 8 => .stateUpdateDR tms
  | 9 => .stateSelectIR tms
  | 10 => .stateCaptureIR tms
  | 11 => .stateShiftIR tms
  | 12 => .stateExit1IR tms
  | 13 => .statePauseIR tms
  | 14 => .stateExit2IR tms
  | _ => .stateUpdateIR tms

/-- The decoder: total on every instruction word. -/
def decode : InstrWord → Except Reject Instr
  | .command cw => decodeCommand cw
  | .row code tms => .ok (decodeRow code tms)

/-- A command word from its three fields (R100). -/
def commandWord (op : BitVec 4) (part : Nat) (arg : Nat) : Word :=
  op ++ BitVec.ofNat 12 part ++ BitVec.ofNat 16 arg

/-- The word of an instruction (R102, R103, R107). -/
def encode : Instr → InstrWord
  | .resetTap => .command (commandWord 1 0 0)
  | .enterIdle => .command (commandWord 2 0 0)
  | .setInstruction part name => .command (commandWord 3 part name)
  | .exchangeData part n => .command (commandWord 4 part n)
  | .discoverChain => .command (commandWord 5 0 0)
  | .stateReset tms => .row 0 tms
  | .stateIdle tms => .row 1 tms
  | .stateSelectDR tms => .row 2 tms
  | .stateCaptureDR tms => .row 3 tms
  | .stateShiftDR tms => .row 4 tms
  | .stateExit1DR tms => .row 5 tms
  | .statePauseDR tms => .row 6 tms
  | .stateExit2DR tms => .row 7 tms
  | .stateUpdateDR tms => .row 8 tms
  | .stateSelectIR tms => .row 9 tms
  | .stateCaptureIR tms => .row 10 tms
  | .stateShiftIR tms => .row 11 tms
  | .stateExit1IR tms => .row 12 tms
  | .statePauseIR tms => .row 13 tms
  | .stateExit2IR tms => .row 14 tms
  | .stateUpdateIR tms => .row 15 tms

/-- The bits `w` of a table row as an instruction word (log 3).  A 32-bit row is a command word.  A state row has four
bits, one byte: the code in bits 3..0 and zeros above; the TMS bit it is applied to is laid after that byte, at bit 8,
so it is 0 where the table gives the row one byte. -/
def tableWord (nbits w : Nat) : Option InstrWord :=
  if nbits ≤ 16 then
    if w / 16 % 16 = 0 ∧ w < 2 ^ 9 then some (.row (BitVec.ofNat 4 w) (w.testBit 8)) else none
  else if nbits ≤ 32 ∧ w < 2 ^ 32 then some (.command (BitVec.ofNat 32 w))
  else none

/-- What the decoder reads from a table row's bits. -/
def decodeTableWord (nbits w : Nat) : Option Instr :=
  match tableWord nbits w with
  | none => none
  | some iw =>
    match decode iw with
    | .ok i => some i
    | .error _ => none

end Sys2Proof
end

