-- ==== Sys2Proof/Config.lean ====
section
/-! DEFINITION. What an implementation fixes (R7): the two discovery lengths, the known-device table and the power-on
chain; and the free values, which have no body, so that nothing can be proved of them. -/

namespace Sys2Proof.Machine

/-- One entry of a part's `instructions` map (R35, R39): name, opcode pattern, declared DR width if known. -/
structure Binding where
  name : NameId
  opcode : Nat
  drWidth : Option Nat
  deriving DecidableEq, Repr, Inhabited

/-- The static fields of a part entry (R35), never mutated.  `instructions` is the finite map from names, kept in
rising order of name. -/
structure Descriptor where
  irLength : Option Nat
  idcodeLength : Nat
  idcode : Option Nat
  instructions : List Binding
  bypassInstruction : Option NameId
  defaultInstruction : Option NameId
  deriving DecidableEq, Repr, Inhabited

/-- One entry of `KNOWN_IDS` (R115). -/
structure KnownId where
  len : Nat
  value : Nat
  mask : Nat
  descriptor : Descriptor
  deriving DecidableEq, Repr, Inhabited

/-- The open parameters of R7 that the block sees.  `PULSE_TIMEOUT` belongs to the signal driver (R246): the block sees
only the outcome of a pulse, so it has no field. -/
structure Config where
  /-- `IR_FLUSH_LEN` (F of R200). -/
  irFlushLen : Nat
  /-- `DR_CAPTURE_LEN` (M of R200). -/
  drCaptureLen : Nat
  /-- `KNOWN_IDS`. -/
  knownIds : List KnownId
  /-- `CHAIN_CFG`: the descriptors of the chain installed at power-on, part 0 first, or none. -/
  chainCfg : Option (List Descriptor)
  deriving DecidableEq, Repr, Inhabited

/-- The two outcomes of a pulse (R63): the TDO bit sampled, or `Timeout`. -/
inductive PulseAnswer where
  | bit (tdo : Bool)
  | timeout
  deriving DecidableEq, Repr, Inhabited

/-- What a timed-out pulse left at the pins (93_implementation_defined.md U6): the level of TCK, and for TMS and TDI
whether the new level was driven or the old one stands. -/
structure PinsLeft where
  tck : Bool
  tmsDriven : Bool
  tdiDriven : Bool
  deriving DecidableEq, Repr, Inhabited

/-- The parameters of the block at hand (R7, D23, D26, D31: OPEN): free (log 1). -/
opaque Config.rawBoard : Config

/-- The environment's answer to pulse number `k` where nothing in the state says it (R63, U3, U4, U20): free
(log 4). -/
opaque Config.freeAnswer : Nat → PulseAnswer

/-- What pulse number `k` leaves at the pins if it times out (R234, U6): free within the bound of `PinsLeft`
(log 5). -/
opaque Config.freePinsLeft : Nat → PinsLeft

end Sys2Proof.Machine
end

