-- ==== Sys2Proof/Machine/Params.lean ====
section
/-! DEFINITION. The parameters the spec fixes (R6, R8). -/

namespace Sys2Proof.Machine

/-- `RESET_PULSES` (R6). -/
def resetPulseCount : Nat := 5

/-- `FLUSH_BIT` (R6): discovery's IR scan shifts all ones. -/
def flushBit : Bool := true

/-- `CAPTURE_FILL` (R6): discovery's DR scan shifts all zeros. -/
def captureFill : Bool := false

/-- `NAV_TDI` (R8): TDI on pulses that only move the TAP. -/
def navTdi : Bool := false

/-- `PAD_BIT` (R8): DR padding of the parts that are not the target. -/
def padBit : Bool := false

/-- `DEFAULT_IDCODE_LEN` (R8). -/
def defaultIdcodeLen : Nat := 32

/-- `MAX_PARTS` (R8). -/
def maxParts : Nat := 4096

/-- `MAX_VEC` (R8). -/
def maxVec : Nat := 65535

/-- The number of 32-bit words a buffer of `MAX_VEC` bits fills (R40, R41, R68). -/
def bufferWords : Nat := (maxVec + 31) / 32

end Sys2Proof.Machine
end

