-- ==== Sys2Proof/Machine/Bits.lean ====
section
/-! DEFINITION. Bit vectors (R10): numbers to vectors and back, constant vectors, windows. -/

namespace Sys2Proof.Machine

/-- `ofNat(w, k)` (R10): bit j of the number at index j. -/
def bitsOfNat : Nat → Nat → Bits
  | 0, _ => []
  | w + 1, k => (k % 2 == 1) :: bitsOfNat w (k / 2)

/-- `toNat(v)` (R10): the sum of `v[j]` times `2^j`. -/
def bitsToNat : Bits → Nat
  | [] => 0
  | b :: v => b.toNat + 2 * bitsToNat v

/-- The constant vector of `n` bits `b`: `zeros(n)` and `ones(n)` of R10. -/
def constBits (b : Bool) (n : Nat) : Bits := List.replicate n b

/-- `v[lo .. lo+n)` (R10). -/
def window (v : Bits) (lo n : Nat) : Bits := (v.drop lo).take n

/-- Whether a stream holds a 1 (R204). -/
def hasOne (v : Bits) : Bool := v.any id

end Sys2Proof.Machine
end

