-- ==== Sys2Proof/Machine/Memory.lean ====
section
/-! DEFINITION. The two buffers' storage (R40, R41, R68): bytes by address in one canonical form, and the bit and word
views of it. -/

namespace Sys2Proof.Machine

/-- A buffer: cells of strictly rising address, none equal to what an unlisted address reads as. -/
abbrev Memory := List Host.Cell

/-- What an unlisted byte reads as: every buffer bit is 0 at power-on (R48; log 12). -/
def unlistedByte : Byte := 0#8

/-- The byte at an address. -/
def readByte : Memory → Nat → Byte
  | [], _ => unlistedByte
  | (b, u) :: m, a => if a = b then u else readByte m a

/-- Put a cell in front, unless it says what an unlisted address reads as anyway. -/
def consCell (a : Nat) (v : Byte) (m : Memory) : Memory :=
  if v = unlistedByte then m else (a, v) :: m

/-- Write one byte, keeping the canonical form. -/
def writeByte : Memory → Nat → Byte → Memory
  | [], a, v => consCell a v []
  | (b, u) :: m, a, v =>
    if a < b then consCell a v ((b, u) :: m)
    else if a = b then consCell a v m
    else (b, u) :: writeByte m a v

/-- The canonical form from address `lo` on, below `hi`. -/
def wfFrom (lo hi : Nat) : Memory → Bool
  | [] => true
  | (a, v) :: m => decide (lo ≤ a) && decide (a < hi) && (v != unlistedByte) && wfFrom (a + 1) hi m

/-- The canonical form of a buffer: rising addresses, no default entry, all inside the buffer. -/
def Memory.wf (m : Memory) : Bool := wfFrom 0 (4 * bufferWords) m

/-- Bit `i` of the vector a buffer holds (R68): word `i div 32`, bit `i mod 32`, which the byte view puts in byte
`i div 8`, bit `i mod 8`. -/
def bufferBit (m : Memory) (i : Nat) : Bool := (readByte m (i / 8)).getLsbD (i % 8)

/-- The first `n` bits of a buffer (R104). -/
def bufferBits (m : Memory) (n : Nat) : Bits := (List.range n).map (bufferBit m)

/-- Word `k` of a buffer (R68), its least significant byte first. -/
def readWord (m : Memory) (k : Nat) : Word :=
  readByte m (4 * k + 3) ++ readByte m (4 * k + 2) ++ readByte m (4 * k + 1) ++ readByte m (4 * k)

/-- Write word `k` of a buffer (R68). -/
def writeWord (m : Memory) (k : Nat) (v : Word) : Memory :=
  writeByte (writeByte (writeByte (writeByte m (4 * k) (v.extractLsb' 0 8))
    (4 * k + 1) (v.extractLsb' 8 8)) (4 * k + 2) (v.extractLsb' 16 8)) (4 * k + 3) (v.extractLsb' 24 8)

/-- The bits of a vector packed into 32-bit words from word `k` on, the last word filled up with zeros (R68). -/
def writeVectorFrom (m : Memory) (k : Nat) (v : Bits) : Nat → Memory
  | 0 => m
  | words + 1 =>
    writeVectorFrom (writeWord m k (BitVec.ofNat 32 (bitsToNat (v.take 32)))) (k + 1) (v.drop 32) words

/-- `BUF[0..n) <- v` (R41, R68): the words the vector reaches are written whole, later words keep what they held (U17;
log 12). -/
def writeVector (m : Memory) (v : Bits) : Memory := writeVectorFrom m 0 v ((v.length + 31) / 32)

end Sys2Proof.Machine
end

