-- ==== Sys2Proof/Machine/ChainTable.lean ====
section
/-! DEFINITION. The chain table (R34 to R39): part entries, their look-ups, well-formedness (R36) and the writes of the
`current_instruction` records; the known-device table (R115); the chain a configuration installs (R48). -/

namespace Sys2Proof.Machine

/-- How a part entry came to be (R35). -/
inductive Identity where
  | configured
  | known (k : Nat)
  | unknown
  | bypassOnly
  deriving DecidableEq, Repr, Inhabited

/-- A part entry (R35): the static descriptor and identity, and the one mutable field. -/
structure Part where
  desc : Descriptor
  identity : Identity
  current : Option NameId
  deriving DecidableEq, Repr, Inhabited

/-- The labels of a chain (R38). -/
inductive ChainStatus where
  | absent
  | unverified
  | verified
  | partiallyIdentified
  deriving DecidableEq, Repr, Inhabited

/-- The codes of R108. -/
def ChainStatus.code : ChainStatus → BitVec 2
  | .absent => 0#2
  | .unverified => 1#2
  | .verified => 2#2
  | .partiallyIdentified => 3#2

/-- The binding of a name on a part (R39). -/
def lookupName (d : Descriptor) (name : NameId) : Option Binding :=
  d.instructions.find? (fun b => b.name == name)

/-- Whether a name is a key of a part's `instructions`. -/
def isKey (d : Descriptor) (name : NameId) : Bool := (lookupName d name).isSome

/-- `Resolve(p, name)` (R39). -/
def resolve (p : Part) (name : NameId) : Option Nat := (lookupName p.desc name).map Binding.opcode

/-- `DrWidth(p, name)` (R39); none for a name that is no key (log 14). -/
def drWidth (p : Part) (name : NameId) : Option Nat := (lookupName p.desc name).bind Binding.drWidth

/-- The declared DR width of the instruction a part's record names, if there is a record and a width (R73). -/
def recordWidth (p : Part) : Option Nat := p.current.bind (drWidth p)

/-- Every `ir_length` of the chain is known (R37). -/
def allIrKnown (ps : List Part) : Bool := ps.all (fun p => p.desc.irLength.isSome)

/-- The width of a part in the IR path (R72). -/
def irWidth (p : Part) : Nat := p.desc.irLength.getD 0

/-- `total_ir_length` (R37), defined only when every `ir_length` is known. -/
def totalIrLength (ps : List Part) : Option Nat :=
  if allIrKnown ps then some ((ps.map irWidth).sum) else none

/-! ## Well-formedness (R36) -/

/-- Names of the map are 16-bit ids in strictly rising order from `lo` on (R35, R109): the canonical form of a finite
map (log 14). -/
def namesRise (lo : Nat) : List Binding → Bool
  | [] => true
  | b :: bs => decide (lo ≤ b.name) && decide (b.name < 2 ^ 16) && namesRise (b.name + 1) bs

/-- R36 (a): every opcode is an `ir_length`-bit value. -/
def opcodesFit (d : Descriptor) : Bool :=
  match d.irLength with
  | none => true
  | some l => d.instructions.all (fun b => decide (b.opcode < 2 ^ l))

/-- A name field is none or a key (R36 (b), R181). -/
def noneOrKey (d : Descriptor) (name : Option NameId) : Bool :=
  match name with
  | none => true
  | some n => isKey d n

/-- R36 (c): the bypass instruction's declared width is at least 1. -/
def bypassWidthKnown (d : Descriptor) : Bool :=
  match d.bypassInstruction with
  | none => true
  | some n =>
    match (lookupName d n).bind Binding.drWidth with
    | some k => decide (1 ≤ k)
    | none => false

/-- R36 (d): the known ID code has the declared length and its marker bit. -/
def idcodeFits (d : Descriptor) : Bool :=
  match d.idcode with
  | none => true
  | some v => decide (1 ≤ d.idcodeLength) && decide (v < 2 ^ d.idcodeLength) && (v % 2 == 1)

/-- R36 (e): every declared width is at most `MAX_VEC`. -/
def widthsFit (d : Descriptor) : Bool :=
  d.instructions.all (fun b => match b.drWidth with
    | none => true
    | some k => decide (k ≤ maxVec))

/-- R36 (h) and R35's "natural ≥ 1": the lengths of a descriptor (log 14). -/
def lengthsFit (d : Descriptor) : Bool :=
  (match d.irLength with
    | none => true
    | some l => decide (1 ≤ l) && decide (l ≤ maxVec)) && decide (d.idcodeLength ≤ maxVec)

/-- R36 (a) to (e) and (h). -/
def Descriptor.wfCommon (d : Descriptor) : Bool :=
  namesRise 0 d.instructions && opcodesFit d && noneOrKey d d.bypassInstruction &&
    noneOrKey d d.defaultInstruction && bypassWidthKnown d && idcodeFits d && widthsFit d && lengthsFit d

/-- R36 (f): a full description. -/
def Descriptor.full (d : Descriptor) : Bool :=
  d.irLength.isSome && d.bypassInstruction.isSome && d.defaultInstruction.isSome

/-- R36 (g): nothing but the ID register is recorded. -/
def Descriptor.bare (d : Descriptor) : Bool :=
  d.irLength.isNone && d.instructions.isEmpty && d.bypassInstruction.isNone && d.defaultInstruction.isNone

/-- R36: a part entry is well formed. -/
def Part.wf (p : Part) : Bool :=
  p.desc.wfCommon && noneOrKey p.desc p.current &&
    match p.identity with
    | .configured => p.desc.full
    | .known _ => p.desc.full
    | .unknown => p.desc.bare
    | .bypassOnly => p.desc.bare

/-- R34: a chain has 1 to `MAX_PARTS` parts; R36 for each. -/
def chainWf (ps : List Part) : Bool :=
  decide (1 ≤ ps.length) && decide (ps.length ≤ maxParts) && ps.all Part.wf

/-! ## The known-device table (R115) -/

/-- `Match(e, s, pos)` (R115) on `s[pos ..)`, the rest of the stream from `pos` on. -/
def KnownId.matches (e : KnownId) (rest : Bits) : Bool :=
  decide (e.len ≤ rest.length) && (bitsToNat (rest.take e.len) &&& e.mask == e.value &&& e.mask)

/-- R115: an entry on its own, with clause (i) and the descriptor's well-formedness. -/
def KnownId.wf (e : KnownId) : Bool :=
  decide (1 ≤ e.len) && decide (e.value < 2 ^ e.len) && decide (e.mask < 2 ^ e.len) && (e.value % 2 == 1) &&
    (e.mask % 2 == 1) && (e.descriptor.idcodeLength == e.len) && e.descriptor.wfCommon && e.descriptor.full

/-- R115 (ii): two entries of one length match no common bit string. -/
def KnownId.apart (e f : KnownId) : Bool :=
  e.len != f.len || ((e.value ^^^ f.value) &&& e.mask &&& f.mask) != 0

/-- R115: the whole table. -/
def knownIdsWf : List KnownId → Bool
  | [] => true
  | e :: es => e.wf && es.all e.apart && knownIdsWf es

/-! ## Configuration (R7, R36, R115) -/

/-- The entry a configured descriptor gives (R35, R48): identity Configured, the record at its default. -/
def configuredPart (d : Descriptor) : Part :=
  { desc := d, identity := .configured, current := d.defaultInstruction }

/-- A well-formed parameter set: the ranges of R7, R115 for `KNOWN_IDS`, R34 and R36 for `CHAIN_CFG`. -/
def Config.wf (c : Config) : Bool :=
  decide (1 ≤ c.irFlushLen) && decide (c.irFlushLen ≤ 65535) && decide (1 ≤ c.drCaptureLen) &&
    decide (c.drCaptureLen ≤ 65535) && knownIdsWf c.knownIds &&
    match c.chainCfg with
    | none => true
    | some ds => chainWf (ds.map configuredPart)

/-- The chain power-on installs (R48). -/
def powerOnChain (c : Config) : Option (List Part) := c.chainCfg.map (List.map configuredPart)

/-- The status power-on gives it (R48). -/
def powerOnStatus (c : Config) : ChainStatus := if c.chainCfg.isSome then .unverified else .absent

/-- A parameter set that is well formed whatever `Config.rawBoard` is. -/
def emptyConfig : Config := { irFlushLen := 1, drCaptureLen := 1, knownIds := [], chainCfg := none }

/-- The parameters of the block at hand: any well-formed set, none in particular (R7, R36: an ill-formed one is refused,
so the block does not start from it). -/
def boardConfig : Config := if Config.wf Config.rawBoard then Config.rawBoard else emptyConfig

/-! ## Writes of the records (R34 (c)) -/

/-- One record to its default (R153). -/
def resetRecord (p : Part) : Part := { p with current := p.desc.defaultInstruction }

/-- Every record of the chain to its default (R153, R201), where a chain is present. -/
def resetRecords (c : Option (List Part)) : Option (List Part) := c.map (List.map resetRecord)

/-- `part[t].current_instruction <- name` (R172). -/
def setRecord (ps : List Part) (t : Nat) (name : NameId) : List Part :=
  ps.modify t (fun p => { p with current := some name })

end Sys2Proof.Machine
end

