-- ==== Sys2Proof/Machine/Tap.lean ====
section
/-! DEFINITION. The TAP automaton: the sixteen states (R31), their codes (R107), one row function per state (R131 to
R146), `advance` over them (R130) and the named walks (R152). -/

namespace Sys2Proof.Machine

/-- The sixteen TAP states (R31), in the order of their codes (R107). -/
inductive TapState where
  | reset
  | idle
  | selectDR
  | captureDR
  | shiftDR
  | exit1DR
  | pauseDR
  | exit2DR
  | updateDR
  | selectIR
  | captureIR
  | shiftIR
  | exit1IR
  | pauseIR
  | exit2IR
  | updateIR
  deriving DecidableEq, Repr, Inhabited

/-- The 4-bit code of a state (R107): its place in the enumeration. -/
def TapState.code : TapState → BitVec 4
  | .reset => 0#4
  | .idle => 1#4
  | .selectDR => 2#4
  | .captureDR => 3#4
  | .shiftDR => 4#4
  | .exit1DR => 5#4
  | .pauseDR => 6#4
  | .exit2DR => 7#4
  | .updateDR => 8#4
  | .selectIR => 9#4
  | .captureIR => 10#4
  | .shiftIR => 11#4
  | .exit1IR => 12#4
  | .pauseIR => 13#4
  | .exit2IR => 14#4
  | .updateIR => 15#4

/-- The row STATE_Reset (R131): Idle under TMS = 0, Reset under TMS = 1. -/
def rowReset (tms : Bool) : TapState := if tms then .reset else .idle

/-- The row STATE_Idle (R132): Idle under TMS = 0, SelectDR under TMS = 1. -/
def rowIdle (tms : Bool) : TapState := if tms then .selectDR else .idle

/-- The row STATE_SelectDR (R133): CaptureDR under TMS = 0, SelectIR under TMS = 1. -/
def rowSelectDR (tms : Bool) : TapState := if tms then .selectIR else .captureDR

/-- The row STATE_CaptureDR (R134): ShiftDR under TMS = 0, Exit1DR under TMS = 1. -/
def rowCaptureDR (tms : Bool) : TapState := if tms then .exit1DR else .shiftDR

/-- The row STATE_ShiftDR (R135): ShiftDR under TMS = 0, Exit1DR under TMS = 1. -/
def rowShiftDR (tms : Bool) : TapState := if tms then .exit1DR else .shiftDR

/-- The row STATE_Exit1DR (R136): PauseDR under TMS = 0, UpdateDR under TMS = 1. -/
def rowExit1DR (tms : Bool) : TapState := if tms then .updateDR else .pauseDR

/-- The row STATE_PauseDR (R137): PauseDR under TMS = 0, Exit2DR under TMS = 1. -/
def rowPauseDR (tms : Bool) : TapState := if tms then .exit2DR else .pauseDR

/-- The row STATE_Exit2DR (R138): ShiftDR under TMS = 0, UpdateDR under TMS = 1. -/
def rowExit2DR (tms : Bool) : TapState := if tms then .updateDR else .shiftDR

/-- The row STATE_UpdateDR (R139): Idle under TMS = 0, SelectDR under TMS = 1. -/
def rowUpdateDR (tms : Bool) : TapState := if tms then .selectDR else .idle

/-- The row STATE_SelectIR (R140): CaptureIR under TMS = 0, Reset under TMS = 1. -/
def rowSelectIR (tms : Bool) : TapState := if tms then .reset else .captureIR

/-- The row STATE_CaptureIR (R141): ShiftIR under TMS = 0, Exit1IR under TMS = 1. -/
def rowCaptureIR (tms : Bool) : TapState := if tms then .exit1IR else .shiftIR

/-- The row STATE_ShiftIR (R142): ShiftIR under TMS = 0, Exit1IR under TMS = 1. -/
def rowShiftIR (tms : Bool) : TapState := if tms then .exit1IR else .shiftIR

/-- The row STATE_Exit1IR (R143): PauseIR under TMS = 0, UpdateIR under TMS = 1. -/
def rowExit1IR (tms : Bool) : TapState := if tms then .updateIR else .pauseIR

/-- The row STATE_PauseIR (R144): PauseIR under TMS = 0, Exit2IR under TMS = 1. -/
def rowPauseIR (tms : Bool) : TapState := if tms then .exit2IR else .pauseIR

/-- The row STATE_Exit2IR (R145): ShiftIR under TMS = 0, UpdateIR under TMS = 1. -/
def rowExit2IR (tms : Bool) : TapState := if tms then .updateIR else .shiftIR

/-- The row STATE_UpdateIR (R146): Idle under TMS = 0, SelectDR under TMS = 1. -/
def rowUpdateIR (tms : Bool) : TapState := if tms then .selectDR else .idle

/-- `advance(s, b)` (R130): the pure transition function, total on its 32 inputs. -/
def advance (s : TapState) (tms : Bool) : TapState :=
  match s with
  | .reset => rowReset tms
  | .idle => rowIdle tms
  | .selectDR => rowSelectDR tms
  | .captureDR => rowCaptureDR tms
  | .shiftDR => rowShiftDR tms
  | .exit1DR => rowExit1DR tms
  | .pauseDR => rowPauseDR tms
  | .exit2DR => rowExit2DR tms
  | .updateDR => rowUpdateDR tms
  | .selectIR => rowSelectIR tms
  | .captureIR => rowCaptureIR tms
  | .shiftIR => rowShiftIR tms
  | .exit1IR => rowExit1IR tms
  | .pauseIR => rowPauseIR tms
  | .exit2IR => rowExit2IR tms
  | .updateIR => rowUpdateIR tms

/-- `advance` along a TMS string, its first bit first. -/
def advanceAll (s : TapState) : Bits → TapState
  | [] => s
  | b :: bs => advanceAll (advance s b) bs

/-- `TO_SHIFT_IR` (R152): Idle, SelectDR, SelectIR, CaptureIR, ShiftIR. -/
def toShiftIR : Bits := [true, true, false, false]

/-- `TO_SHIFT_DR` (R152): Idle, SelectDR, CaptureDR, ShiftDR. -/
def toShiftDR : Bits := [true, false, false]

/-- `EXIT_TO_IDLE` (R152): Exit1IR or Exit1DR, UpdateIR or UpdateDR, Idle. -/
def exitToIdle : Bits := [true, false]

/-- `EXIT_TO_RESET` (R152): Exit1IR, UpdateIR, SelectDR, SelectIR, Reset. -/
def exitToReset : Bits := [true, true, true, true]

/-- `RESET_TO_IDLE` (R152): Reset, or Idle, to Idle. -/
def resetToIdle : Bits := [false]

/-- The TMS string of the five-pulse reset (R6, R153). -/
def resetWalk : Bits := constBits true resetPulseCount

end Sys2Proof.Machine
end

