-- ==== Sys2Proof/Machine/SynthChain.lean ====
section
/-! DEFINITION. The environment behind the pins.  `SynthChain` is the spec's reference environment (R83 to R87), a test
fixture and no part of the block; `Env` is where the answers to the block's pulses come from. -/

namespace Sys2Proof.Machine

/-- One synthetic part (R83).  `idcodeInstruction` names "the part's IDCODE instruction", of which R84 speaks without
giving it a field (log 8).  `drStore` lists the stored values that are not all zeros of their width. -/
structure SynthPart where
  desc : Descriptor
  idcodeInstruction : Option NameId
  irCells : Bits
  irLatch : Option NameId
  drCells : Bits
  drStore : List (NameId × Bits)
  deriving DecidableEq, Repr, Inhabited

/-- The synthetic chain: the devices' common TAP state and the parts, part 0 nearest TDI (R83). -/
structure SynthChain where
  tau : TapState
  parts : List SynthPart
  deriving DecidableEq, Repr, Inhabited

/-- The part at the start (R83): `ir_latch` at the default instruction, every stored value all zeros.  R83 gives
`ir_cells` and `dr_cells` no first value; they start all zeros and empty (log 8, DESIGN CHOICE). -/
def synthPart (d : Descriptor) (idcodeInstruction : Option NameId) : SynthPart :=
  { desc := d, idcodeInstruction := idcodeInstruction, irCells := constBits false (d.irLength.getD 0),
    irLatch := d.defaultInstruction, drCells := [], drStore := [] }

/-- R83 asks for descriptors with every field known: the IR length, the bypass and default instructions, every
`dr_width`, and the ID code of a part that has an ID register (one without has none, R36 (d); log 8, DEDUCED). -/
def synthDescribed (d : Descriptor) : Bool :=
  d.full && (d.idcode.isSome || d.idcodeLength == 0) && d.instructions.all (fun b => b.drWidth.isSome)

/-- `SynthChain(descs)` (R83), each descriptor with its IDCODE instruction (log 8): one part per descriptor, the common
TAP state in Reset; none where a descriptor leaves a field unknown. -/
def synthChain (descs : List (Descriptor × Option NameId)) : Option SynthChain :=
  if descs.all (fun d => synthDescribed d.1) then
    some { tau := .reset, parts := descs.map (fun d => synthPart d.1 d.2) }
  else none

/-- The width of the register an instruction selects in a synthetic part (R83). -/
def synthWidth (p : SynthPart) (name : NameId) : Nat := ((lookupName p.desc name).bind Binding.drWidth).getD 0

/-- What the register behind a name holds (R83): all zeros of its width until something else is stored. -/
def synthStored (p : SynthPart) (name : NameId) : Bits :=
  match p.drStore.find? (fun e => e.1 == name) with
  | some e => e.2
  | none => constBits false (synthWidth p name)

/-- R84 CaptureIR: bit 0 = 1, all others 0. -/
def synthCaptureIR (p : SynthPart) : SynthPart := { p with irCells := bitsOfNat (p.desc.irLength.getD 0) 1 }

/-- R84 CaptureDR: `<0>` for bypass, the ID code, or the stored register.  Where the declared `dr_width` of the bypass
instruction is not 1, or that of the IDCODE instruction is not `idcode_length`, R83's width and R84's capture differ; the
part then has the length captured (log 8, DESIGN CHOICE). -/
def synthCaptureDR (p : SynthPart) : SynthPart :=
  { p with drCells :=
      if p.irLatch = p.desc.bypassInstruction then [false]
      else if p.irLatch = p.idcodeInstruction then bitsOfNat p.desc.idcodeLength (p.desc.idcode.getD 0)
      else match p.irLatch with
        | none => []
        | some name => synthStored p name }

/-- R84 UpdateIR: the name with this opcode, else the bypass instruction.  Where several names of the map share the
opcode, R84 does not say which; the first of the list, the one of the lowest id, is latched (log 8, DESIGN CHOICE). -/
def synthUpdateIR (p : SynthPart) : SynthPart :=
  { p with irLatch :=
      match p.desc.instructions.find? (fun b => b.opcode == bitsToNat p.irCells) with
      | some b => some b.name
      | none => p.desc.bypassInstruction }

/-- R84 UpdateDR: a register that is neither bypass nor ID code takes the cells. -/
def synthUpdateDR (p : SynthPart) : SynthPart :=
  if p.irLatch = p.desc.bypassInstruction ∨ p.irLatch = p.idcodeInstruction then p
  else match p.irLatch with
    | none => p
    | some name => { p with drStore := (name, p.drCells) :: p.drStore.filter (fun e => e.1 != name) }

/-- R84 Reset: the default instruction. -/
def synthReset (p : SynthPart) : SynthPart := { p with irLatch := p.desc.defaultInstruction }

/-- A scan path in stream order (R70, R71): the cell nearest TDO first, so the fields of the parts of higher index come
first, each least significant bit first. -/
def pathOf (fields : List Bits) : Bits := fields.reverse.flatten

/-- One shift of a path in stream order (R70): the head leaves at TDO, `tdi` enters at the other end. -/
def shiftPath (path : Bits) (tdi : Bool) : Bits := (path ++ [tdi]).drop 1

/-- Cut a path in stream order into the fields of the given widths, part 0 first. -/
def cutPath : List Nat → Bits → List Bits
  | [], _ => []
  | w :: ws, path => (window path ws.sum w) :: cutPath ws path

/-- The IR fields of the chain. -/
def irFields (c : SynthChain) : List Bits := c.parts.map SynthPart.irCells

/-- The DR fields of the chain. -/
def drFields (c : SynthChain) : List Bits := c.parts.map SynthPart.drCells

/-- Put fields back into the IR cells. -/
def withIrFields (c : SynthChain) (fs : List Bits) : SynthChain :=
  { c with parts := List.zipWith (fun p f => { p with irCells := f }) c.parts fs }

/-- Put fields back into the DR cells. -/
def withDrFields (c : SynthChain) (fs : List Bits) : SynthChain :=
  { c with parts := List.zipWith (fun p f => { p with drCells := f }) c.parts fs }

/-- One shift of the IR path (R84). -/
def synthShiftIR (c : SynthChain) (tdi : Bool) : SynthChain :=
  withIrFields c (cutPath ((irFields c).map List.length) (shiftPath (pathOf (irFields c)) tdi))

/-- One shift of the DR path (R84), over the cells as captured: their number, not the declared widths, is the length of
the path (log 8, DESIGN CHOICE where the two differ). -/
def synthShiftDR (c : SynthChain) (tdi : Bool) : SynthChain :=
  withDrFields c (cutPath ((drFields c).map List.length) (shiftPath (pathOf (drFields c)) tdi))

/-- R84 stage 1: the sampled bit; R86: an empty path returns the `tdi` of the pulse. -/
def synthSample (c : SynthChain) (tdi : Bool) : Bool :=
  match c.tau with
  | .shiftIR => (pathOf (irFields c)).headD tdi
  | .shiftDR => (pathOf (drFields c)).headD tdi
  | _ => false

/-- R84 stage 2: the rising-edge action of the state before the pulse. -/
def synthEdge (c : SynthChain) (tdi : Bool) : SynthChain :=
  match c.tau with
  | .captureIR => { c with parts := c.parts.map synthCaptureIR }
  | .shiftIR => synthShiftIR c tdi
  | .captureDR => { c with parts := c.parts.map synthCaptureDR }
  | .shiftDR => synthShiftDR c tdi
  | _ => c

/-- R84 stage 3: the state moves, then the action of the new state. -/
def synthEnter (c : SynthChain) (tms : Bool) : SynthChain :=
  match advance c.tau tms with
  | .updateIR => { tau := .updateIR, parts := c.parts.map synthUpdateIR }
  | .updateDR => { tau := .updateDR, parts := c.parts.map synthUpdateDR }
  | .reset => { tau := .reset, parts := c.parts.map synthReset }
  | t => { c with tau := t }

/-- `SynthChain.Pulse(tms, tdi)` (R84). -/
def SynthChain.pulse (c : SynthChain) (tms tdi : Bool) : Bool × SynthChain :=
  (synthSample c tdi, synthEnter (synthEdge c tdi) tms)

/-- Where the answers to the block's pulses come from (R63; log 4): a list of answers already settled and free answers
after it, or the reference environment with the numbers of the pulses that time out (R85). -/
inductive Env where
  | script (answers : List PulseAnswer)
  | synth (c : SynthChain) (timeouts : List Nat)
  deriving DecidableEq, Repr, Inhabited

/-- The answer to pulse number `k`, and the environment after it (R63, R85). -/
def Env.answer (e : Env) (k : Nat) (tms tdi : Bool) : PulseAnswer × Env :=
  match e with
  | .script [] => (Config.freeAnswer k, .script [])
  | .script (a :: rest) => (a, .script rest)
  | .synth c timeouts =>
    if timeouts.contains k then (.timeout, .synth c timeouts)
    else (.bit (c.pulse tms tdi).1, .synth (c.pulse tms tdi).2 timeouts)

/-- `phys_tap` (R45), where the environment says it: the devices' own TAP state. -/
def Env.physTap : Env → Option TapState
  | .script _ => none
  | .synth c _ => some c.tau

/-- `phys_ir(p)` (R45, R270), where the environment says it: the instruction latched in device p. -/
def Env.physIr (e : Env) (p : Nat) : Option NameId :=
  match e with
  | .script _ => none
  | .synth c _ => c.parts[p]?.bind SynthPart.irLatch

end Sys2Proof.Machine
end

