-- ==== Sys2Proof/Machine/State.lean ====
section
/-! DEFINITION. The state: the tuple of R30 and, apart from it, what the model holds of the block's surroundings (its
parameters, its command port, the environment, the responses and the pin trace).  Plain data throughout. -/

namespace Sys2Proof.Machine

/-- The last driven level of each output (R45).  `trst` says whether TRST is asserted. -/
structure Pins where
  tck : Bool
  tms : Bool
  tdi : Bool
  trst : Bool
  deriving DecidableEq, Repr

/-- One pulse as the pins and the driver saw it (R62): the levels and the answer. -/
structure PulseEvent where
  tms : Bool
  tdi : Bool
  answer : PulseAnswer
  deriving DecidableEq, Repr

/-- What the host offers to the block (R40, R46, R78, R113, R260). -/
inductive HostItem where
  /-- An instruction word at the command port. -/
  | offer (w : InstrWord)
  /-- A write of word `k` of OUTBUF through its buffer port (R40, R68). -/
  | writeOutbuf (k : Nat) (v : Word)
  /-- A write to a status register, which has no effect (R46). -/
  | writeStatus (reg : Nat) (v : Word)
  /-- The integrator's reset input, which has the effect of power-on (R260). -/
  | resetInput
  deriving DecidableEq, Repr

/-- Why the machine stops with a fault. -/
inductive Fault where
  /-- The host wrote a buffer word beyond `MAX_VEC` bits, which does not exist (R40, R68).  Raised by
  `hostWriteOutbuf`, never by an instruction; safe. -/
  | noSuchBufferWord
  deriving DecidableEq, Repr

/-- Why the machine refuses. -/
inductive Refusal where
  /-- An instruction that has no meaning yet.  No arm of `exec` gives it. -/
  | notModelled (mnemonic : String)
  /-- A power-on from a configuration that breaks R36 or R115: the model does not start from it (D39, U9).  Raised by
  `hostReset`, never by an instruction; safe. -/
  | illFormedConfig
  /-- A buffer access while `busy = 1` (U14).  Raised by `hostWriteOutbuf`, never by an instruction; safe. -/
  | bufferAccessWhileBusy
  deriving DecidableEq, Repr

/-- The state.  The first ten fields are the tuple of R30; the rest is the model's own (log 1, 2, 3, 4, 6). -/
structure State where
  /-- `tap` (R31). -/
  tap : TapState
  /-- `tap_known` (R32). -/
  tapKnown : Bool
  /-- `busy` (R44). -/
  busy : Bool
  /-- `chain` (R34). -/
  chain : Option (List Part)
  /-- `chain_status` (R38). -/
  chainStatus : ChainStatus
  /-- `OUTBUF` (R40). -/
  outbuf : Memory
  /-- `INBUF` (R41). -/
  inbuf : Memory
  /-- `in_len` (R41). -/
  inLen : BitVec 16
  /-- `last_status` (R42). -/
  lastStatus : BitVec 4
  /-- `pins` (R45). -/
  pins : Pins
  /-- The parameters of R7, never written by a step. -/
  cfg : Config
  /-- What the host has offered and the block has not taken (R78), first offered first. -/
  port : List HostItem
  /-- The response words delivered (R105), first delivered first. -/
  responses : List Word
  /-- The pin trace (R79), first pulse first. -/
  trace : List PulseEvent
  /-- The environment (R45, R63). -/
  env : Env
  /-- How many pulses have been started: the number of the next one (R85). -/
  pulseNo : Nat
  /-- The value of the last evaluation of a row of `advance` (R130, R156). -/
  advanced : Option TapState
  deriving DecidableEq, Repr

/-- The state at power-on with the given parameters and environment (R48, R260; log 16 for the model's own fields). -/
def State.powerOn (c : Config) (e : Env) : State :=
  { tap := .reset, tapKnown := true, busy := false, chain := powerOnChain c, chainStatus := powerOnStatus c,
    outbuf := [], inbuf := [], inLen := 0#16, lastStatus := 0#4,
    pins := { tck := false, tms := true, tdi := false, trst := false },
    cfg := c, port := [], responses := [], trace := [], env := e, pulseNo := 0, advanced := none }

/-- The machine right after reset: power-on (R48, R260) with the block's own parameters, nothing offered and every
answer of the environment free. -/
def State.reset : State := State.powerOn boardConfig (.script [])

end Sys2Proof.Machine
end

