-- ==== Sys2Proof/Machine/Flags.lean ====
section
/-! DEFINITION. Status codes and the response word (R105, R106), and the host's read-only view of the state (R46).  The
block has no arithmetic flags (R43). -/

namespace Sys2Proof.Machine

/-- How a command ends (R12, R106): `OK`, one of the six error kinds of R230, or `REFUSED`. -/
inductive Status where
  | ok
  | unknownInstruction
  | dataRegisterLengthMismatch
  | invalidChainState
  | busTimeout
  | noDevicesDetected
  | ambiguousChainTopology
  | refused
  deriving DecidableEq, Repr

/-- The codes of R106. -/
def Status.code : Status → BitVec 4
  | .ok => 0x0#4
  | .unknownInstruction => 0x1#4
  | .dataRegisterLengthMismatch => 0x2#4
  | .invalidChainState => 0x3#4
  | .busTimeout => 0x4#4
  | .noDevicesDetected => 0x5#4
  | .ambiguousChainTopology => 0x6#4
  | .refused => 0xF#4

/-- The response word `RW` (R105). -/
def responseWord (st : Status) (len : Nat) : Word := st.code ++ 0#12 ++ BitVec.ofNat 16 len

/-- `TAP_STATE` (R46 no. 0). -/
def tapStateRegister (s : State) : Word := 0#27 ++ BitVec.ofBool s.tapKnown ++ s.tap.code

/-- `STATUS` (R46 no. 1). -/
def statusRegister (s : State) : Word := 0#24 ++ s.lastStatus ++ 0#3 ++ BitVec.ofBool s.busy

/-- `CHAIN_STATUS` (R46 no. 2): N-1 when a chain is present, else 0. -/
def chainStatusRegister (s : State) : Word :=
  0#16 ++ BitVec.ofNat 12 (match s.chain with
    | none => 0
    | some ps => ps.length - 1) ++ 0#2 ++ s.chainStatus.code

/-- `TOTAL_IR_LEN` (R46 no. 3): valid and the length, or zero. -/
def totalIrLenRegister (s : State) : Word :=
  match s.chain.bind totalIrLength with
  | none => 0#32
  | some n => 1#1 ++ 0#3 ++ BitVec.ofNat 28 n

/-- `IN_LEN` (R46 no. 4). -/
def inLenRegister (s : State) : Word := 0#16 ++ s.inLen

/-- The host's read of status register `k` (R46); there are five (log 17). -/
def readStatusRegister (s : State) (k : Nat) : Option Word :=
  match k with
  | 0 => some (tapStateRegister s)
  | 1 => some (statusRegister s)
  | 2 => some (chainStatusRegister s)
  | 3 => some (totalIrLenRegister s)
  | 4 => some (inLenRegister s)
  | _ => none

/-- The host's read of part `p` through the table port (R46). -/
def readTable (s : State) (p : Nat) : Option Part := s.chain.bind (fun ps => ps[p]?)

/-- The host's read of word `k` of INBUF (R41, R68), while `busy = 0` (log 11).  The spec says nothing of a read of a word
at or beyond word 2048, which the buffer does not have; it gives nothing (log 17, DESIGN CHOICE). -/
def readInbufWord (s : State) (k : Nat) : Option Word :=
  if s.busy = false ∧ k < bufferWords then some (readWord s.inbuf k) else none

/-- The result vector in INBUF (R41): its first `in_len` bits. -/
def resultBits (s : State) : Bits := bufferBits s.inbuf s.inLen.toNat

end Sys2Proof.Machine
end

