-- ==== Sys2Proof/Machine/Operands.lean ====
section
/-! DEFINITION. Operands: the scan-chain address decoder (R69 to R73), the vectors of the two data commands, and the
operand tests of SET_INSTRUCTION (R171) and EXCHANGE_DATA (R175). -/

namespace Sys2Proof.Machine

/-- `Lo(p)` (R71): the sum of the widths of the parts of higher index. -/
def windowLo (widths : List Nat) (p : Nat) : Nat := (widths.drop (p + 1)).sum

/-- R71: `field(N-1) ++ … ++ field(0)` from the fields listed by index. -/
def joinFields (fields : List Bits) : Bits := fields.reverse.flatten

/-- The widths of the IR path (R72). -/
def irWidths (ps : List Part) : List Nat := ps.map irWidth

/-- The opcode part `q` gets in a SET_INSTRUCTION of `name` on part `t` (R72): the target its own, every other part its
bypass opcode. -/
def irOpcode (t : Nat) (name : NameId) (q : Nat) (p : Part) : Option Nat :=
  if q = t then resolve p name else p.desc.bypassInstruction.bind (resolve p)

/-- `F(q)` of R72; `IrResolvable` says that the opcode is there. -/
def irField (t : Nat) (name : NameId) (q : Nat) (p : Part) : Bits :=
  bitsOfNat (irWidth p) ((irOpcode t name q p).getD 0)

/-- `BuildIR(t, name)` (R72). -/
def buildIR (ps : List Part) (t : Nat) (name : NameId) : Bits :=
  joinFields (ps.zipIdx.map (fun e => irField t name e.2 e.1))

/-- R171 (a): the name is a key of the target's map. -/
def targetHasName (ps : List Part) (t : Nat) (name : NameId) : Bool :=
  match ps[t]? with
  | none => false
  | some p => isKey p.desc name

/-- R171 (c): every other part has a bypass instruction. -/
def othersHaveBypass (ps : List Part) (t : Nat) : Bool :=
  ps.zipIdx.all (fun e => e.2 == t || e.1.desc.bypassInstruction.isSome)

/-- `IrResolvable(t, name)` (R171). -/
def irResolvable (ps : List Part) (t : Nat) (name : NameId) : Bool :=
  targetHasName ps t name && allIrKnown ps && othersHaveBypass ps t

/-- `ActiveWidth(q)` (R73) in an exchange of `n` bits with part `t`: the target n, every other part the width its record
declares. -/
def activeWidth (t n q : Nat) (p : Part) : Nat := if q = t then n else (recordWidth p).getD 0

/-- The widths of the DR path (R73). -/
def drWidths (ps : List Part) (t n : Nat) : List Nat := ps.zipIdx.map (fun e => activeWidth t n e.2 e.1)

/-- `G(q)` of R73: the operand for the target, padding for the others. -/
def drField (t : Nat) (out : Bits) (q : Nat) (p : Part) : Bits :=
  if q = t then out else constBits padBit ((recordWidth p).getD 0)

/-- `BuildDR(t, out_bits)` (R73). -/
def buildDR (ps : List Part) (t : Nat) (out : Bits) : Bits :=
  joinFields (ps.zipIdx.map (fun e => drField t out e.2 e.1))

/-- R175: the target's record is present, and its declared width, if known, is n. -/
def targetWidthFits (p : Part) (n : Nat) : Bool :=
  match p.current with
  | none => false
  | some c =>
    match drWidth p c with
    | none => true
    | some k => k == n

/-- R175: every other part's record is present and its width is known. -/
def othersWidthKnown (ps : List Part) (t : Nat) : Bool :=
  ps.zipIdx.all (fun e => e.2 == t || (recordWidth e.1).isSome)

/-- `out_bits` of an EXCHANGE_DATA (R104, R40). -/
def outBits (s : State) (n : Nat) : Bits := bufferBits s.outbuf n

end Sys2Proof.Machine
end

