-- ==== Sys2Proof/Machine/Ops.lean ====
section
/-! DEFINITION. The shared operations: driver calls and pulses (R61, R62), `Step`, `Walk` and `ShiftVector` (R150, R151,
R170), accepting a command and answering it, raising an error (R239: this block's trap entry) and the five-pulse reset
(R153, R242: its trap return), the buffers, and the host's own accesses. -/

namespace Sys2Proof.Machine

/-! ## What a command yields -/

/-- A computation inside one command: it goes on with a value, or the command ends with a status (R11 `raise`). -/
inductive Ran (α : Type) where
  | done (a : α) (s : State)
  | raised (k : Status) (s : State)

/-- Go on after a computation that did not raise. -/
def Ran.bind {α β : Type} (r : Ran α) (f : α → State → Ran β) : Ran β :=
  match r with
  | .done a s => f a s
  | .raised k s => .raised k s

/-! ## Pins and pulses -/

/-- The three calls the signal driver offers (R61). -/
inductive DriverCall where
  | set (tck tms tdi : Bool)
  | sample
  | resetLine (assert : Bool)
  deriving DecidableEq, Repr

/-- The driver calls of one pulse, in order (R62). -/
def pulseCalls (tms tdi : Bool) : List DriverCall :=
  [.set false tms tdi, .sample, .set true tms tdi, .set false tms tdi]

/-- The pin levels after a driver call has returned (R61, R45). -/
def Pins.after (p : Pins) : DriverCall → Pins
  | .set tck tms tdi => { p with tck := tck, tms := tms, tdi := tdi }
  | .sample => p
  | .resetLine a => { p with trst := a }

/-- The pin levels after all calls of a pulse (R62). -/
def Pins.afterPulse (p : Pins) (tms tdi : Bool) : Pins := (pulseCalls tms tdi).foldl Pins.after p

/-- The pin levels a timed-out pulse leaves (R234, U6): within the bound, free. -/
def Pins.afterTimeout (p : Pins) (left : PinsLeft) (tms tdi : Bool) : Pins :=
  { p with tck := left.tck, tms := if left.tmsDriven then tms else p.tms,
           tdi := if left.tdiDriven then tdi else p.tdi }

/-- A pulse that completed (R62): its trace, its number, the pins, the environment after it. -/
def State.pulsed (s : State) (tms tdi tdo : Bool) (e : Env) : State :=
  { s with pins := s.pins.afterPulse tms tdi, trace := s.trace ++ [⟨tms, tdi, .bit tdo⟩], env := e,
           pulseNo := s.pulseNo + 1 }

/-- A pulse that timed out (R63, R234). -/
def State.pulseLost (s : State) (tms tdi : Bool) (e : Env) : State :=
  { s with pins := s.pins.afterTimeout (Config.freePinsLeft s.pulseNo) tms tdi,
           trace := s.trace ++ [⟨tms, tdi, .timeout⟩], env := e, pulseNo := s.pulseNo + 1 }

/-- `tap <- advance(tap, tms)` (R150): the only place `tap` is written. -/
def State.track (s : State) (tms : Bool) : State := { s with tap := advance s.tap tms }

/-- `tap_known <- 0` (R150, R32). -/
def State.loseTap (s : State) : State := { s with tapKnown := false }

/-- `tap_known <- 1` (R153, R32). -/
def State.knowTap (s : State) : State := { s with tapKnown := true }

/-- `Step(tms, tdi)` (R150): one pulse and its tracking; its value is the bit sampled. -/
def stepTap (tms tdi : Bool) (s : State) : Ran Bool :=
  match s.env.answer s.pulseNo tms tdi with
  | (.bit b, e) => .done b ((s.pulsed tms tdi b e).track tms)
  | (.timeout, e) => .raised .busTimeout ((s.pulseLost tms tdi e).loseTap)

/-- `Step` for each (TMS, TDI) in order (R79); its value is the vector of the bits sampled. -/
def drive : List (Bool × Bool) → State → Ran Bits
  | [], s => .done [] s
  | p :: ps, s => (stepTap p.1 p.2 s).bind fun b s1 => (drive ps s1).bind fun bs s2 => .done (b :: bs) s2

/-- The pulses of `Walk` (R151). -/
def walkPulses (tmss : Bits) : List (Bool × Bool) := tmss.map (fun t => (t, navTdi))

/-- The pulses of `ShiftVector(v)` (R170): TMS 0 on all but the last. -/
def shiftPulses : Bits → List (Bool × Bool)
  | [] => []
  | [b] => [(true, b)]
  | b :: c :: v => (false, b) :: shiftPulses (c :: v)

/-- `Walk(<t0 t1 …>)` (R151): the samples are discarded by the caller. -/
def walk (tmss : Bits) (s : State) : Ran Bits := drive (walkPulses tmss) s

/-- `ShiftVector(v)` (R170). -/
def shiftVector (v : Bits) (s : State) : Ran Bits := drive (shiftPulses v) s

/-! ## Accepting and answering -/

/-- The port takes a command: `busy` is 1 until its response (R44, R78). -/
def State.accept (s : State) : State := { s with busy := true }

/-- The response is delivered (R105): `last_status` is written (R42) and `busy` is 0 again (R44).  For an error kind
this is all of the "trap entry" of R239: nothing is saved and control goes nowhere. -/
def State.respond (s : State) (st : Status) (len : Nat) : State :=
  { s with busy := false, lastStatus := st.code, responses := s.responses ++ [responseWord st len] }

/-- The answer to a command (R12): `OK` with the length of R105, or the status raised with length 0. -/
def answer : Ran Nat → State
  | .done len s => s.respond .ok len
  | .raised k s => s.respond k 0

/-- A command word that spells no command (R111 (a), (b), R237): no pulse, nothing written but `last_status`; the block
goes on (log 7). -/
def refuseWord (s : State) : State := answer (.raised .refused s.accept)

/-- A format-P command (R111 (c), (d), R238 (1)): refused without a chain or with a part index out of range. -/
def onPart (t : Nat) (s : State) (body : List Part → Part → State → Ran Nat) : Ran Nat :=
  match s.chain with
  | none => .raised .refused s
  | some ps =>
    match ps[t]? with
    | none => .raised .refused s
    | some p => body ps p s

/-- The TAP is known to be in Idle: what the data commands demand at entry (R233). -/
def State.idleKnown (s : State) : Bool := s.tapKnown && s.tap == .idle

/-! ## The five-pulse reset -/

/-- `part[p].current_instruction <- part[p].default_instruction` for every p (R153, R201). -/
def State.resetRecords (s : State) : State := { s with chain := Machine.resetRecords s.chain }

/-- The five-pulse reset with its effect on the state (R153, R201, R242). -/
def fiveReset (s : State) : Ran Bits :=
  (walk resetWalk s).bind fun bs s1 => .done bs s1.knowTap.resetRecords

/-! ## Writes of the data commands -/

/-- `part[t].current_instruction <- name` (R172). -/
def State.setRecord (s : State) (ps : List Part) (t : Nat) (name : NameId) : State :=
  { s with chain := some (Machine.setRecord ps t name) }

/-- `INBUF[0..n) <- r; in_len <- n` (R175, R41). -/
def State.storeResult (s : State) (r : Bits) : State :=
  { s with inbuf := writeVector s.inbuf r, inLen := BitVec.ofNat 16 r.length }

/-- The new table replaces the old one whole (R210). -/
def State.install (s : State) (ps : List Part) (cs : ChainStatus) : State :=
  { s with chain := some ps, chainStatus := cs }

/-- The value of an evaluation of `advance` is handed to the evaluator; the block itself keeps every field
(R130, R156). -/
def State.recordAdvance (s : State) (t : TapState) : State := { s with advanced := some t }

/-! ## The host's own accesses -/

/-- The bits of word `k` of OUTBUF that exist: bit 65535 does not (R40, R68; DEDUCED, log 10). -/
def outbufWord (k : Nat) (v : Word) : Word := if k + 1 = bufferWords then v &&& 0x7FFFFFFF#32 else v

/-- A write of word `k` of OUTBUF (R40, R68, U14; log 10 for the buffer's end, log 11 for `busy = 1`). -/
def hostWriteOutbuf (s : State) (k : Nat) (v : Word) : Host.Outcome State Fault Refusal :=
  if s.busy then .refused .bufferAccessWhileBusy
  else if k < bufferWords then .next { s with outbuf := writeWord s.outbuf k (outbufWord k v) }
  else .fault .noSuchBufferWord

/-- A write to a status register: no effect (R46). -/
def hostWriteStatus (s : State) (_reg : Nat) (_v : Word) : State := s

/-- The effect of the reset input (R260): power-on, the surroundings going on as they are (log 13). -/
def State.powerCycle (s : State) : State :=
  { State.powerOn s.cfg s.env with port := s.port, responses := s.responses, trace := s.trace,
                                   pulseNo := s.pulseNo, advanced := s.advanced }

/-- The reset input (R260); an ill-formed configuration is refused (R36, R115, D39; log 13). -/
def hostReset (s : State) : Host.Outcome State Fault Refusal :=
  if Config.wf s.cfg then .next s.powerCycle else .refused .illFormedConfig

end Sys2Proof.Machine
end

