-- ==== Sys2Proof/Machine/Discovery.lean ====
section
/-! DEFINITION. Chain discovery: `Partition` (R204), fragments to part entries (R206 to R208), DISCOVER_CHAIN (R200). -/

namespace Sys2Proof.Machine

/-- A fragment of the captured stream (R204): what was found, where, and the ID code value. -/
inductive Fragment where
  | bypass (pos : Nat)
  | known (k pos v : Nat)
  | unknown (pos v : Nat)
  deriving DecidableEq, Repr

/-- What stands at a marker (R204): `cand` has no length, one, or two and more. -/
inductive Marker where
  | unmatched
  | matched (k : Nat) (e : KnownId)
  | ambiguous
  deriving DecidableEq, Repr

/-- The entries of `KNOWN_IDS` that match at a position, with their indices (R204). -/
def matchesAt (ids : List KnownId) (rest : Bits) : List (KnownId × Nat) :=
  ids.zipIdx.filter (fun e => e.1.matches rest)

/-- R204: entries of two or more lengths match, or of one (the entry is then unique by R115 (ii)), or none. -/
def readMarker (ids : List KnownId) (rest : Bits) : Marker :=
  match matchesAt ids rest with
  | [] => .unmatched
  | e :: es => if es.all (fun f => f.1.len == e.1.len) then .matched e.2 e.1 else .ambiguous

/-- The field that begins at a 1 bit (R204): the fragment and its length, or no fragment where the stream is ambiguous
or the field is cut off. -/
def markerField (ids : List KnownId) (pos : Nat) (rest : Bits) : Option (Fragment × Nat) :=
  match readMarker ids rest with
  | .ambiguous => none
  | .matched k e => some (.known k pos (bitsToNat (rest.take e.len)), e.len)
  | .unmatched =>
    if rest.length < defaultIdcodeLen then none
    else some (.unknown pos (bitsToNat (rest.take defaultIdcodeLen)), defaultIdcodeLen)

/-- The loop of R204 over `s[pos ..)`: `skip` bits of it still belong to the field before (log 15). -/
def partitionFrom (ids : List KnownId) (pos : Nat) (skip : Nat) : Bits → Option (List Fragment)
  | [] => some []
  | b :: rest =>
    match skip with
    | k + 1 => partitionFrom ids (pos + 1) k rest
    | 0 =>
      if hasOne (b :: rest) then
        if b then
          match markerField ids pos (b :: rest) with
          | none => none
          | some (f, len) => (partitionFrom ids (pos + 1) (len - 1) rest).map (fun fs => f :: fs)
        else (partitionFrom ids (pos + 1) 0 rest).map (fun fs => .bypass pos :: fs)
      else some []

/-- `Partition(s)` (R204): the fragments, or the error kind it raises. -/
def partition (ids : List KnownId) (s : Bits) : Except Status (List Fragment) :=
  if hasOne s then
    match partitionFrom ids 0 0 s with
    | none => .error .ambiguousChainTopology
    | some frags => if maxParts < frags.length then .error .ambiguousChainTopology else .ok frags
  else .error .noDevicesDetected

/-- The descriptor of a part that is not of a known family (R206). -/
def bareDescriptor (len : Nat) (idcode : Option Nat) : Descriptor :=
  { irLength := none, idcodeLength := len, idcode := idcode, instructions := [], bypassInstruction := none,
    defaultInstruction := none }

/-- The entry a descriptor of the known-device table gives (R206): the captured value, the record at its default. -/
def knownPart (k : Nat) (e : KnownId) (v : Nat) : Part :=
  { desc := { e.descriptor with idcodeLength := e.len, idcode := some v }, identity := .known k,
    current := e.descriptor.defaultInstruction }

/-- The part entry of a fragment (R206). -/
def fragmentPart (ids : List KnownId) : Fragment → Part
  | .bypass _ => { desc := bareDescriptor 0 none, identity := .bypassOnly, current := none }
  | .known k _ v => knownPart k (ids.getD k default) v
  | .unknown _ v => { desc := bareDescriptor defaultIdcodeLen (some v), identity := .unknown, current := none }

/-- R207: the fragment found first is the part of the highest index. -/
def fragmentChain (ids : List KnownId) (frags : List Fragment) : List Part :=
  (frags.map (fragmentPart ids)).reverse

/-- Whether a fragment matched a known ID code (R208). -/
def Fragment.isKnown : Fragment → Bool
  | .known _ _ _ => true
  | _ => false

/-- R208. -/
def fragmentStatus (frags : List Fragment) : ChainStatus :=
  if frags.all Fragment.isKnown then .verified else .partiallyIdentified

/-- Phases 4 and 5 of R200: partition the stream and install the chain. -/
def installStream (stream : Bits) (s : State) : Ran Nat :=
  match partition s.cfg.knownIds stream with
  | .error k => .raised k s
  | .ok frags =>
    .done frags.length (s.install (fragmentChain s.cfg.knownIds frags) (fragmentStatus frags))

/-- Phase 2 of R200 (R202): flush the IR path with ones and leave it through Reset. -/
def flushPhase (s : State) : Ran Bits :=
  (walk resetToIdle s).bind fun _ s1 =>
  (walk toShiftIR s1).bind fun _ s2 =>
  (shiftVector (constBits flushBit s.cfg.irFlushLen) s2).bind fun _ s3 =>
  walk exitToReset s3

/-- Phase 3 of R200 (R203): capture the stream; its value is the stream. -/
def capturePhase (s : State) : Ran Bits :=
  (walk resetToIdle s).bind fun _ s1 =>
  (walk toShiftDR s1).bind fun _ s2 =>
  (shiftVector (constBits captureFill s.cfg.drCaptureLen) s2).bind fun stream s3 =>
  (walk exitToIdle s3).bind fun _ s4 => .done stream s4

/-- DISCOVER_CHAIN (R200) after acceptance. -/
def discoverChainBody (s : State) : Ran Nat :=
  (fiveReset s).bind fun _ s1 =>
  (flushPhase s1).bind fun _ s2 =>
  (capturePhase s2).bind fun stream s3 =>
  installStream stream s3

/-- DISCOVER_CHAIN (R200). -/
def execDiscoverChain (s : State) : Host.Outcome State Fault Refusal := .next (answer (discoverChainBody s.accept))

end Sys2Proof.Machine
end

