-- ==== Sys2Proof/Machine/ShiftEngine.lean ====
section
/-! DEFINITION. The IR/DR shift engine: SET_INSTRUCTION (R172) and EXCHANGE_DATA (R175, R176). -/

namespace Sys2Proof.Machine

/-- The pulses and the record write of SET_INSTRUCTION (R172), after its tests. -/
def setInstructionPulses (t : Nat) (name : NameId) (ps : List Part) (s : State) : Ran Nat :=
  (walk toShiftIR s).bind fun _ s1 =>
  (shiftVector (buildIR ps t name) s1).bind fun _ s2 =>
  (walk exitToIdle s2).bind fun _ s3 =>
  .done 0 (s3.setRecord ps t name)

/-- SET_INSTRUCTION (R172) on a part of the chain: the tests in the order of R238, then the pulses. -/
def setInstructionBody (t : Nat) (name : NameId) (ps : List Part) (_p : Part) (s : State) : Ran Nat :=
  if s.idleKnown then
    if irResolvable ps t name then setInstructionPulses t name ps s
    else .raised .unknownInstruction s
  else .raised .invalidChainState s

/-- SET_INSTRUCTION p<t>, <name> (R172). -/
def execSetInstruction (t : Nat) (name : NameId) (s : State) : Host.Outcome State Fault Refusal :=
  .next (answer (onPart t s.accept (setInstructionBody t name)))

/-- The pulses and the result of EXCHANGE_DATA (R175), after its tests, for n at least 1. -/
def exchangeDataPulses (t n : Nat) (ps : List Part) (s : State) : Ran Nat :=
  (walk toShiftDR s).bind fun _ s1 =>
  (shiftVector (buildDR ps t (outBits s n)) s1).bind fun c s2 =>
  (walk exitToIdle s2).bind fun _ s3 =>
  .done n (s3.storeResult (window c (windowLo (drWidths ps t n) t) n))

/-- EXCHANGE_DATA (R175) on a part of the chain: the tests in the order of R238, the empty exchange (R176), then the
pulses. -/
def exchangeDataBody (t n : Nat) (ps : List Part) (p : Part) (s : State) : Ran Nat :=
  if s.idleKnown then
    if targetWidthFits p n && othersWidthKnown ps t then
      if n = 0 then .done 0 (s.storeResult []) else exchangeDataPulses t n ps s
    else .raised .dataRegisterLengthMismatch s
  else .raised .invalidChainState s

/-- EXCHANGE_DATA p<t>, n bits of OUTBUF (R175). -/
def execExchangeData (t n : Nat) (s : State) : Host.Outcome State Fault Refusal :=
  .next (answer (onPart t s.accept (exchangeDataBody t n)))

end Sys2Proof.Machine
end

