-- ==== Sys2Proof/Machine/StateRows.lean ====
section
/-! DEFINITION. The sixteen state rows of the opcode table (R107, R131 to R146): each is `advance` in one state.  R130: it
"reads nothing but its two arguments and writes nothing"; R156: "available to a model as a function".  So evaluating a
row hands its value out and leaves every field of the block as it was (log 3); the pulses of the commands take the same
rows through `advance`. -/

namespace Sys2Proof.Machine

/-- STATE_Reset (R131). -/
def execStateReset (tms : Bool) (s : State) : Host.Outcome State Fault Refusal := .next (s.recordAdvance (rowReset tms))

/-- STATE_Idle (R132). -/
def execStateIdle (tms : Bool) (s : State) : Host.Outcome State Fault Refusal := .next (s.recordAdvance (rowIdle tms))

/-- STATE_SelectDR (R133). -/
def execStateSelectDR (tms : Bool) (s : State) : Host.Outcome State Fault Refusal := .next (s.recordAdvance (rowSelectDR tms))

/-- STATE_CaptureDR (R134). -/
def execStateCaptureDR (tms : Bool) (s : State) : Host.Outcome State Fault Refusal := .next (s.recordAdvance (rowCaptureDR tms))

/-- STATE_ShiftDR (R135). -/
def execStateShiftDR (tms : Bool) (s : State) : Host.Outcome State Fault Refusal := .next (s.recordAdvance (rowShiftDR tms))

/-- STATE_Exit1DR (R136). -/
def execStateExit1DR (tms : Bool) (s : State) : Host.Outcome State Fault Refusal := .next (s.recordAdvance (rowExit1DR tms))

/-- STATE_PauseDR (R137). -/
def execStatePauseDR (tms : Bool) (s : State) : Host.Outcome State Fault Refusal := .next (s.recordAdvance (rowPauseDR tms))

/-- STATE_Exit2DR (R138). -/
def execStateExit2DR (tms : Bool) (s : State) : Host.Outcome State Fault Refusal := .next (s.recordAdvance (rowExit2DR tms))

/-- STATE_UpdateDR (R139). -/
def execStateUpdateDR (tms : Bool) (s : State) : Host.Outcome State Fault Refusal := .next (s.recordAdvance (rowUpdateDR tms))

/-- STATE_SelectIR (R140). -/
def execStateSelectIR (tms : Bool) (s : State) : Host.Outcome State Fault Refusal := .next (s.recordAdvance (rowSelectIR tms))

/-- STATE_CaptureIR (R141). -/
def execStateCaptureIR (tms : Bool) (s : State) : Host.Outcome State Fault Refusal := .next (s.recordAdvance (rowCaptureIR tms))

/-- STATE_ShiftIR (R142). -/
def execStateShiftIR (tms : Bool) (s : State) : Host.Outcome State Fault Refusal := .next (s.recordAdvance (rowShiftIR tms))

/-- STATE_Exit1IR (R143). -/
def execStateExit1IR (tms : Bool) (s : State) : Host.Outcome State Fault Refusal := .next (s.recordAdvance (rowExit1IR tms))

/-- STATE_PauseIR (R144). -/
def execStatePauseIR (tms : Bool) (s : State) : Host.Outcome State Fault Refusal := .next (s.recordAdvance (rowPauseIR tms))

/-- STATE_Exit2IR (R145). -/
def execStateExit2IR (tms : Bool) (s : State) : Host.Outcome State Fault Refusal := .next (s.recordAdvance (rowExit2IR tms))

/-- STATE_UpdateIR (R146). -/
def execStateUpdateIR (tms : Bool) (s : State) : Host.Outcome State Fault Refusal := .next (s.recordAdvance (rowUpdateIR tms))

end Sys2Proof.Machine
end

