-- ==== Sys2Proof/Machine/TapCommands.lean ====
section
/-! DEFINITION. The two commands that only move the TAP: RESET_TAP (R153) and ENTER_IDLE (R154). -/

namespace Sys2Proof.Machine

/-- RESET_TAP (R153) after acceptance: nothing is required of `tap` or `tap_known`. -/
def resetTapBody (s : State) : Ran Nat :=
  (fiveReset s).bind fun _ s1 => .done 0 s1

/-- RESET_TAP (R153). -/
def execResetTap (s : State) : Host.Outcome State Fault Refusal := .next (answer (resetTapBody s.accept))

/-- ENTER_IDLE (R154) after acceptance: one pulse with TMS 0, from a known state. -/
def enterIdleBody (s : State) : Ran Nat :=
  if s.tapKnown then (walk resetToIdle s).bind fun _ s1 => .done 0 s1
  else .raised .invalidChainState s

/-- ENTER_IDLE (R154). -/
def execEnterIdle (s : State) : Host.Outcome State Fault Refusal := .next (answer (enterIdleBody s.accept))

end Sys2Proof.Machine
end

