-- ==== Sys2Proof/Machine/Dispatch.lean ====
section
/-! DEFINITION. `exec`: one arm per constructor of `Instr`, each one call of its meaning. -/

namespace Sys2Proof.Machine

def exec (i : Instr) (s : State) : Host.Outcome State Fault Refusal :=
  match i with
  | .resetTap => Sys2Proof.Machine.execResetTap s
  | .enterIdle => Sys2Proof.Machine.execEnterIdle s
  | .setInstruction part name => Sys2Proof.Machine.execSetInstruction part name s
  | .exchangeData part n => Sys2Proof.Machine.execExchangeData part n s
  | .discoverChain => Sys2Proof.Machine.execDiscoverChain s
  | .stateReset tms => Sys2Proof.Machine.execStateReset tms s
  | .stateIdle tms => Sys2Proof.Machine.execStateIdle tms s
  | .stateSelectDR tms => Sys2Proof.Machine.execStateSelectDR tms s
  | .stateCaptureDR tms => Sys2Proof.Machine.execStateCaptureDR tms s
  | .stateShiftDR tms => Sys2Proof.Machine.execStateShiftDR tms s
  | .stateExit1DR tms => Sys2Proof.Machine.execStateExit1DR tms s
  | .statePauseDR tms => Sys2Proof.Machine.execStatePauseDR tms s
  | .stateExit2DR tms => Sys2Proof.Machine.execStateExit2DR tms s
  | .stateUpdateDR tms => Sys2Proof.Machine.execStateUpdateDR tms s
  | .stateSelectIR tms => Sys2Proof.Machine.execStateSelectIR tms s
  | .stateCaptureIR tms => Sys2Proof.Machine.execStateCaptureIR tms s
  | .stateShiftIR tms => Sys2Proof.Machine.execStateShiftIR tms s
  | .stateExit1IR tms => Sys2Proof.Machine.execStateExit1IR tms s
  | .statePauseIR tms => Sys2Proof.Machine.execStatePauseIR tms s
  | .stateExit2IR tms => Sys2Proof.Machine.execStateExit2IR tms s
  | .stateUpdateIR tms => Sys2Proof.Machine.execStateUpdateIR tms s

end Sys2Proof.Machine
end

