-- ==== Sys2Proof/Machine/Step.lean ====
section
/-! DEFINITION. The step: the block takes the first thing the host offers (R78, R79) and completes it. -/

namespace Sys2Proof.Machine

/-- Run an instruction word: decode it; a command word that spells nothing is answered `REFUSED` (R111, R237; log 7). -/
def runWord (w : InstrWord) (s : State) : Host.Outcome State Fault Refusal :=
  match decode w with
  | .ok i => exec i s
  | .error _ => .next (refuseWord s)

/-- Whether the port accepts a word now: a command waits while `busy = 1` (R44, R78; log 9); a row of `advance` is no
command and touches nothing of the block (log 3). -/
def accepts (w : InstrWord) (s : State) : Bool :=
  match w with
  | .command _ => !s.busy
  | .row _ _ => true

/-- The state with the first offered item taken. -/
def State.withPort (s : State) (items : List HostItem) : State := { s with port := items }

/-- One step.  With nothing offered the block rests (R248; log 2, log 9). -/
def step (s : State) : Host.Outcome State Fault Refusal :=
  match s.port with
  | [] => .next s
  | .offer w :: rest => if accepts w s then runWord w (s.withPort rest) else .next s
  | .writeOutbuf k v :: rest => hostWriteOutbuf (s.withPort rest) k v
  | .writeStatus reg v :: rest => .next (hostWriteStatus (s.withPort rest) reg v)
  | .resetInput :: rest => hostReset (s.withPort rest)

/-- The state in which the next step runs the instruction of a table row's bits: its word stands first at the port, and
`busy` is 0 so that the port takes it. -/
def State.withFetchWord (s : State) (nbits w : Nat) : State :=
  match tableWord nbits w with
  | none => s
  | some iw => { s with port := .offer iw :: s.port, busy := false }

end Sys2Proof.Machine
end

