-- ==== Sys2Proof/Machine/Pseudo.lean ====
section
/-! DEFINITION. The assembler's lines and the pseudo-instructions (R113, R114): what the host offers for each. -/

namespace Sys2Proof.Machine

/-- One line of a program (R113). -/
inductive AsmLine where
  | resetTap
  | enterIdle
  | setInstruction (part : Nat) (name : NameId)
  | exchangeData (part : Nat) (out : Bits)
  | discoverChain
  deriving DecidableEq, Repr

/-- The writes of OUTBUF that load a vector from word `k` on (R113, R68). -/
def outbufWrites (k : Nat) (v : Bits) : Nat → List HostItem
  | 0 => []
  | words + 1 =>
    .writeOutbuf k (BitVec.ofNat 32 (bitsToNat (v.take 32))) :: outbufWrites (k + 1) (v.drop 32) words

/-- The host actions a line stands for (R113): EXCHANGE_DATA loads OUTBUF, then gives the command word. -/
def AsmLine.items : AsmLine → List HostItem
  | .resetTap => [.offer (encode .resetTap)]
  | .enterIdle => [.offer (encode .enterIdle)]
  | .setInstruction part name => [.offer (encode (.setInstruction part name))]
  | .exchangeData part out =>
    outbufWrites 0 out ((out.length + 31) / 32) ++ [.offer (encode (.exchangeData part out.length))]
  | .discoverChain => [.offer (encode .discoverChain)]

/-- `RECOVER` (R114). -/
def recoverProgram : List Instr := [.resetTap, .enterIdle]

/-- The part of `SELECT_ONLY` for the parts that are not the target (R114): each set to its bypass instruction, in
increasing order of index.  R114 names nothing to offer for a part whose `bypass_instruction` is none; name id 0 stands
there (log 18, DESIGN CHOICE). -/
def bypassOthers (ps : List Part) (t : Nat) : List Instr :=
  (ps.zipIdx.filter (fun e => e.2 != t)).map
    (fun e => .setInstruction e.2 (e.1.desc.bypassInstruction.getD 0))

/-- `SELECT_ONLY p<t>, <name>` (R114). -/
def selectOnlyProgram (ps : List Part) (t : Nat) (name : NameId) : List Instr :=
  bypassOthers ps t ++ [.setInstruction t name]

/-- Run a sequence, stopping after the first command whose status is not `OK` (R114). -/
def runWhileOk : List Instr → State → Host.Outcome State Fault Refusal
  | [], s => .next s
  | i :: is, s =>
    match exec i s with
    | .next u => if u.lastStatus = Status.ok.code then runWhileOk is u else .next u
    | .fault r => .fault r
    | .refused r => .refused r

end Sys2Proof.Machine
end

