-- ==== Sys2Proof/Safety.lean ====
section
/-! DEFINITION. The terms claims are stated in: what the environment does with a list of pulses, the state after them,
the pulse lists of the commands, the invariant of the resting block, coherence of records and devices (R270), and runs
without a refused word (R237). -/

namespace Sys2Proof.Machine

/-! ## Pulses and the environment -/

/-- What becomes of a list of pulses (R63): all are answered, or the first unanswered one comes after the given bits. -/
inductive PulseRun where
  | all (bits : Bits) (e : Env)
  | cut (bits : Bits) (e : Env)
  deriving DecidableEq, Repr

/-- One more bit sampled before the rest of a run. -/
def PulseRun.cons (b : Bool) : PulseRun → PulseRun
  | .all bits e => .all (b :: bits) e
  | .cut bits e => .cut (b :: bits) e

/-- The environment's answers to pulses issued in order, the first with number `k`. -/
def exchange : List (Bool × Bool) → Nat → Env → PulseRun
  | [], _, e => .all [] e
  | p :: ps, k, e =>
    match e.answer k p.1 p.2 with
    | (.bit b, e1) => (exchange ps (k + 1) e1).cons b
    | (.timeout, e1) => .cut [] e1

/-- The answers to the pulses a state issues next. -/
def State.exchange (s : State) (ps : List (Bool × Bool)) : PulseRun := Machine.exchange ps s.pulseNo s.env

/-- The TMS string of a list of pulses. -/
def tmsOf (ps : List (Bool × Bool)) : Bits := ps.map Prod.fst

/-- The trace of pulses that completed with the given samples (R62). -/
def deliveredEvents (ps : List (Bool × Bool)) (bits : Bits) : List PulseEvent :=
  List.zipWith (fun p b => ⟨p.1, p.2, .bit b⟩) ps bits

/-- The pin levels after completed pulses: those of the last one (R62). -/
def pinsAfter (pins : Pins) (ps : List (Bool × Bool)) : Pins :=
  match ps.getLast? with
  | none => pins
  | some p => { pins with tck := false, tms := p.1, tdi := p.2 }

/-- The state after pulses that all completed (R150, R79): one `advance` and one trace entry per pulse. -/
def State.delivered (s : State) (ps : List (Bool × Bool)) (bits : Bits) (e : Env) : State :=
  { s with tap := advanceAll s.tap (tmsOf ps), pins := pinsAfter s.pins ps,
           trace := s.trace ++ deliveredEvents ps bits, env := e, pulseNo := s.pulseNo + ps.length }

/-- The state after pulses of which the first `bits.length` completed and the next one timed out (R150, R234). -/
def State.cutAt (s : State) (ps : List (Bool × Bool)) (bits : Bits) (e : Env) : State :=
  match ps[bits.length]? with
  | none => s
  | some p =>
    { s.delivered (ps.take bits.length) bits e with
      tapKnown := false
      pins := (pinsAfter s.pins (ps.take bits.length)).afterTimeout
        (Config.freePinsLeft (s.pulseNo + bits.length)) p.1 p.2
      trace := s.trace ++ deliveredEvents (ps.take bits.length) bits ++ [⟨p.1, p.2, .timeout⟩]
      pulseNo := s.pulseNo + bits.length + 1 }

/-! ## The pin traces of the commands -/

/-- A pulse list from its TMS and TDI strings. -/
def pulsesOf (tms tdi : Bits) : List (Bool × Bool) := tms.zip tdi

/-- TMS during a shift of `n` bits (R170). -/
def shiftTms (n : Nat) : Bits := constBits false (n - 1) ++ [true]

/-- RESET_TAP (R153): `TMS 11111`, `TDI 00000`. -/
def resetPlan : List (Bool × Bool) := pulsesOf [true, true, true, true, true] [false, false, false, false, false]

/-- ENTER_IDLE (R154): `TMS 0`, `TDI 0`. -/
def idlePlan : List (Bool × Bool) := pulsesOf [false] [false]

/-- An IR scan from Idle to Idle (R172): the walk `1100`, the vector, the walk `10`. -/
def irScanPlan (v : Bits) : List (Bool × Bool) :=
  pulsesOf ([true, true, false, false] ++ shiftTms v.length ++ [true, false])
    ([false, false, false, false] ++ v ++ [false, false])

/-- A DR scan from Idle to Idle (R175): the walk `100`, the vector, the walk `10`. -/
def drScanPlan (v : Bits) : List (Bool × Bool) :=
  pulsesOf ([true, false, false] ++ shiftTms v.length ++ [true, false])
    ([false, false, false] ++ v ++ [false, false])

/-- DISCOVER_CHAIN (R200 to R203, R211): the reset, `0 1100`, F ones, `1111`, `0 100`, M zeros, `10`. -/
def discoverPlan (f m : Nat) : List (Bool × Bool) :=
  pulsesOf
    (constBits true 5 ++ [false, true, true, false, false] ++ shiftTms f ++ [true, true, true, true] ++
      [false, true, false, false] ++ shiftTms m ++ [true, false])
    (constBits false 10 ++ constBits true f ++ constBits false 8 ++ constBits false m ++ constBits false 2)

/-! ## Answers -/

/-- The state a command leaves that ends with `st` and length `len` and writes nothing else (R105, R42, R44). -/
def State.answered (s : State) (st : Status) (len : Nat) : State :=
  { s with busy := false, lastStatus := st.code,
           responses := s.responses ++ [st.code ++ 0#12 ++ BitVec.ofNat 16 len] }

/-- Every record at its default (R153): the effect of a completed five-pulse reset on the chain table. -/
def recordsAtDefault (c : Option (List Part)) : Option (List Part) :=
  match c with
  | none => none
  | some ps => some (ps.map (fun p => { p with current := p.desc.defaultInstruction }))

/-- The captured stream among the samples of DISCOVER_CHAIN (R211): those of pulses F + 18 to F + M + 17. -/
def capturedStream (c : Config) (bits : Bits) : Bits := window bits (c.irFlushLen + 18) c.drCaptureLen

/-! ## The invariant of the resting block -/

/-- What holds between commands. -/
structure State.Inv (s : State) : Prop where
  /-- The parameters are well formed (R7, R36, R115). -/
  cfgWf : Config.wf s.cfg = true
  /-- `busy` is 0 in every state the host can observe (R44). -/
  notBusy : s.busy = false
  /-- R33: a believed TAP rests in Reset or Idle. -/
  restState : s.tapKnown = true → s.tap = .reset ∨ s.tap = .idle
  /-- R34, R36, R181: the chain table is well formed and its records are keys. -/
  chainOk : ∀ ps, s.chain = some ps → chainWf ps = true
  /-- R38: `Absent` exactly when there is no chain. -/
  statusOk : s.chainStatus = .absent ↔ s.chain = none
  /-- The canonical form of OUTBUF. -/
  outbufWf : Memory.wf s.outbuf = true
  /-- The canonical form of INBUF. -/
  inbufWf : Memory.wf s.inbuf = true
  /-- R106: the codes 7 to 14 are never produced. -/
  statusCode : ∃ st : Status, s.lastStatus = st.code
  /-- R62: TCK rests low where the last pulse completed. -/
  tckLow : s.tapKnown = true → s.pins.tck = false
  /-- R65: TRST is deasserted. -/
  trstOff : s.pins.trst = false

/-! ## Records and devices -/

/-- `Coherent` for an exchange with part `t` (R270): every record selects a register of the width of the one the device
has selected, and the target's record is the device's instruction.  Where a record is none, or the environment does not
say `phys_ir` (a script), R270 gives `DrWidth` no value; the model reads the width and the instruction as absent there
and counts two absent ones as equal (log 19, DESIGN CHOICE). -/
def Coherent (s : State) (t : Nat) : Prop :=
  ∀ ps, s.chain = some ps →
    (∀ q p, ps[q]? = some p → recordWidth p = (s.env.physIr q).bind (drWidth p)) ∧
      ∀ p, ps[t]? = some p → p.current = s.env.physIr t

/-- A table entry names a synthetic part's instruction register truly (R275): its length, its names and opcodes, its
bypass and default instructions. -/
def describesPart (p : Part) (d : SynthPart) : Prop :=
  p.desc.irLength = d.desc.irLength ∧
    p.desc.instructions.map (fun b => (b.name, b.opcode)) = d.desc.instructions.map (fun b => (b.name, b.opcode)) ∧
    p.desc.bypassInstruction = d.desc.bypassInstruction ∧ p.desc.defaultInstruction = d.desc.defaultInstruction

/-- The table describes the synthetic chain (R275): the same number of parts in the same order, each described truly. -/
def describes (ps : List Part) (c : SynthChain) : Prop := List.Forall₂ describesPart ps c.parts

/-- No two names of a map share an opcode, so that "the name whose opcode equals" (R84) is one name. -/
def opcodesApart (d : Descriptor) : Bool := decide ((d.instructions.map Binding.opcode).Nodup)

/-! ## The partition of a stream -/

/-- Where a fragment begins (R204). -/
def Fragment.pos : Fragment → Nat
  | .bypass pos => pos
  | .known _ pos _ => pos
  | .unknown pos _ => pos

/-- How many bits of the stream a fragment takes (R204). -/
def Fragment.len (ids : List KnownId) : Fragment → Nat
  | .bypass _ => 1
  | .known k _ _ => (ids.getD k default).len
  | .unknown _ _ => 32

/-- A fragment is what the stream holds at its place (R204): a 0 with a 1 somewhere after it; or a 1 at which the named
entry matches and every matching entry has its length; or a 1 at which nothing matches and 32 bits are left.  The value
is the field, index 0 its least significant bit. -/
def Fragment.cutFrom (ids : List KnownId) (s : Bits) : Fragment → Prop
  | .bypass pos => s[pos]? = some false ∧ hasOne (s.drop pos) = true
  | .known k pos v =>
    s[pos]? = some true ∧ ∃ e, ids[k]? = some e ∧ KnownId.matches e (s.drop pos) = true ∧
      v = bitsToNat (window s pos e.len) ∧ ∀ f ∈ ids, KnownId.matches f (s.drop pos) = true → f.len = e.len
  | .unknown pos v =>
    s[pos]? = some true ∧ (∀ e ∈ ids, KnownId.matches e (s.drop pos) = false) ∧ pos + 32 ≤ s.length ∧
      v = bitsToNat (window s pos 32)

/-- How many bits of the stream fragments take, one after the other (R204). -/
def tiledLen (ids : List KnownId) (frags : List Fragment) : Nat := (frags.map (Fragment.len ids)).sum

/-- Fragments tile a stream from its first bit on (R204): each begins where the ones before it end and is what the stream
holds there. -/
def tiles (ids : List KnownId) (s : Bits) (frags : List Fragment) : Prop :=
  ∀ (i : Nat) (f : Fragment), frags[i]? = some f → f.pos = tiledLen ids (frags.take i) ∧ f.cutFrom ids s

/-- The part entry was matched by an entry of the known-device table (R35, R208). -/
def Part.isKnown (p : Part) : Bool :=
  match p.identity with
  | .known _ => true
  | _ => false

/-! ## Runs -/

/-- A run without a refused word (R237): no response so far is `REFUSED`. -/
def State.clean (s : State) : Prop := ∀ rw ∈ s.responses, rw ≠ 0xF0000000#32

/-- A number of steps in a row. -/
def runSteps : Nat → State → Host.Outcome State Fault Refusal
  | 0, s => .next s
  | n + 1, s =>
    match step s with
    | .next u => runSteps n u
    | .fault r => .fault r
    | .refused r => .refused r

/-- The commands of R102: the instructions that are offered as command words and answered. -/
def isCommand : Instr → Bool
  | .resetTap => true
  | .enterIdle => true
  | .setInstruction _ _ => true
  | .exchangeData _ _ => true
  | .discoverChain => true
  | _ => false

end Sys2Proof.Machine
end

