-- ==== Sys2Proof/Certificates/Slice0/Obligations.lean ====
section
/-! DEFINITION. The statements for the provers, each after a rule of spec/. -/

open Sys2Proof Sys2Proof.Machine

/-! ## Encoding -/

/-- Decode and encode agree on every well-formed instruction (R100 to R104, R107).  The word of a state row, its code with
a TMS bit beside it, is the model's choice (log 3). -/
def Obligations.DecodeOfEncodeIsTheInstruction : Prop :=
  ∀ i : Instr, i.wellFormed = true → decode (encode i) = .ok i

/-- The other way: a word that decodes is the word of the instruction it decodes to, and that instruction is well formed,
so no word is read as an instruction of another word (the words of the state rows: log 3). -/
def Obligations.EncodeOfDecodeIsTheWord : Prop :=
  ∀ (w : InstrWord) (i : Instr), decode w = .ok i → encode i = w ∧ i.wellFormed = true

/-- R103: match and mask of the five commands, and every other word is reserved. -/
def Obligations.CommandWordsAreThoseOfMatchAndMask : Prop :=
  ∀ cw : Word,
    (decode (.command cw) = .ok .resetTap ↔ cw = 0x10000000#32) ∧
    (decode (.command cw) = .ok .enterIdle ↔ cw = 0x20000000#32) ∧
    ((∃ p n, decode (.command cw) = .ok (.setInstruction p n)) ↔ cw &&& 0xF0000000#32 = 0x30000000#32) ∧
    ((∃ p n, decode (.command cw) = .ok (.exchangeData p n)) ↔ cw &&& 0xF0000000#32 = 0x40000000#32) ∧
    (decode (.command cw) = .ok .discoverChain ↔ cw = 0x50000000#32) ∧
    ((∃ r, decode (.command cw) = .error r) ↔
      cw ≠ 0x10000000#32 ∧ cw ≠ 0x20000000#32 ∧ cw &&& 0xF0000000#32 ≠ 0x30000000#32 ∧
        cw &&& 0xF0000000#32 ≠ 0x40000000#32 ∧ cw ≠ 0x50000000#32)

/-- R104: the operands of a decoded word, and the operand bits in OUTBUF. -/
def Obligations.OperandsComeFromTheirFields : Prop :=
  (∀ (cw : Word) (p n : Nat),
    (decode (.command cw) = .ok (.setInstruction p n) ∨ decode (.command cw) = .ok (.exchangeData p n)) →
      p = cw.toNat / 2 ^ 16 % 2 ^ 12 ∧ n = cw.toNat % 2 ^ 16) ∧
  ∀ (s : State) (n i : Nat), i < n →
    (outBits s n)[i]? = some ((readWord s.outbuf (i / 32)).getLsbD (i % 32))

/-- Five command words written out from the spec's encodings (R101, R102, 95_test_vectors.md V4) decode to the
instructions they stand for; so does the word of the row of state code 0100 (R107) under TMS 1, in which the TMS bit
beside the code is the model's choice (log 3). -/
def Obligations.WordsOfTheSpecDecode : Prop :=
  decode (.command 0b00010000000000000000000000000000#32) = .ok .resetTap ∧
  decode (.command 0b00100000000000000000000000000000#32) = .ok .enterIdle ∧
  decode (.command 0b00110000000000101011111011101111#32) = .ok (.setInstruction 2 0xBEEF) ∧
  decode (.command 0b01000000000000010000000000100000#32) = .ok (.exchangeData 1 32) ∧
  decode (.command 0b01010000000000000000000000000000#32) = .ok .discoverChain ∧
  decode (.row 0b0100#4 true) = .ok (.stateShiftDR true)

/-! ## The step -/

/-- What a step does with the word at the port: an accepted word that decodes is run by `exec` with the word taken; one
that does not decode is answered `REFUSED` and the block goes on (R111, V5; log 7).  That a command offered while
`busy = 1` waits by a step that changes nothing, and that a block with nothing offered rests, is the model's choice
(log 9, log 2) for R44, R78 and R248; and that a word which is a row of `advance` is taken and run, also while
`busy = 1`, is the choice of log 3. -/
def Obligations.StepRunsTheDecodedInstruction : Prop :=
  (∀ (s : State) (w : InstrWord) (rest : List HostItem) (i : Instr),
    s.port = .offer w :: rest → decode w = .ok i → (isCommand i = true → s.busy = false) →
      step s = exec i { s with port := rest }) ∧
  (∀ (s : State) (cw : Word) (rest : List HostItem) (r : Reject),
    s.port = .offer (.command cw) :: rest → decode (.command cw) = .error r → s.busy = false →
      step s = .next (({ s with port := rest } : State).answered .refused 0)) ∧
  (∀ (s : State) (cw : Word) (rest : List HostItem),
    s.port = .offer (.command cw) :: rest → s.busy = true → step s = .next s) ∧
  ∀ s : State, s.port = [] → step s = .next s

/-- R111 (c), (d): a format-P command without a chain, or with a part index that is not one of the chain's, is refused:
no pulse, nothing written but `last_status`. -/
def Obligations.CommandOnAbsentPartIsRefused : Prop :=
  ∀ (s : State) (t a : Nat), (∀ ps, s.chain = some ps → ps.length ≤ t) →
    exec (.setInstruction t a) s = .next (s.answered .refused 0) ∧
    exec (.exchangeData t a) s = .next (s.answered .refused 0)

/-- R105, R42: every accepted command word, a refused one too, is answered by exactly one response word, whose status
`last_status` then holds; its length is n for an `OK` exchange (the result then in INBUF[0..n)), N for an `OK`
discovery, and 0 in every other case. -/
def Obligations.EveryCommandAnswersOnce : Prop :=
  ∀ (s : State) (cw : Word) (rest : List HostItem), s.port = .offer (.command cw) :: rest → s.busy = false →
    ∃ (u : State) (st : Status) (len : Nat), step s = .next u ∧
      u.responses = s.responses ++ [st.code ++ 0#12 ++ BitVec.ofNat 16 len] ∧ u.lastStatus = st.code ∧
      u.busy = false ∧ (len ≠ 0 → st = .ok) ∧
      (st = .ok → ∃ i, decode (.command cw) = .ok i ∧ match i with
        | .exchangeData _ n => len = n ∧ u.inLen = BitVec.ofNat 16 n
        | .discoverChain => ∃ ps, u.chain = some ps ∧ len = ps.length
        | _ => len = 0)

/-! ## The TAP automaton -/

/-- The 32 transitions of R131 to R146. -/
def Obligations.AdvanceIsTheTransitionTable : Prop :=
  advance .reset false = .idle ∧ advance .reset true = .reset ∧
  advance .idle false = .idle ∧ advance .idle true = .selectDR ∧
  advance .selectDR false = .captureDR ∧ advance .selectDR true = .selectIR ∧
  advance .captureDR false = .shiftDR ∧ advance .captureDR true = .exit1DR ∧
  advance .shiftDR false = .shiftDR ∧ advance .shiftDR true = .exit1DR ∧
  advance .exit1DR false = .pauseDR ∧ advance .exit1DR true = .updateDR ∧
  advance .pauseDR false = .pauseDR ∧ advance .pauseDR true = .exit2DR ∧
  advance .exit2DR false = .shiftDR ∧ advance .exit2DR true = .updateDR ∧
  advance .updateDR false = .idle ∧ advance .updateDR true = .selectDR ∧
  advance .selectIR false = .captureIR ∧ advance .selectIR true = .reset ∧
  advance .captureIR false = .shiftIR ∧ advance .captureIR true = .exit1IR ∧
  advance .shiftIR false = .shiftIR ∧ advance .shiftIR true = .exit1IR ∧
  advance .exit1IR false = .pauseIR ∧ advance .exit1IR true = .updateIR ∧
  advance .pauseIR false = .pauseIR ∧ advance .pauseIR true = .exit2IR ∧
  advance .exit2IR false = .shiftIR ∧ advance .exit2IR true = .updateIR ∧
  advance .updateIR false = .idle ∧ advance .updateIR true = .selectDR

/-- R147: five TMS = 1 steps reach Reset from every state, and the least number of them from each. -/
def Obligations.FiveOnesReachReset : Prop :=
  ∀ (s : TapState) (k : Nat),
    [0, 3, 2, 5, 5, 4, 5, 4, 3, 1, 5, 5, 4, 5, 4, 3][s.code.toNat]? = some k →
      advanceAll s (constBits true 5) = .reset ∧ advanceAll s (constBits true k) = .reset ∧
        ∀ j < k, advanceAll s (constBits true j) ≠ .reset

/-- R148: Reset holds under TMS = 1, and five TMS = 1 steps or more end in it. -/
def Obligations.FiveOrMoreOnesReachReset : Prop :=
  advance .reset true = .reset ∧
    ∀ (s : TapState) (k : Nat), 5 ≤ k → advanceAll s (constBits true k) = .reset

/-- R149: under TMS = 1 only Reset holds, under TMS = 0 only Idle and the Shift and Pause states; and for every state but
Idle the TMS string named there ends in Idle, none shorter does, and it has at most three bits. -/
def Obligations.IdleIsAtMostThreeStepsAway : Prop :=
  (∀ s : TapState, advance s true = s ↔ s = .reset) ∧
  (∀ s : TapState, advance s false = s ↔ s ∈ ([.idle, .shiftDR, .pauseDR, .shiftIR, .pauseIR] : List TapState)) ∧
  ∃ shortest : TapState → Bits,
    (∀ s ∈ ([.reset, .updateDR, .updateIR] : List TapState), shortest s = [false]) ∧
    (∀ s ∈ ([.exit1DR, .exit2DR, .exit1IR, .exit2IR, .selectIR] : List TapState), shortest s = [true, false]) ∧
    (∀ s ∈ ([.selectDR, .captureDR, .shiftDR, .pauseDR, .captureIR, .shiftIR, .pauseIR] : List TapState),
      shortest s = [true, true, false]) ∧
    ∀ s : TapState, (shortest s).length ≤ 3 ∧ advanceAll s (shortest s) = .idle ∧
      ∀ v : Bits, advanceAll s v = .idle → (shortest s).length ≤ v.length

/-- The sixteen state rows: each runs in every state, answers its successor under the TMS bit, and leaves every field
of the block as it was (R130, R131 to R146).  That a row is run by handing its value to the model's own field `advanced`
is the model's choice (log 3). -/
def Obligations.StateRowsAnswerTheirSuccessor : Prop :=
  ∀ (tms : Bool) (s : State),
    exec (.stateReset tms) s = .next { s with advanced := some (if tms then .reset else .idle) } ∧
    exec (.stateIdle tms) s = .next { s with advanced := some (if tms then .selectDR else .idle) } ∧
    exec (.stateSelectDR tms) s = .next { s with advanced := some (if tms then .selectIR else .captureDR) } ∧
    exec (.stateCaptureDR tms) s = .next { s with advanced := some (if tms then .exit1DR else .shiftDR) } ∧
    exec (.stateShiftDR tms) s = .next { s with advanced := some (if tms then .exit1DR else .shiftDR) } ∧
    exec (.stateExit1DR tms) s = .next { s with advanced := some (if tms then .updateDR else .pauseDR) } ∧
    exec (.statePauseDR tms) s = .next { s with advanced := some (if tms then .exit2DR else .pauseDR) } ∧
    exec (.stateExit2DR tms) s = .next { s with advanced := some (if tms then .updateDR else .shiftDR) } ∧
    exec (.stateUpdateDR tms) s = .next { s with advanced := some (if tms then .selectDR else .idle) } ∧
    exec (.stateSelectIR tms) s = .next { s with advanced := some (if tms then .reset else .captureIR) } ∧
    exec (.stateCaptureIR tms) s = .next { s with advanced := some (if tms then .exit1IR else .shiftIR) } ∧
    exec (.stateShiftIR tms) s = .next { s with advanced := some (if tms then .exit1IR else .shiftIR) } ∧
    exec (.stateExit1IR tms) s = .next { s with advanced := some (if tms then .updateIR else .pauseIR) } ∧
    exec (.statePauseIR tms) s = .next { s with advanced := some (if tms then .exit2IR else .pauseIR) } ∧
    exec (.stateExit2IR tms) s = .next { s with advanced := some (if tms then .updateIR else .shiftIR) } ∧
    exec (.stateUpdateIR tms) s = .next { s with advanced := some (if tms then .selectDR else .idle) }

/-- R150: a step is one pulse; on a bit `tap` advances, on a timeout `tap_known` is cleared, `tap` stays and
`BusTimeout` is raised.  The pins after a pulse are those of R62; after a timeout TMS and TDI are old or new and TCK is
free (93_implementation_defined.md U6, the model's choice of log 5). -/
def Obligations.StepTracksTheTap : Prop :=
  ∀ (s : State) (tms tdi : Bool),
    (∀ (b : Bool) (e : Env), s.env.answer s.pulseNo tms tdi = (.bit b, e) →
      stepTap tms tdi s = .done b
        { s with
          tap := advance s.tap tms
          pins := { s.pins with tck := false, tms := tms, tdi := tdi }
          trace := s.trace ++ [⟨tms, tdi, .bit b⟩]
          env := e
          pulseNo := s.pulseNo + 1 }) ∧
    ∀ e : Env, s.env.answer s.pulseNo tms tdi = (.timeout, e) →
      ∃ u : State, stepTap tms tdi s = .raised .busTimeout u ∧
        u = { s with tapKnown := false, pins := u.pins, trace := s.trace ++ [⟨tms, tdi, .timeout⟩],
                     env := e, pulseNo := s.pulseNo + 1 } ∧
        (u.pins.tms = s.pins.tms ∨ u.pins.tms = tms) ∧ (u.pins.tdi = s.pins.tdi ∨ u.pins.tdi = tdi) ∧
        u.pins.trst = s.pins.trst

/-! ## Reset and the invariant -/

/-- R48, R260: every piece of state at power-on, for any parameters; reset is power-on with well-formed ones. -/
def Obligations.PowerOnValues : Prop :=
  (∀ (c : Config) (e : Env),
    (State.powerOn c e).tap = .reset ∧ (State.powerOn c e).tapKnown = true ∧ (State.powerOn c e).busy = false ∧
    (State.powerOn c e).chain.map (List.map Part.desc) = c.chainCfg ∧
    (∀ ps, (State.powerOn c e).chain = some ps →
      ∀ p ∈ ps, p.identity = .configured ∧ p.current = p.desc.defaultInstruction) ∧
    (State.powerOn c e).chainStatus = (if c.chainCfg = none then .absent else .unverified) ∧
    (∀ i, bufferBit (State.powerOn c e).outbuf i = false) ∧ (∀ i, bufferBit (State.powerOn c e).inbuf i = false) ∧
    (State.powerOn c e).inLen = 0#16 ∧ (State.powerOn c e).lastStatus = 0#4 ∧
    (State.powerOn c e).pins = { tck := false, tms := true, tdi := false, trst := false } ∧
    (State.powerOn c e).trace = []) ∧
  ∃ c, Config.wf c = true ∧ State.reset = State.powerOn c (.script [])

/-- The invariant holds at power-on from well-formed parameters, so at reset. -/
def Obligations.PowerOnMeetsTheInvariant : Prop :=
  (∀ (c : Config) (e : Env), Config.wf c = true → (State.powerOn c e).Inv) ∧ State.reset.Inv

/-- Every step keeps the invariant: R33 (a believed TAP rests in Reset or Idle), R34, R36 and R181 (the chain table
stays well formed and its records keys), R38, R44, R65, R106 and the buffers' canonical form. -/
def Obligations.EveryStepKeepsTheInvariant : Prop :=
  ∀ s u : State, s.Inv → step s = .next u → u.Inv

/-- R260: the reset input has the effect of power-on; a configuration that breaks R36 or R115 is refused.  That the port,
the environment and what has been delivered go on as they are is the model's choice (log 13). -/
def Obligations.ResetInputIsPowerOn : Prop :=
  ∀ (s : State) (rest : List HostItem), s.port = .resetInput :: rest →
    (Config.wf s.cfg = true →
      step s = .next { State.powerOn s.cfg s.env with
        port := rest, responses := s.responses, trace := s.trace, pulseNo := s.pulseNo,
        advanced := s.advanced }) ∧
    (Config.wf s.cfg = false → step s = .refused .illFormedConfig)

/-! ## RESET_TAP and ENTER_IDLE -/

/-- R153: RESET_TAP from any state, its five pulses answered: the whole next state. -/
def Obligations.ResetTapCompletes : Prop :=
  ∀ (s : State) (bits : Bits) (e : Env), s.exchange resetPlan = .all bits e →
    exec .resetTap s = .next
      { s.answered .ok 0 with
        tap := .reset
        tapKnown := true
        chain := recordsAtDefault s.chain
        pins := { s.pins with tck := false, tms := true, tdi := false }
        trace := s.trace ++ deliveredEvents resetPlan bits
        env := e
        pulseNo := s.pulseNo + 5 }

/-- R154: ENTER_IDLE from Reset or Idle, known, its pulse answered: the whole next state. -/
def Obligations.EnterIdleCompletes : Prop :=
  ∀ (s : State) (b : Bool) (e : Env), s.tapKnown = true → (s.tap = .reset ∨ s.tap = .idle) →
    s.exchange idlePlan = .all [b] e →
      exec .enterIdle s = .next
        { s.answered .ok 0 with
          tap := .idle
          pins := { s.pins with tck := false, tms := false, tdi := false }
          trace := s.trace ++ [⟨false, false, .bit b⟩]
          env := e
          pulseNo := s.pulseNo + 1 }

/-- R242: the recovery sequence, all its pulses answered, leads from any state to Idle, known, every record at its
default. -/
def Obligations.RecoverReachesIdle : Prop :=
  ∀ (s : State) (bits : Bits) (e : Env), s.exchange (resetPlan ++ idlePlan) = .all bits e →
    ∃ u, runWhileOk recoverProgram s = .next u ∧ u.tap = .idle ∧ u.tapKnown = true ∧ u.lastStatus = 0#4 ∧
      u.chain = recordsAtDefault s.chain ∧ u.chainStatus = s.chainStatus ∧ u.inbuf = s.inbuf ∧ u.inLen = s.inLen ∧
      u.outbuf = s.outbuf ∧ u.trace = s.trace ++ deliveredEvents (resetPlan ++ idlePlan) bits

/-! ## SET_INSTRUCTION -/

/-- R172: SET_INSTRUCTION in Idle, resolvable, its pulses answered: the whole next state.  Of the chain table only the
target's record changes. -/
def Obligations.SetInstructionCompletes : Prop :=
  ∀ (s : State) (ps : List Part) (t : Nat) (p : Part) (name : NameId) (bits : Bits) (e : Env),
    s.chain = some ps → chainWf ps = true → ps[t]? = some p → s.tapKnown = true → s.tap = .idle →
    irResolvable ps t name = true → s.exchange (irScanPlan (buildIR ps t name)) = .all bits e →
      exec (.setInstruction t name) s = .next
        { s.answered .ok 0 with
          chain := some (ps.set t { p with current := some name })
          pins := { s.pins with tck := false, tms := false, tdi := false }
          trace := s.trace ++ deliveredEvents (irScanPlan (buildIR ps t name)) bits
          env := e
          pulseNo := s.pulseNo + ((ps.map irWidth).sum + 6) }

/-- R231, R233, R238: SET_INSTRUCTION on a part of the chain, first the Idle test, then resolvability; a failing test
changes nothing but `last_status`. -/
def Obligations.SetInstructionTestsInOrder : Prop :=
  ∀ (s : State) (ps : List Part) (t : Nat) (name : NameId), s.chain = some ps → t < ps.length →
    (¬(s.tapKnown = true ∧ s.tap = .idle) →
      exec (.setInstruction t name) s = .next (s.answered .invalidChainState 0)) ∧
    (s.tapKnown = true → s.tap = .idle →
      ¬((∃ p, ps[t]? = some p ∧ (resolve p name).isSome = true) ∧ (∀ p ∈ ps, p.desc.irLength ≠ none) ∧
        ∀ (q : Nat) (p : Part), ps[q]? = some p → q ≠ t → p.desc.bypassInstruction ≠ none) →
      exec (.setInstruction t name) s = .next (s.answered .unknownInstruction 0))

/-! ## EXCHANGE_DATA -/

/-- R175, R177: EXCHANGE_DATA of n bits, n at least 1, in Idle, every width fitting, its pulses answered: the whole next
state.  Bit j of the result is the sample of shift pulse Lo(t) + j, which is pulse 3 + Lo(t) + j of the command. -/
def Obligations.ExchangeDataCompletes : Prop :=
  ∀ (s : State) (ps : List Part) (t : Nat) (p : Part) (n : Nat) (bits : Bits) (e : Env),
    s.chain = some ps → ps[t]? = some p → s.tapKnown = true → s.tap = .idle → 1 ≤ n →
    (∃ c, p.current = some c ∧ (drWidth p c = none ∨ drWidth p c = some n)) →
    (∀ (q : Nat) (r : Part), ps[q]? = some r → q ≠ t → recordWidth r ≠ none) →
    s.exchange (drScanPlan (buildDR ps t (outBits s n))) = .all bits e →
      exec (.exchangeData t n) s = .next
        { s.answered .ok n with
          inbuf := writeVector s.inbuf (window bits (3 + windowLo (drWidths ps t n) t) n)
          inLen := BitVec.ofNat 16 n
          pins := { s.pins with tck := false, tms := false, tdi := false }
          trace := s.trace ++ deliveredEvents (drScanPlan (buildDR ps t (outBits s n))) bits
          env := e
          pulseNo := s.pulseNo + ((drWidths ps t n).sum + 5) }

/-- R176: the empty exchange.  It issues no pulse and leaves `tap` in Idle; it is tested after the Idle test and the
width tests. -/
def Obligations.EmptyExchangeDoesNothing : Prop :=
  ∀ (s : State) (ps : List Part) (t : Nat) (p : Part), s.chain = some ps → ps[t]? = some p →
    (¬(s.tapKnown = true ∧ s.tap = .idle) →
      exec (.exchangeData t 0) s = .next (s.answered .invalidChainState 0)) ∧
    (s.tapKnown = true → s.tap = .idle → ∀ c k, p.current = some c → drWidth p c = some k → k ≠ 0 →
      exec (.exchangeData t 0) s = .next (s.answered .dataRegisterLengthMismatch 0)) ∧
    (s.tapKnown = true → s.tap = .idle → (∃ c, p.current = some c ∧ (drWidth p c = none ∨ drWidth p c = some 0)) →
      (∀ (q : Nat) (r : Part), ps[q]? = some r → q ≠ t → recordWidth r ≠ none) →
      exec (.exchangeData t 0) s = .next { s.answered .ok 0 with inLen := 0#16 })

/-- R232, R233, R238: EXCHANGE_DATA on a part of the chain, first the Idle test, then the widths; a failing test changes
nothing but `last_status`. -/
def Obligations.ExchangeDataTestsInOrder : Prop :=
  ∀ (s : State) (ps : List Part) (t : Nat) (p : Part) (n : Nat), s.chain = some ps → ps[t]? = some p →
    (¬(s.tapKnown = true ∧ s.tap = .idle) →
      exec (.exchangeData t n) s = .next (s.answered .invalidChainState 0)) ∧
    (s.tapKnown = true → s.tap = .idle →
      (p.current = none ∨ (∃ c k, p.current = some c ∧ drWidth p c = some k ∧ k ≠ n) ∨
        ∃ (q : Nat) (r : Part), ps[q]? = some r ∧ q ≠ t ∧ recordWidth r = none) →
      exec (.exchangeData t n) s = .next (s.answered .dataRegisterLengthMismatch 0))

/-- R41, R68, 93_implementation_defined.md U17: after a vector is stored in INBUF its bits read back in order, the rest
of the last word written is zero and every bit beyond keeps what it held (U17's "older results remain"; the model's
reading, log 12). -/
def Obligations.StoredVectorReadsBack : Prop :=
  ∀ (m : Memory) (v : Bits), Memory.wf m = true → v.length ≤ 65535 →
    Memory.wf (writeVector m v) = true ∧ bufferBits (writeVector m v) v.length = v ∧
    ∀ i, (v.length ≤ i → i < 32 * ((v.length + 31) / 32) → bufferBit (writeVector m v) i = false) ∧
      (32 * ((v.length + 31) / 32) ≤ i → bufferBit (writeVector m v) i = bufferBit m i)

/-- R40, R68: a host write of OUTBUF word k changes bits 32k to 32k + 31 and no other, bit i of the vector being bit
i mod 32 of the word.  The model's own choices (log 10): bit 65535, beyond `MAX_VEC`, is not stored, and a word beyond
the buffer does not exist; a write while `busy = 1` is refused (U14). -/
def Obligations.HostWritesOutbufWord : Prop :=
  ∀ (s : State) (k : Nat) (v : Word) (rest : List HostItem), s.port = .writeOutbuf k v :: rest →
    Memory.wf s.outbuf = true →
    (s.busy = true → step s = .refused .bufferAccessWhileBusy) ∧
    (s.busy = false → 2048 ≤ k → step s = .fault .noSuchBufferWord) ∧
    (s.busy = false → k < 2048 → ∃ m, step s = .next { s with port := rest, outbuf := m } ∧ Memory.wf m = true ∧
      (∀ i, i ≠ 65535 → bufferBit m i = if i / 32 = k then v.getLsbD (i % 32) else bufferBit s.outbuf i) ∧
      (k = 2047 → bufferBit m 65535 = false) ∧ (k ≠ 2047 → bufferBit m 65535 = bufferBit s.outbuf 65535))

/-- R113: the line `EXCHANGE_DATA p<part>, v` first writes the words of OUTBUF that v fills, one host write a step; then
OUTBUF[0..n) is v, later words are as before, nothing else has changed and the command word stands at the port. -/
def Obligations.AssemblerLineLoadsTheOperand : Prop :=
  ∀ (s : State) (part : Nat) (v : Bits) (rest : List HostItem),
    s.port = (AsmLine.exchangeData part v).items ++ rest → s.busy = false → Memory.wf s.outbuf = true →
    v.length ≤ 65535 →
      ∃ m, runSteps ((v.length + 31) / 32) s =
          .next { s with port := .offer (encode (.exchangeData part v.length)) :: rest, outbuf := m } ∧
        Memory.wf m = true ∧ bufferBits m v.length = v ∧
        ∀ i, 32 * ((v.length + 31) / 32) ≤ i → bufferBit m i = bufferBit s.outbuf i

/-! ## DISCOVER_CHAIN -/

/-- R200, R210, R211: DISCOVER_CHAIN from any state, all its pulses answered and the captured stream partitioned: the
whole next state. -/
def Obligations.DiscoverChainInstallsTheChain : Prop :=
  ∀ (s : State) (bits : Bits) (e : Env) (frags : List Fragment), Config.wf s.cfg = true →
    s.exchange (discoverPlan s.cfg.irFlushLen s.cfg.drCaptureLen) = .all bits e →
    partition s.cfg.knownIds (capturedStream s.cfg bits) = .ok frags →
      exec .discoverChain s = .next
        { s.answered .ok frags.length with
          tap := .idle
          tapKnown := true
          chain := some (fragmentChain s.cfg.knownIds frags)
          chainStatus := fragmentStatus frags
          pins := { s.pins with tck := false, tms := false, tdi := false }
          trace := s.trace ++ deliveredEvents (discoverPlan s.cfg.irFlushLen s.cfg.drCaptureLen) bits
          env := e
          pulseNo := s.pulseNo + (s.cfg.irFlushLen + s.cfg.drCaptureLen + 20) }

/-- R235, R236, R210: DISCOVER_CHAIN, all its pulses answered, whose stream gives no chain: the whole next state.  Without
a 1 in the stream the kind is `NoDevicesDetected`, with one it is `AmbiguousChainTopology`; the old table and status
stay, with the records at their defaults. -/
def Obligations.DiscoverChainWithoutResult : Prop :=
  ∀ (s : State) (bits : Bits) (e : Env) (st : Status), Config.wf s.cfg = true →
    s.exchange (discoverPlan s.cfg.irFlushLen s.cfg.drCaptureLen) = .all bits e →
    (hasOne (capturedStream s.cfg bits) = false ∧ st = .noDevicesDetected ∨
      hasOne (capturedStream s.cfg bits) = true ∧ st = .ambiguousChainTopology ∧
        ∀ frags, partition s.cfg.knownIds (capturedStream s.cfg bits) ≠ .ok frags) →
      exec .discoverChain s = .next
        { s.answered st 0 with
          tap := .idle
          tapKnown := true
          chain := recordsAtDefault s.chain
          pins := { s.pins with tck := false, tms := false, tdi := false }
          trace := s.trace ++ deliveredEvents (discoverPlan s.cfg.irFlushLen s.cfg.drCaptureLen) bits
          env := e
          pulseNo := s.pulseNo + (s.cfg.irFlushLen + s.cfg.drCaptureLen + 20) }

/-- R204: what `Partition` answers are exactly the fragments that tile the stream from its first bit on, each where the
one before it ends and each what the stream holds there, up to a rest without a 1, at least one and at most 4096 of
them. -/
def Obligations.PartitionTilesTheStream : Prop :=
  ∀ (ids : List KnownId) (s : Bits) (frags : List Fragment), knownIdsWf ids = true →
    (partition ids s = .ok frags ↔
      1 ≤ frags.length ∧ frags.length ≤ 4096 ∧ tiles ids s frags ∧ hasOne (s.drop (tiledLen ids frags)) = false)

/-- R206: the part entry of each kind of fragment, field by field. -/
def Obligations.FragmentsBecomePartEntries : Prop :=
  (∀ (ids : List KnownId) (k pos v : Nat) (e : KnownId), ids[k]? = some e →
    fragmentPart ids (.known k pos v) =
      { desc := { irLength := e.descriptor.irLength, idcodeLength := e.len, idcode := some v,
                  instructions := e.descriptor.instructions, bypassInstruction := e.descriptor.bypassInstruction,
                  defaultInstruction := e.descriptor.defaultInstruction },
        identity := .known k, current := e.descriptor.defaultInstruction }) ∧
  (∀ (ids : List KnownId) (pos v : Nat),
    fragmentPart ids (.unknown pos v) =
      { desc := { irLength := none, idcodeLength := 32, idcode := some v, instructions := [], bypassInstruction := none,
                  defaultInstruction := none },
        identity := .unknown, current := none }) ∧
  ∀ (ids : List KnownId) (pos : Nat),
    fragmentPart ids (.bypass pos) =
      { desc := { irLength := none, idcodeLength := 0, idcode := none, instructions := [], bypassInstruction := none,
                  defaultInstruction := none },
        identity := .bypassOnly, current := none }

/-- R208, R210: a DISCOVER_CHAIN that answers `OK` labels the new chain `Verified` if every part of it is of a known
family and `PartiallyIdentified` otherwise; one that answers anything else leaves membership, order, static fields and
label of the old chain. -/
def Obligations.DiscoveryLabelsTheChain : Prop :=
  ∀ s u : State, exec .discoverChain s = .next u →
    (u.lastStatus = 0#4 → ∃ ps, u.chain = some ps ∧
      ((∀ p ∈ ps, Part.isKnown p = true) → u.chainStatus = .verified) ∧
      ((∃ p ∈ ps, Part.isKnown p = false) → u.chainStatus = .partiallyIdentified)) ∧
    (u.lastStatus ≠ 0#4 → u.chainStatus = s.chainStatus ∧
      u.chain.map (List.map (fun p => (p.desc, p.identity))) =
        s.chain.map (List.map (fun p => (p.desc, p.identity))))

/-- R213, discovery determinism: for any two known families of 32-bit ID codes, the stream of a bypass bit, an ID code
of the second and one of the first, and zeros, gives three parts in chain order first, second, bypass-only, each with
its length and the code captured. -/
def Obligations.ThreePartStreamIsPartitioned : Prop :=
  ∀ (a b : KnownId) (idA idB k : Nat), knownIdsWf [a, b] = true → a.len = 32 → b.len = 32 →
    idA < 2 ^ 32 → idB < 2 ^ 32 → idA &&& a.mask = a.value &&& a.mask → idB &&& b.mask = b.value &&& b.mask →
      ∃ frags, partition [a, b] (false :: bitsOfNat 32 idB ++ bitsOfNat 32 idA ++ constBits false k) = .ok frags ∧
        frags = [.bypass 0, .known 1 1 idB, .known 0 33 idA] ∧ fragmentStatus frags = .partiallyIdentified ∧
        (fragmentChain [a, b] frags).map (fun p => (p.identity, p.desc.idcodeLength, p.desc.idcode)) =
          [(.known 0, 32, some idA), (.known 1, 32, some idB), (.bypassOnly, 0, none)]

/-- R204, R213, ambiguity detection: where two entries of different lengths match at a marker that the scan reaches, after
any number of bypass zeros or after any fragments that tile the stream up to it, `Partition` fails, whatever follows.
(The second clause asks of the table what R115 asks: every length is at least 1.) -/
def Obligations.TwoMatchingLengthsAreAmbiguous : Prop :=
  ∀ (ids : List KnownId) (e f : KnownId) (rest : Bits), e ∈ ids → f ∈ ids → e.len ≠ f.len → rest.head? = some true →
    KnownId.matches e rest = true → KnownId.matches f rest = true →
      (∀ n : Nat, partition ids (constBits false n ++ rest) = .error .ambiguousChainTopology) ∧
      ((∀ g ∈ ids, 1 ≤ g.len) → ∀ (before : Bits) (frags : List Fragment), tiles ids (before ++ rest) frags →
        tiledLen ids frags = before.length → partition ids (before ++ rest) = .error .ambiguousChainTopology)

/-- R207: the fragment found first is the part of the highest index. -/
def Obligations.FirstFragmentIsTheHighestPart : Prop :=
  ∀ (ids : List KnownId) (frags : List Fragment) (i : Nat) (f : Fragment), frags[i]? = some f →
    (fragmentChain ids frags).length = frags.length ∧
      (fragmentChain ids frags)[frags.length - 1 - i]? = some (fragmentPart ids f)

/-- R206, R264: on a well-formed chain with a part whose `ir_length` is unknown, every SET_INSTRUCTION in Idle answers
`UnknownInstruction` and every EXCHANGE_DATA `DataRegisterLengthMismatch`, without a pulse. -/
def Obligations.PartialChainTakesNoDataCommand : Prop :=
  ∀ (s : State) (ps : List Part) (t a : Nat), s.chain = some ps → chainWf ps = true → t < ps.length →
    (∃ p ∈ ps, p.desc.irLength = none) → s.tapKnown = true → s.tap = .idle →
      exec (.setInstruction t a) s = .next (s.answered .unknownInstruction 0) ∧
      exec (.exchangeData t a) s = .next (s.answered .dataRegisterLengthMismatch 0)

/-! ## The address decoder -/

/-- R72, R71, R74: the IR vector has `total_ir_length` bits; in the window of the target stands its opcode, in that of
every other part its bypass opcode, bit j of the register at index `Lo(p) + j`. -/
def Obligations.IrVectorPlacesEveryOpcode : Prop :=
  ∀ (ps : List Part) (t : Nat) (name : NameId), chainWf ps = true → irResolvable ps t name = true →
    totalIrLength ps = some (buildIR ps t name).length ∧ 1 ≤ (buildIR ps t name).length ∧
    ∀ (q : Nat) (p : Part), ps[q]? = some p →
      ∃ l op, p.desc.irLength = some l ∧ op < 2 ^ l ∧
        (if q = t then resolve p name = some op
          else ∃ bn, p.desc.bypassInstruction = some bn ∧ resolve p bn = some op) ∧
        window (buildIR ps t name) (((ps.drop (q + 1)).map irWidth).sum) l = bitsOfNat l op

/-- R73, R71, R178: the DR vector has the sum of the active widths; in the window of the target stands the operand,
everywhere else zeros. -/
def Obligations.DrVectorPlacesTheOperand : Prop :=
  ∀ (ps : List Part) (t : Nat) (p : Part) (out : Bits), ps[t]? = some p →
    (buildDR ps t out).length = (drWidths ps t out.length).sum ∧
    window (buildDR ps t out) (windowLo (drWidths ps t out.length) t) out.length = out ∧
    ∀ (q : Nat) (r : Part), ps[q]? = some r → q ≠ t →
      window (buildDR ps t out) (windowLo (drWidths ps t out.length) q) ((recordWidth r).getD 0) =
        constBits false ((recordWidth r).getD 0)

/-! ## Timeouts -/

/-- R234, R239: where a pulse times out, RESET_TAP, ENTER_IDLE, SET_INSTRUCTION and EXCHANGE_DATA answer `BusTimeout` and
leave the state of the completed pulses, unknown: no record, no buffer, nothing else is written. -/
def Obligations.TimeoutEndsTheCommand : Prop :=
  ∀ (s : State) (bits : Bits) (e : Env),
    (s.exchange resetPlan = .cut bits e →
      exec .resetTap s = .next ((s.cutAt resetPlan bits e).answered .busTimeout 0)) ∧
    (s.tapKnown = true → s.exchange idlePlan = .cut bits e →
      exec .enterIdle s = .next ((s.cutAt idlePlan bits e).answered .busTimeout 0)) ∧
    (∀ (ps : List Part) (t : Nat) (name : NameId), s.chain = some ps → chainWf ps = true → t < ps.length →
      s.tapKnown = true → s.tap = .idle → irResolvable ps t name = true →
      s.exchange (irScanPlan (buildIR ps t name)) = .cut bits e →
        exec (.setInstruction t name) s =
          .next ((s.cutAt (irScanPlan (buildIR ps t name)) bits e).answered .busTimeout 0)) ∧
    ∀ (ps : List Part) (t : Nat) (p : Part) (n : Nat), s.chain = some ps → ps[t]? = some p →
      s.tapKnown = true → s.tap = .idle → 1 ≤ n → targetWidthFits p n = true → othersWidthKnown ps t = true →
      s.exchange (drScanPlan (buildDR ps t (outBits s n))) = .cut bits e →
        exec (.exchangeData t n) s =
          .next ((s.cutAt (drScanPlan (buildDR ps t (outBits s n))) bits e).answered .busTimeout 0)

/-- R234, R210, R261: DISCOVER_CHAIN with a pulse that times out answers `BusTimeout`; the chain and its status stay,
the records at their defaults if the five pulses of phase 1 completed, as they were if not. -/
def Obligations.TimeoutEndsDiscovery : Prop :=
  ∀ (s : State) (bits : Bits) (e : Env), Config.wf s.cfg = true →
    s.exchange (discoverPlan s.cfg.irFlushLen s.cfg.drCaptureLen) = .cut bits e →
      exec .discoverChain s = .next
        { (s.cutAt (discoverPlan s.cfg.irFlushLen s.cfg.drCaptureLen) bits e).answered .busTimeout 0 with
          chain := if bits.length < 5 then s.chain else recordsAtDefault s.chain }

/-- R240: while the TAP is not known, ENTER_IDLE and every SET_INSTRUCTION and EXCHANGE_DATA of a part of the chain
answer `InvalidChainState` without a pulse and without another change. -/
def Obligations.UnknownTapBlocksUntilReset : Prop :=
  ∀ (s : State) (ps : List Part) (t a : Nat), s.tapKnown = false →
    exec .enterIdle s = .next (s.answered .invalidChainState 0) ∧
    (s.chain = some ps → t < ps.length →
      exec (.setInstruction t a) s = .next (s.answered .invalidChainState 0) ∧
      exec (.exchangeData t a) s = .next (s.answered .invalidChainState 0))

/-! ## Whole-machine rules -/

/-- R32, R240: no instruction but RESET_TAP and DISCOVER_CHAIN makes an unknown TAP known, and these only in Reset or
Idle, for parameters in the ranges of R7. -/
def Obligations.OnlyResetMakesTheTapKnown : Prop :=
  ∀ (i : Instr) (s u : State), Config.wf s.cfg = true → exec i s = .next u → s.tapKnown = false → u.tapKnown = true →
    (i = .resetTap ∧ u.tap = .reset) ∨ (i = .discoverChain ∧ u.tap = .idle)

/-- R41, R40: INBUF and `in_len` are written by a successful EXCHANGE_DATA and by nothing else, OUTBUF by no
instruction. -/
def Obligations.OnlyAnExchangeWritesInbuf : Prop :=
  ∀ (i : Instr) (s u : State), exec i s = .next u →
    u.outbuf = s.outbuf ∧
    ((u.inbuf = s.inbuf ∧ u.inLen = s.inLen) ∨
      ∃ t n, i = .exchangeData t n ∧ u.lastStatus = 0#4 ∧ u.inLen = BitVec.ofNat 16 n)

/-- R34, R35: no instruction but DISCOVER_CHAIN changes membership, order or a static field of the chain, nor its
status; and of the records RESET_TAP writes the defaults and SET_INSTRUCTION the target's only. -/
def Obligations.StaticFieldsOfTheChainStay : Prop :=
  ∀ (i : Instr) (s u : State), exec i s = .next u → i ≠ .discoverChain →
    u.chainStatus = s.chainStatus ∧
    u.chain.map (List.map (fun p => (p.desc, p.identity))) =
      s.chain.map (List.map (fun p => (p.desc, p.identity))) ∧
    (i ≠ .resetTap → ∀ ps qs, s.chain = some ps → u.chain = some qs →
      ∀ (q : Nat) (p r : Part), ps[q]? = some p → qs[q]? = some r → p.current ≠ r.current →
        ∃ name, i = .setInstruction q name ∧ r.current = some name)

/-- R79, R156: an instruction only appends to the pin trace, as many pulses as it starts, and only a command appends any. -/
def Obligations.PinTraceOnlyGrows : Prop :=
  ∀ (i : Instr) (s u : State), exec i s = .next u →
    ∃ new, u.trace = s.trace ++ new ∧ u.pulseNo = s.pulseNo + new.length ∧ (isCommand i = false → new = [])

/-- R105, R237: a step delivers at most one response, after those before it, and its status field is then `last_status`;
so a run that has once refused a word is never again a run without a refused word (log 7 says how the model reads
R237's refusal outcome).  That the responses delivered, and so a refused word, survive the reset input is the model's
choice (log 13). -/
def Obligations.ResponsesOnlyGrow : Prop :=
  ∀ s u : State, step s = .next u →
    ∃ new, u.responses = s.responses ++ new ∧ new.length ≤ 1 ∧
      (∀ rw ∈ new, rw.extractLsb' 28 4 = u.lastStatus ∧ rw.extractLsb' 16 12 = 0#12) ∧ (u.clean → s.clean)

/-- R30, R65: no step changes the parameters, and no instruction asserts TRST. -/
def Obligations.ParametersAndTrstStay : Prop :=
  (∀ s u : State, step s = .next u → u.cfg = s.cfg) ∧
  ∀ (i : Instr) (s u : State), exec i s = .next u → u.pins.trst = s.pins.trst

/-! ## The host's view -/

/-- R46: the five status registers, field by field, their values at power-on, and that a write to any of them has no
effect.  That there is nothing to read at a number beyond the five, and that a write to such a number has no effect
either, is the model's choice (log 17). -/
def Obligations.StatusRegistersShowTheState : Prop :=
  (∀ s : State, ∃ r0 r1 r2 r3 r4 : Word,
    (List.range 6).map (readStatusRegister s) = [some r0, some r1, some r2, some r3, some r4, none] ∧
    r0.extractLsb' 0 4 = s.tap.code ∧ r0.getLsbD 4 = s.tapKnown ∧ r0.extractLsb' 5 27 = 0#27 ∧
    r1.getLsbD 0 = s.busy ∧ r1.extractLsb' 1 3 = 0#3 ∧ r1.extractLsb' 4 4 = s.lastStatus ∧
    r1.extractLsb' 8 24 = 0#24 ∧
    r2.extractLsb' 0 2 = s.chainStatus.code ∧ r2.extractLsb' 2 2 = 0#2 ∧ r2.extractLsb' 16 16 = 0#16 ∧
    r2.extractLsb' 4 12 = BitVec.ofNat 12 ((s.chain.map List.length).getD 1 - 1) ∧
    r3.getLsbD 31 = (s.chain.bind totalIrLength).isSome ∧ r3.extractLsb' 28 3 = 0#3 ∧
    r3.extractLsb' 0 28 = BitVec.ofNat 28 ((s.chain.bind totalIrLength).getD 0) ∧
    r4.extractLsb' 0 16 = s.inLen ∧ r4.extractLsb' 16 16 = 0#16) ∧
  (∀ (c : Config) (e : Env),
    readStatusRegister (State.powerOn c e) 0 = some 0x00000010#32 ∧
    readStatusRegister (State.powerOn c e) 1 = some 0#32 ∧
    readStatusRegister (State.powerOn c e) 4 = some 0#32) ∧
  ∀ (s : State) (reg : Nat) (v : Word) (rest : List HostItem), s.port = .writeStatus reg v :: rest →
    step s = .next { s with port := rest }

/-- R46, R41, R68: through the table port the host reads every part of the chain, and while `busy = 0` it reads INBUF, bit
j of word k being bit 32k + j of the vector.  That the table port gives nothing for an index beyond the chain, or without a
chain, is the model's choice (log 17). -/
def Obligations.HostReadsTableAndInbuf : Prop :=
  (∀ (s : State) (ps : List Part) (p : Nat), s.chain = some ps → readTable s p = ps[p]?) ∧
  (∀ (s : State) (p : Nat), s.chain = none → readTable s p = none) ∧
  ∀ (s : State) (k : Nat), s.busy = false → k < 2048 →
    ∃ w, readInbufWord s k = some w ∧ ∀ j < 32, w.getLsbD j = bufferBit s.inbuf (32 * k + j)

/-- The codes of R106, R107 and R108. -/
def Obligations.CodesAreThoseOfTheTables : Prop :=
  ([.ok, .unknownInstruction, .dataRegisterLengthMismatch, .invalidChainState, .busTimeout, .noDevicesDetected,
    .ambiguousChainTopology, .refused] : List Status).map Status.code =
      [0#4, 1#4, 2#4, 3#4, 4#4, 5#4, 6#4, 15#4] ∧
  ([.reset, .idle, .selectDR, .captureDR, .shiftDR, .exit1DR, .pauseDR, .exit2DR, .updateDR, .selectIR, .captureIR, .shiftIR, .exit1IR, .pauseIR, .exit2IR, .updateIR] : List TapState).map TapState.code =
      (List.range 16).map (BitVec.ofNat 4) ∧
  ([.absent, .unverified, .verified, .partiallyIdentified] : List ChainStatus).map ChainStatus.code =
      [0#2, 1#2, 2#2, 3#2]

/-! ## Devices: the reference environment -/

/-- R45: over the reference environment the devices' TAP state is `tap` whenever `tap_known` is 1, and every instruction
keeps it so. -/
def Obligations.TrackedTapIsTheDevicesTap : Prop :=
  ∀ (i : Instr) (s u : State), (∀ τ, s.env.physTap = some τ → s.tapKnown = true → τ = s.tap) → exec i s = .next u →
    ∀ τ, u.env.physTap = some τ → u.tapKnown = true → τ = u.tap

/-- R179, IR round trip: over the reference environment, described truly by the table, a SET_INSTRUCTION that answers
`OK` leaves the built vector in the devices' IR cells, the name latched in the target and the bypass instruction in
every other device.  The devices give no two names one opcode: R84 speaks of "the name whose opcode equals" the cells, and
which of two it would be is the model's choice (log 8), on which nothing here rests. -/
def Obligations.IrRoundTrip : Prop :=
  ∀ (s u : State) (ps : List Part) (t : Nat) (name : NameId) (c : SynthChain) (k : List Nat),
    s.chain = some ps → chainWf ps = true → t < ps.length → s.env = .synth c k → c.tau = s.tap → describes ps c →
    (∀ d ∈ c.parts, opcodesApart d.desc = true) → exec (.setInstruction t name) s = .next u → u.lastStatus = 0#4 →
      ∃ c', u.env = .synth c' k ∧ c'.tau = .idle ∧ pathOf (irFields c') = buildIR ps t name ∧
        (∀ (q : Nat) (p : Part) (d : SynthPart), ps[q]? = some p → c'.parts[q]? = some d →
          d.irCells = window (buildIR ps t name) (windowLo (irWidths ps) q) (irWidth p)) ∧
        u.env.physIr t = some name ∧
        ∀ (q : Nat) (p : Part), ps[q]? = some p → q ≠ t → u.env.physIr q = p.desc.bypassInstruction

/-- R180, DR round trip: over the reference environment, with coherent records (R270), a table whose widths of the other
parts are the devices' (the target's may be undeclared), a target register of n bits and a target instruction that is
neither the device's bypass nor its IDCODE instruction, an exchange returns what the register held and a second one,
whatever its operand, returns what the first one wrote. -/
def Obligations.DrRoundTrip : Prop :=
  ∀ (s u w : State) (ps : List Part) (t n : Nat) (p : Part) (d : SynthPart) (name : NameId) (c : SynthChain)
    (k : List Nat) (m : Memory),
    s.chain = some ps → ps[t]? = some p → s.env = .synth c k → c.tau = s.tap → c.parts.length = ps.length →
    Coherent s t → c.parts[t]? = some d → d.irLatch = some name →
    d.irLatch ≠ d.desc.bypassInstruction → d.irLatch ≠ d.idcodeInstruction → (synthStored d name).length = n →
    (∀ (q : Nat) (r : Part) (g : SynthPart), ps[q]? = some r → c.parts[q]? = some g → q ≠ t →
      g.irLatch.bind (drWidth r) = some (synthCaptureDR g).drCells.length) →
    n ≤ 65535 → Memory.wf s.inbuf = true →
    exec (.exchangeData t n) s = .next u → u.lastStatus = 0#4 →
    exec (.exchangeData t n) { u with outbuf := m } = .next w → w.lastStatus = 0#4 →
      resultBits u = synthStored d name ∧ resultBits w = outBits s n

/-- R271: SELECT_ONLY, run to its end with every status `OK`, leaves the record of the target at the name and that of
every other part at its bypass instruction; over the reference environment, described truly by the table, records and
devices then agree on every part, and so the records are coherent for every target (R270).  Of devices that give two
names one opcode it says nothing (log 8). -/
def Obligations.SelectOnlyMakesRecordsAndDevicesAgree : Prop :=
  ∀ (s u : State) (ps : List Part) (t : Nat) (name : NameId), s.chain = some ps → chainWf ps = true →
    t < ps.length → runWhileOk (selectOnlyProgram ps t name) s = .next u → u.lastStatus = 0#4 →
      u.chain = some (ps.zipIdx.map (fun e =>
        { e.1 with current := if e.2 = t then some name else e.1.desc.bypassInstruction })) ∧
      ∀ (c : SynthChain) (k : List Nat), s.env = .synth c k → c.tau = s.tap → describes ps c →
        (∀ d ∈ c.parts, opcodesApart d.desc = true) →
          (∀ (qs : List Part) (q : Nat) (p : Part), u.chain = some qs → qs[q]? = some p → u.env.physIr q = p.current) ∧
          ∀ t' : Nat, Coherent u t'

/-- R83: `SynthChain(descs)` starts with the common TAP state in Reset and one part per descriptor, `ir_cells` of
`ir_length` bits, `ir_latch` at the default instruction and every stored value all zeros of its width.  The first clause
is the model's reading of R83's "all known" (log 8, DEDUCED): an ID code is asked only of a descriptor with an ID register,
since the parts Z and C of 95_test_vectors.md part 0 have neither, and of a descriptor that leaves a field unknown no chain
is made.  (The first values of `ir_cells` and `dr_cells`, which R83 does not give, are not stated; the IDCODE instruction
beside each descriptor is the model's, log 8, DESIGN CHOICE.) -/
def Obligations.SynthChainStartsInReset : Prop :=
  ∀ descs : List (Descriptor × Option NameId),
    ((∀ d ∈ descs, d.1.irLength ≠ none ∧ d.1.bypassInstruction ≠ none ∧ d.1.defaultInstruction ≠ none ∧
        (d.1.idcode ≠ none ∨ d.1.idcodeLength = 0) ∧ ∀ b ∈ d.1.instructions, b.drWidth ≠ none) ↔
      synthChain descs ≠ none) ∧
    ∀ c : SynthChain, synthChain descs = some c →
      c.tau = .reset ∧ c.parts.length = descs.length ∧
      ∀ (q : Nat) (d : Descriptor × Option NameId), descs[q]? = some d →
        ∃ p : SynthPart, c.parts[q]? = some p ∧ p.desc = d.1 ∧ p.idcodeInstruction = d.2 ∧
          d.1.irLength = some p.irCells.length ∧ p.irLatch = d.1.defaultInstruction ∧
          ∀ (name : NameId) (b : Binding) (w : Nat), lookupName d.1 name = some b → b.drWidth = some w →
            synthStored p name = constBits false w
end

