-- ==== Sys2Proof/Laws/Bits.lean ====
section
/-! SUPPORT. Laws of bit vectors. -/

namespace Sys2Proof.Machine

@[simp] theorem bitsOfNat_length (w k : Nat) : (bitsOfNat w k).length = w := by
  induction w generalizing k with
  | zero => rfl
  | succ w ih => simp [bitsOfNat, ih]

@[simp] theorem constBits_length (b : Bool) (n : Nat) : (constBits b n).length = n := by simp [constBits]

/-- R17 (c): `toNat` of a w-bit vector is below 2^w. -/
theorem bitsToNat_lt (v : Bits) : bitsToNat v < 2 ^ v.length := by
  induction v with
  | nil => simp [bitsToNat]
  | cons b v ih => cases b <;> simp [bitsToNat, Nat.pow_succ] <;> omega

/-- R17 (c): `toNat (ofNat(w, k)) = k` for a w-bit number. -/
theorem bitsToNat_bitsOfNat {w k : Nat} (h : k < 2 ^ w) : bitsToNat (bitsOfNat w k) = k := by
  induction w generalizing k with
  | zero => simp at h; simp [bitsOfNat, bitsToNat, h]
  | succ w ih =>
    have hk : k / 2 < 2 ^ w := by rw [Nat.pow_succ] at h; omega
    rw [bitsOfNat, bitsToNat, ih hk]
    rcases Nat.mod_two_eq_zero_or_one k with h2 | h2 <;> simp [h2] <;> omega

/-- R17 (c): `ofNat (w, toNat v) = v` for a w-bit vector. -/
theorem bitsOfNat_bitsToNat (v : Bits) : bitsOfNat v.length (bitsToNat v) = v := by
  induction v with
  | nil => rfl
  | cons b v ih =>
    have h : (b.toNat + 2 * bitsToNat v) / 2 = bitsToNat v := by cases b <;> simp only [Bool.toNat_true, Bool.toNat_false] <;> omega
    have h' : ((b.toNat + 2 * bitsToNat v) % 2 == 1) = b := by
      cases b
      · simp
      · simp
    rw [List.length_cons, bitsToNat, bitsOfNat, h, h', ih]

/-- Bit j of the number is bit j of the vector (R10). -/
theorem bitsToNat_testBit (v : Bits) (j : Nat) : (bitsToNat v).testBit j = v.getD j false := by
  induction v generalizing j with
  | nil => simp [bitsToNat]
  | cons b v ih =>
    cases j with
    | zero =>
      rw [Nat.testBit_zero, bitsToNat]
      cases b
      · simp
      · simp
    | succ j =>
      rw [Nat.testBit_succ, bitsToNat]
      have h : (b.toNat + 2 * bitsToNat v) / 2 = bitsToNat v := by
        cases b <;> simp only [Bool.toNat_true, Bool.toNat_false] <;> omega
      rw [h, ih]; simp

/-- A marker bit makes the number odd (R36 (d), R204). -/
theorem bitsToNat_odd_iff (b : Bool) (v : Bits) : bitsToNat (b :: v) % 2 = b.toNat := by
  cases b <;> simp only [bitsToNat, Bool.toNat_true, Bool.toNat_false] <;> omega

@[simp] theorem window_length (v : Bits) (lo n : Nat) : (window v lo n).length = min n (v.length - lo) := by
  simp [window]

/-- A window that lies wholly in the middle part of a vector. -/
theorem window_middle (a b c : Bits) (lo n : Nat) (h : lo + n ≤ b.length) :
    window (a ++ b ++ c) (a.length + lo) n = window b lo n := by
  simp only [window, List.append_assoc]
  rw [← List.drop_drop, List.drop_left, List.drop_append_of_le_length (by omega), List.take_append_of_le_length]
  simp; omega

@[simp] theorem hasOne_nil : hasOne [] = false := rfl

@[simp] theorem hasOne_cons (b : Bool) (v : Bits) : hasOne (b :: v) = (b || hasOne v) := by
  simp [hasOne]

@[simp] theorem hasOne_append (v w : Bits) : hasOne (v ++ w) = (hasOne v || hasOne w) := by
  simp [hasOne]

@[simp] theorem hasOne_zeros (n : Nat) : hasOne (constBits false n) = false := by
  induction n with
  | zero => rfl
  | succ n ih => exact ih

/-! ## Fields of a word -/

/-- A bit of the lower part of a word put together from fields. -/
theorem append_low {n m : Nat} (a : BitVec n) (b : BitVec m) (i : Nat) (h : i < m) :
    (a ++ b).getLsbD i = b.getLsbD i := by simp [BitVec.getLsbD_append, h]

/-- A bit of the upper part. -/
theorem append_high {n m : Nat} (a : BitVec n) (b : BitVec m) (i : Nat) (h : m ≤ i) :
    (a ++ b).getLsbD i = a.getLsbD (i - m) := by simp [BitVec.getLsbD_append, h]

end Sys2Proof.Machine
end

