-- ==== Sys2Proof/Laws/Operands.lean ====
section
/-! SUPPORT. Laws of the chain table and of the address decoder. -/

namespace Sys2Proof.Machine

/-! ## Fields in a vector (R71) -/

theorem joinFields_length (fs : List Bits) : (joinFields fs).length = (fs.map List.length).sum := by
  simp [joinFields, List.length_flatten, List.map_reverse, List.sum_reverse]

theorem joinFields_cons (f : Bits) (fs : List Bits) : joinFields (f :: fs) = joinFields fs ++ f := by
  simp [joinFields]

theorem windowLo_zero (w : Nat) (ws : List Nat) : windowLo (w :: ws) 0 = ws.sum := rfl

theorem windowLo_succ (w : Nat) (ws : List Nat) (p : Nat) : windowLo (w :: ws) (p + 1) = windowLo ws p := rfl

/-- A window below the end of the first part of a vector. -/
theorem window_append_left (a b : Bits) (lo n : Nat) (h : lo + n ≤ a.length) :
    window (a ++ b) lo n = window a lo n := by
  have := window_middle [] a b lo n h
  simpa using this

/-- R71: the window of part p holds its field. -/
theorem joinFields_window (fs : List Bits) (p : Nat) (f : Bits) (h : fs[p]? = some f) :
    window (joinFields fs) (windowLo (fs.map List.length) p) f.length = f := by
  induction fs generalizing p with
  | nil => simp at h
  | cons g fs ih =>
    rw [joinFields_cons]
    cases p with
    | zero =>
      simp only [List.getElem?_cons_zero, Option.some.injEq] at h
      subst h
      rw [List.map_cons, windowLo_zero, ← joinFields_length]
      simp [window]
    | succ p =>
      simp only [List.getElem?_cons_succ] at h
      rw [List.map_cons, windowLo_succ, window_append_left _ _ _ _ ?_]
      · exact ih p h
      · have hw := congrArg List.length (ih p h)
        rw [window_length] at hw
        have hf : windowLo (fs.map List.length) p + f.length ≤ (joinFields fs).length ∨ f.length = 0 := by omega
        rcases hf with hf | hf
        · exact hf
        · rw [hf, joinFields_length]
          have : ((fs.map List.length).drop (p + 1)).sum ≤ (fs.map List.length).sum := by
            conv_rhs => rw [← List.take_append_drop (p + 1) (fs.map List.length), List.sum_append]
            omega
          simpa [windowLo] using this

/-! ## Well-formed chains -/

theorem chainWf_part {ps : List Part} (h : chainWf ps = true) {q : Nat} {p : Part} (hp : ps[q]? = some p) :
    Part.wf p = true := by
  simp only [chainWf, Bool.and_eq_true, List.all_eq_true] at h
  exact h.2 p (List.mem_of_getElem? hp)

theorem chainWf_length {ps : List Part} (h : chainWf ps = true) : 1 ≤ ps.length ∧ ps.length ≤ maxParts := by
  simp only [chainWf, Bool.and_eq_true, decide_eq_true_eq] at h
  exact h.1

theorem Part.wf_common {p : Part} (h : Part.wf p = true) : Descriptor.wfCommon p.desc = true := by
  simp only [Part.wf, Bool.and_eq_true] at h
  exact h.1.1

/-- R181: a record is none or a key. -/
theorem Part.wf_record {p : Part} (h : Part.wf p = true) : noneOrKey p.desc p.current = true := by
  simp only [Part.wf, Bool.and_eq_true] at h
  exact h.1.2

/-- R35: a known `ir_length` is at least 1. -/
theorem Part.wf_irLength {p : Part} (h : Part.wf p = true) {l : Nat} (hl : p.desc.irLength = some l) :
    1 ≤ l ∧ l ≤ maxVec := by
  have hc := Part.wf_common h
  simp only [Descriptor.wfCommon, lengthsFit, hl, Bool.and_eq_true, decide_eq_true_eq] at hc
  exact hc.2.1

/-- A bare entry has no record (R36 (g), R206). -/
theorem Part.wf_bare {p : Part} (h : Part.wf p = true) (hl : p.desc.irLength = none) :
    p.current = none ∧ p.desc.instructions = [] := by
  have hr := Part.wf_record h
  simp only [Part.wf, Bool.and_eq_true] at h
  have hi : p.desc.instructions = [] := by
    have h2 := h.2
    cases hid : p.identity <;>
      simp_all [Descriptor.full, Descriptor.bare, List.isEmpty_iff]
  refine ⟨?_, hi⟩
  cases hc : p.current with
  | none => rfl
  | some n => simp [hc, noneOrKey, isKey, lookupName, hi] at hr

/-! ## The IR vector (R72) -/

theorem buildIR_fields_length (ps : List Part) (t : Nat) (name : NameId) :
    (ps.zipIdx.map (fun e => irField t name e.2 e.1)).map List.length = irWidths ps := by
  rw [List.map_map, irWidths]
  have : (List.length ∘ fun e : Part × Nat => irField t name e.2 e.1) = irWidth ∘ Prod.fst := by
    funext e; simp [irField]
  rw [this, ← List.map_map, List.zipIdx_map_fst]

/-- R72, R74 (a): the IR vector has exactly `total_ir_length` bits. -/
theorem buildIR_length (ps : List Part) (t : Nat) (name : NameId) :
    (buildIR ps t name).length = (irWidths ps).sum := by
  rw [buildIR, joinFields_length, buildIR_fields_length]

/-- R72: the window of part q holds its field. -/
theorem buildIR_window (ps : List Part) (t : Nat) (name : NameId) {q : Nat} {p : Part} (hp : ps[q]? = some p) :
    window (buildIR ps t name) (windowLo (irWidths ps) q) (irWidth p) = irField t name q p := by
  have h := joinFields_window (ps.zipIdx.map (fun e => irField t name e.2 e.1)) q (irField t name q p)
    (by simp [hp])
  rw [buildIR_fields_length] at h
  simpa [irField, buildIR] using h

/-- A chain all of whose `ir_length` are known has an IR path of at least one bit (R171). -/
theorem irWidths_sum_pos {ps : List Part} (h : chainWf ps = true) (hk : allIrKnown ps = true) :
    1 ≤ (irWidths ps).sum := by
  obtain ⟨hl, -⟩ := chainWf_length h
  cases ps with
  | nil => simp at hl
  | cons p ps =>
    have hp : Part.wf p = true := chainWf_part h (q := 0) rfl
    simp only [allIrKnown, List.all_cons, Bool.and_eq_true, Option.isSome_iff_exists] at hk
    obtain ⟨l, hl⟩ := hk.1
    have := (Part.wf_irLength hp hl).1
    simp [irWidths, irWidth, hl]; omega

theorem totalIrLength_eq {ps : List Part} (hk : allIrKnown ps = true) :
    totalIrLength ps = some (irWidths ps).sum := by simp [totalIrLength, hk, irWidths]

/-! ## The DR vector (R73) -/

theorem buildDR_fields_length (ps : List Part) (t : Nat) (out : Bits) :
    (ps.zipIdx.map (fun e => drField t out e.2 e.1)).map List.length = drWidths ps t out.length := by
  rw [List.map_map, drWidths]
  congr 1
  funext e
  simp only [Function.comp_apply, drField, activeWidth]
  split <;> simp

/-- R73, R74 (b): the DR vector has exactly the sum of the active widths. -/
theorem buildDR_length (ps : List Part) (t : Nat) (out : Bits) :
    (buildDR ps t out).length = (drWidths ps t out.length).sum := by
  rw [buildDR, joinFields_length, buildDR_fields_length]

/-- R73: the window of part q holds its field. -/
theorem buildDR_window (ps : List Part) (t : Nat) (out : Bits) {q : Nat} {p : Part} (hp : ps[q]? = some p) :
    window (buildDR ps t out) (windowLo (drWidths ps t out.length) q) (activeWidth t out.length q p) =
      drField t out q p := by
  have h := joinFields_window (ps.zipIdx.map (fun e => drField t out e.2 e.1)) q (drField t out q p) (by simp [hp])
  rw [buildDR_fields_length] at h
  have hl : (drField t out q p).length = activeWidth t out.length q p := by
    simp only [drField, activeWidth]; split <;> simp
  rwa [hl] at h

theorem drWidths_get (ps : List Part) (t n : Nat) {q : Nat} {p : Part} (hp : ps[q]? = some p) :
    (drWidths ps t n)[q]? = some (activeWidth t n q p) := by simp [drWidths, hp]

theorem sum_split (ws : List Nat) (q w : Nat) (h : ws[q]? = some w) :
    windowLo ws q + w ≤ ws.sum := by
  induction ws generalizing q with
  | nil => simp at h
  | cons v ws ih =>
    cases q with
    | zero => simp at h; subst h; rw [windowLo_zero, List.sum_cons]; omega
    | succ q => have := ih q (by simpa using h); rw [windowLo_succ, List.sum_cons]; omega

/-- The target's window lies inside the DR vector. -/
theorem drWindow_fits (ps : List Part) (t n : Nat) {p : Part} (hp : ps[t]? = some p) :
    windowLo (drWidths ps t n) t + n ≤ (drWidths ps t n).sum := by
  have h := sum_split _ _ _ (drWidths_get ps t n hp)
  simpa [activeWidth] using h

/-! ## Records -/

@[simp] theorem setRecord_length (ps : List Part) (t : Nat) (name : NameId) :
    (setRecord ps t name).length = ps.length := by simp [setRecord]

theorem setRecord_get (ps : List Part) (t : Nat) (name : NameId) (q : Nat) :
    (setRecord ps t name)[q]? =
      (ps[q]?).map (fun p => if q = t then { p with current := some name } else p) := by
  simp only [setRecord, List.getElem?_modify, eq_comm (a := t)]
  by_cases h : q = t <;> simp [h]

end Sys2Proof.Machine
end

