-- ==== Sys2Proof/Laws/Discovery.lean ====
section
/-! SUPPORT. Laws of the partition and of the chain it yields. -/

namespace Sys2Proof.Machine

/-- What a fragment says is true of the stream it was cut from (R204): a known one names an entry of the table and an
odd value of the entry's length, an unknown one an odd value of 32 bits. -/
def FragmentOk (ids : List KnownId) : Fragment → Prop
  | .bypass _ => True
  | .known k _ v => ∃ e, ids[k]? = some e ∧ v < 2 ^ e.len ∧ v % 2 = 1
  | .unknown _ v => v < 2 ^ defaultIdcodeLen ∧ v % 2 = 1

theorem knownIdsWf_get {ids : List KnownId} (h : knownIdsWf ids = true) {k : Nat} {e : KnownId}
    (hk : ids[k]? = some e) : KnownId.wf e = true := by
  induction ids generalizing k with
  | nil => simp at hk
  | cons f ids ih =>
    simp only [knownIdsWf, Bool.and_eq_true] at h
    cases k with
    | zero => simp at hk; subst hk; exact h.1.1
    | succ k => exact ih h.2 (by simpa using hk)

theorem KnownId.wf_len {e : KnownId} (h : KnownId.wf e = true) : 1 ≤ e.len := by
  simp only [KnownId.wf, Bool.and_eq_true, decide_eq_true_eq] at h
  exact h.1.1.1.1.1.1.1

theorem matchesAt_mem {ids : List KnownId} {rest : Bits} {e : KnownId} {k : Nat}
    (h : (e, k) ∈ matchesAt ids rest) : ids[k]? = some e ∧ KnownId.matches e rest = true := by
  simp only [matchesAt, List.mem_filter, List.mem_zipIdx_iff_getElem?] at h
  exact h

/-- All that a marker can be (R204). -/
theorem readMarker_matched {ids : List KnownId} {rest : Bits} {k : Nat} {e : KnownId}
    (h : readMarker ids rest = .matched k e) : ids[k]? = some e ∧ KnownId.matches e rest = true := by
  unfold readMarker at h
  split at h
  · cases h
  · next f fs hm =>
    split at h
    · cases h
      exact matchesAt_mem (by rw [hm]; simp)
    · cases h

theorem bitsToNat_take_odd {b : Bool} {rest : Bits} {n : Nat} (hb : b = true) (hn : 1 ≤ n) :
    bitsToNat ((b :: rest).take n) % 2 = 1 := by
  obtain ⟨m, rfl⟩ : ∃ m, n = m + 1 := ⟨n - 1, by omega⟩
  rw [List.take_succ_cons, bitsToNat_odd_iff, hb]; rfl

theorem bitsToNat_take_lt (v : Bits) (n : Nat) : bitsToNat (v.take n) < 2 ^ n :=
  Nat.lt_of_lt_of_le (bitsToNat_lt _) (Nat.pow_le_pow_right (by omega) (by simp))

/-- The field at a marker: its fragment is true of the stream and its length is at least 1. -/
theorem markerField_ok {ids : List KnownId} (h : knownIdsWf ids = true) {pos : Nat} {rest : Bits} {f : Fragment}
    {len : Nat} (hf : markerField ids pos (true :: rest) = some (f, len)) : FragmentOk ids f ∧ 1 ≤ len := by
  unfold markerField at hf
  split at hf
  · cases hf
  · next k e hm =>
    obtain ⟨hk, -⟩ := readMarker_matched hm
    have hl := KnownId.wf_len (knownIdsWf_get h hk)
    cases hf
    exact ⟨⟨e, hk, bitsToNat_take_lt _ _, bitsToNat_take_odd rfl hl⟩, hl⟩
  · split at hf
    · cases hf
    · cases hf
      exact ⟨⟨bitsToNat_take_lt _ _, bitsToNat_take_odd rfl (by decide)⟩, by decide⟩

/-- Every fragment of a partition is true of the stream. -/
theorem partitionFrom_ok {ids : List KnownId} (h : knownIdsWf ids = true) {pos skip : Nat} {s : Bits}
    {fs : List Fragment} (hp : partitionFrom ids pos skip s = some fs) : ∀ f ∈ fs, FragmentOk ids f := by
  induction s generalizing pos skip fs with
  | nil => simp only [partitionFrom, Option.some.injEq] at hp; subst hp; simp
  | cons b rest ih =>
    cases skip with
    | succ k => exact ih (by simpa only [partitionFrom] using hp)
    | zero =>
      simp only [partitionFrom] at hp
      split at hp
      · split at hp
        · next hb =>
          subst hb
          split at hp
          · cases hp
          · next f len hf =>
            simp only [Option.map_eq_some_iff] at hp
            obtain ⟨gs, hg, rfl⟩ := hp
            have := markerField_ok h hf
            intro g hgm
            rcases List.mem_cons.1 hgm with rfl | hgm
            · exact this.1
            · exact ih hg g hgm
        · simp only [Option.map_eq_some_iff] at hp
          obtain ⟨gs, hg, rfl⟩ := hp
          intro g hgm
          rcases List.mem_cons.1 hgm with rfl | hgm
          · trivial
          · exact ih hg g hgm
      · simp only [Option.some.injEq] at hp; subst hp; simp

/-- A stream with a 1 gives at least one fragment. -/
theorem partitionFrom_ne_nil {ids : List KnownId} {pos : Nat} {s : Bits} (h1 : hasOne s = true)
    {fs : List Fragment} (hp : partitionFrom ids pos 0 s = some fs) : fs ≠ [] := by
  cases s with
  | nil => simp at h1
  | cons b rest =>
    simp only [partitionFrom, h1, if_true] at hp
    split at hp
    · split at hp
      · cases hp
      · simp only [Option.map_eq_some_iff] at hp
        obtain ⟨gs, -, rfl⟩ := hp; simp
    · simp only [Option.map_eq_some_iff] at hp
      obtain ⟨gs, -, rfl⟩ := hp; simp

/-- All that `Partition` can answer (R204, R209). -/
theorem partition_cases (ids : List KnownId) (s : Bits) :
    (hasOne s = false ∧ partition ids s = .error .noDevicesDetected) ∨
      (hasOne s = true ∧ partition ids s = .error .ambiguousChainTopology) ∨
        ∃ frags, hasOne s = true ∧ partitionFrom ids 0 0 s = some frags ∧ frags.length ≤ maxParts ∧
          partition ids s = .ok frags := by
  unfold partition
  by_cases h : hasOne s = true
  · rw [if_pos h]
    cases hp : partitionFrom ids 0 0 s with
    | none => exact .inr (.inl ⟨h, rfl⟩)
    | some frags =>
      by_cases hl : maxParts < frags.length
      · exact .inr (.inl ⟨h, by simp [hl]⟩)
      · exact .inr (.inr ⟨frags, h, rfl, by omega, by simp [hl]⟩)
  · rw [if_neg h]
    exact .inl ⟨by simpa using h, rfl⟩

/-- R206: the entry of a fragment is well formed. -/
theorem fragmentPart_wf {ids : List KnownId} (h : knownIdsWf ids = true) {f : Fragment} (hf : FragmentOk ids f) :
    Part.wf (fragmentPart ids f) = true := by
  cases f with
  | bypass pos => rfl
  | unknown pos v =>
    obtain ⟨hv, ho⟩ := hf
    have hd : defaultIdcodeLen = 32 := rfl
    rw [hd] at hv
    simp [fragmentPart, Part.wf, bareDescriptor, Descriptor.wfCommon, Descriptor.bare, namesRise, opcodesFit, noneOrKey,
      bypassWidthKnown, idcodeFits, widthsFit, lengthsFit, defaultIdcodeLen, maxVec, ho]
    exact decide_eq_true hv
  | known k pos v =>
    obtain ⟨e, hk, hv, ho⟩ := hf
    have he := knownIdsWf_get h hk
    have hl := KnownId.wf_len he
    have hg : ids.getD k default = e := by rw [List.getD_eq_getElem?_getD, hk]; rfl
    simp only [KnownId.wf, Bool.and_eq_true, beq_iff_eq] at he
    obtain ⟨⟨⟨-, hlen⟩, hc⟩, hfull⟩ := he
    simp only [fragmentPart, hg, knownPart, Part.wf, Bool.and_eq_true]
    simp only [Descriptor.wfCommon, Bool.and_eq_true] at hc ⊢
    obtain ⟨⟨⟨⟨⟨⟨⟨h1, h2⟩, h3⟩, h4⟩, h5⟩, -⟩, h7⟩, h8⟩ := hc
    refine ⟨⟨⟨⟨⟨⟨⟨⟨⟨h1, h2⟩, h3⟩, h4⟩, h5⟩, ?_⟩, h7⟩, ?_⟩, h4⟩, hfull⟩
    · simp [idcodeFits, hl, hv, ho]
    · simpa [lengthsFit, hlen] using h8

/-- R206, R210: the chain a partition yields is well formed. -/
theorem fragmentChain_wf {ids : List KnownId} (h : knownIdsWf ids = true) {s : Bits} {frags : List Fragment}
    (hp : partition ids s = .ok frags) : chainWf (fragmentChain ids frags) = true := by
  rcases partition_cases ids s with ⟨-, hq⟩ | ⟨-, hq⟩ | ⟨fs, h1, hf, hl, hq⟩
  · rw [hq] at hp; cases hp
  · rw [hq] at hp; cases hp
  · rw [hq] at hp; cases hp
    have hne := partitionFrom_ne_nil h1 hf
    have hok := partitionFrom_ok h hf
    simp only [chainWf, fragmentChain, Bool.and_eq_true, decide_eq_true_eq, List.all_eq_true, List.length_reverse,
      List.length_map, List.mem_reverse, List.mem_map]
    refine ⟨⟨?_, hl⟩, ?_⟩
    · have := List.length_pos_iff.2 hne; omega
    · rintro p ⟨f, hf, rfl⟩
      exact fragmentPart_wf h (hok f hf)

theorem partition_length {ids : List KnownId} {s : Bits} {frags : List Fragment} (hp : partition ids s = .ok frags) :
    frags.length ≤ maxParts := by
  rcases partition_cases ids s with ⟨-, hq⟩ | ⟨-, hq⟩ | ⟨fs, h1, hf, hl, hq⟩ <;> rw [hq] at hp <;> cases hp
  exact hl

end Sys2Proof.Machine
end

