-- ==== Sys2Proof/Laws/State.lean ====
section
/-! SUPPORT. For each named update of the state, one lemma per field, so that no proof unfolds a record update. -/

namespace Sys2Proof.Machine

variable (s : State)

/-! ### `pulsed` -/

@[simp] theorem State.pulsed_tap (tms tdi b : Bool) (e : Env) : (s.pulsed tms tdi b e).tap = s.tap := rfl
@[simp] theorem State.pulsed_tapKnown (tms tdi b : Bool) (e : Env) : (s.pulsed tms tdi b e).tapKnown = s.tapKnown := rfl
@[simp] theorem State.pulsed_busy (tms tdi b : Bool) (e : Env) : (s.pulsed tms tdi b e).busy = s.busy := rfl
@[simp] theorem State.pulsed_chain (tms tdi b : Bool) (e : Env) : (s.pulsed tms tdi b e).chain = s.chain := rfl
@[simp] theorem State.pulsed_chainStatus (tms tdi b : Bool) (e : Env) : (s.pulsed tms tdi b e).chainStatus = s.chainStatus := rfl
@[simp] theorem State.pulsed_outbuf (tms tdi b : Bool) (e : Env) : (s.pulsed tms tdi b e).outbuf = s.outbuf := rfl
@[simp] theorem State.pulsed_inbuf (tms tdi b : Bool) (e : Env) : (s.pulsed tms tdi b e).inbuf = s.inbuf := rfl
@[simp] theorem State.pulsed_inLen (tms tdi b : Bool) (e : Env) : (s.pulsed tms tdi b e).inLen = s.inLen := rfl
@[simp] theorem State.pulsed_lastStatus (tms tdi b : Bool) (e : Env) : (s.pulsed tms tdi b e).lastStatus = s.lastStatus := rfl
@[simp] theorem State.pulsed_pins (tms tdi b : Bool) (e : Env) : (s.pulsed tms tdi b e).pins = s.pins.afterPulse tms tdi := rfl
@[simp] theorem State.pulsed_cfg (tms tdi b : Bool) (e : Env) : (s.pulsed tms tdi b e).cfg = s.cfg := rfl
@[simp] theorem State.pulsed_port (tms tdi b : Bool) (e : Env) : (s.pulsed tms tdi b e).port = s.port := rfl
@[simp] theorem State.pulsed_responses (tms tdi b : Bool) (e : Env) : (s.pulsed tms tdi b e).responses = s.responses := rfl
@[simp] theorem State.pulsed_trace (tms tdi b : Bool) (e : Env) : (s.pulsed tms tdi b e).trace = s.trace ++ [⟨tms, tdi, .bit b⟩] := rfl
@[simp] theorem State.pulsed_env (tms tdi b : Bool) (e : Env) : (s.pulsed tms tdi b e).env = e := rfl
@[simp] theorem State.pulsed_pulseNo (tms tdi b : Bool) (e : Env) : (s.pulsed tms tdi b e).pulseNo = s.pulseNo + 1 := rfl
@[simp] theorem State.pulsed_advanced (tms tdi b : Bool) (e : Env) : (s.pulsed tms tdi b e).advanced = s.advanced := rfl

/-! ### `pulseLost` -/

@[simp] theorem State.pulseLost_tap (tms tdi : Bool) (e : Env) : (s.pulseLost tms tdi e).tap = s.tap := rfl
@[simp] theorem State.pulseLost_tapKnown (tms tdi : Bool) (e : Env) : (s.pulseLost tms tdi e).tapKnown = s.tapKnown := rfl
@[simp] theorem State.pulseLost_busy (tms tdi : Bool) (e : Env) : (s.pulseLost tms tdi e).busy = s.busy := rfl
@[simp] theorem State.pulseLost_chain (tms tdi : Bool) (e : Env) : (s.pulseLost tms tdi e).chain = s.chain := rfl
@[simp] theorem State.pulseLost_chainStatus (tms tdi : Bool) (e : Env) : (s.pulseLost tms tdi e).chainStatus = s.chainStatus := rfl
@[simp] theorem State.pulseLost_outbuf (tms tdi : Bool) (e : Env) : (s.pulseLost tms tdi e).outbuf = s.outbuf := rfl
@[simp] theorem State.pulseLost_inbuf (tms tdi : Bool) (e : Env) : (s.pulseLost tms tdi e).inbuf = s.inbuf := rfl
@[simp] theorem State.pulseLost_inLen (tms tdi : Bool) (e : Env) : (s.pulseLost tms tdi e).inLen = s.inLen := rfl
@[simp] theorem State.pulseLost_lastStatus (tms tdi : Bool) (e : Env) : (s.pulseLost tms tdi e).lastStatus = s.lastStatus := rfl
@[simp] theorem State.pulseLost_pins (tms tdi : Bool) (e : Env) : (s.pulseLost tms tdi e).pins = s.pins.afterTimeout (Config.freePinsLeft s.pulseNo) tms tdi := rfl
@[simp] theorem State.pulseLost_cfg (tms tdi : Bool) (e : Env) : (s.pulseLost tms tdi e).cfg = s.cfg := rfl
@[simp] theorem State.pulseLost_port (tms tdi : Bool) (e : Env) : (s.pulseLost tms tdi e).port = s.port := rfl
@[simp] theorem State.pulseLost_responses (tms tdi : Bool) (e : Env) : (s.pulseLost tms tdi e).responses = s.responses := rfl
@[simp] theorem State.pulseLost_trace (tms tdi : Bool) (e : Env) : (s.pulseLost tms tdi e).trace = s.trace ++ [⟨tms, tdi, .timeout⟩] := rfl
@[simp] theorem State.pulseLost_env (tms tdi : Bool) (e : Env) : (s.pulseLost tms tdi e).env = e := rfl
@[simp] theorem State.pulseLost_pulseNo (tms tdi : Bool) (e : Env) : (s.pulseLost tms tdi e).pulseNo = s.pulseNo + 1 := rfl
@[simp] theorem State.pulseLost_advanced (tms tdi : Bool) (e : Env) : (s.pulseLost tms tdi e).advanced = s.advanced := rfl

/-! ### `track` -/

@[simp] theorem State.track_tap (tms : Bool) : (s.track tms).tap = advance s.tap tms := rfl
@[simp] theorem State.track_tapKnown (tms : Bool) : (s.track tms).tapKnown = s.tapKnown := rfl
@[simp] theorem State.track_busy (tms : Bool) : (s.track tms).busy = s.busy := rfl
@[simp] theorem State.track_chain (tms : Bool) : (s.track tms).chain = s.chain := rfl
@[simp] theorem State.track_chainStatus (tms : Bool) : (s.track tms).chainStatus = s.chainStatus := rfl
@[simp] theorem State.track_outbuf (tms : Bool) : (s.track tms).outbuf = s.outbuf := rfl
@[simp] theorem State.track_inbuf (tms : Bool) : (s.track tms).inbuf = s.inbuf := rfl
@[simp] theorem State.track_inLen (tms : Bool) : (s.track tms).inLen = s.inLen := rfl
@[simp] theorem State.track_lastStatus (tms : Bool) : (s.track tms).lastStatus = s.lastStatus := rfl
@[simp] theorem State.track_pins (tms : Bool) : (s.track tms).pins = s.pins := rfl
@[simp] theorem State.track_cfg (tms : Bool) : (s.track tms).cfg = s.cfg := rfl
@[simp] theorem State.track_port (tms : Bool) : (s.track tms).port = s.port := rfl
@[simp] theorem State.track_responses (tms : Bool) : (s.track tms).responses = s.responses := rfl
@[simp] theorem State.track_trace (tms : Bool) : (s.track tms).trace = s.trace := rfl
@[simp] theorem State.track_env (tms : Bool) : (s.track tms).env = s.env := rfl
@[simp] theorem State.track_pulseNo (tms : Bool) : (s.track tms).pulseNo = s.pulseNo := rfl
@[simp] theorem State.track_advanced (tms : Bool) : (s.track tms).advanced = s.advanced := rfl

/-! ### `loseTap` -/

@[simp] theorem State.loseTap_tap : (s.loseTap).tap = s.tap := rfl
@[simp] theorem State.loseTap_tapKnown : (s.loseTap).tapKnown = false := rfl
@[simp] theorem State.loseTap_busy : (s.loseTap).busy = s.busy := rfl
@[simp] theorem State.loseTap_chain : (s.loseTap).chain = s.chain := rfl
@[simp] theorem State.loseTap_chainStatus : (s.loseTap).chainStatus = s.chainStatus := rfl
@[simp] theorem State.loseTap_outbuf : (s.loseTap).outbuf = s.outbuf := rfl
@[simp] theorem State.loseTap_inbuf : (s.loseTap).inbuf = s.inbuf := rfl
@[simp] theorem State.loseTap_inLen : (s.loseTap).inLen = s.inLen := rfl
@[simp] theorem State.loseTap_lastStatus : (s.loseTap).lastStatus = s.lastStatus := rfl
@[simp] theorem State.loseTap_pins : (s.loseTap).pins = s.pins := rfl
@[simp] theorem State.loseTap_cfg : (s.loseTap).cfg = s.cfg := rfl
@[simp] theorem State.loseTap_port : (s.loseTap).port = s.port := rfl
@[simp] theorem State.loseTap_responses : (s.loseTap).responses = s.responses := rfl
@[simp] theorem State.loseTap_trace : (s.loseTap).trace = s.trace := rfl
@[simp] theorem State.loseTap_env : (s.loseTap).env = s.env := rfl
@[simp] theorem State.loseTap_pulseNo : (s.loseTap).pulseNo = s.pulseNo := rfl
@[simp] theorem State.loseTap_advanced : (s.loseTap).advanced = s.advanced := rfl

/-! ### `knowTap` -/

@[simp] theorem State.knowTap_tap : (s.knowTap).tap = s.tap := rfl
@[simp] theorem State.knowTap_tapKnown : (s.knowTap).tapKnown = true := rfl
@[simp] theorem State.knowTap_busy : (s.knowTap).busy = s.busy := rfl
@[simp] theorem State.knowTap_chain : (s.knowTap).chain = s.chain := rfl
@[simp] theorem State.knowTap_chainStatus : (s.knowTap).chainStatus = s.chainStatus := rfl
@[simp] theorem State.knowTap_outbuf : (s.knowTap).outbuf = s.outbuf := rfl
@[simp] theorem State.knowTap_inbuf : (s.knowTap).inbuf = s.inbuf := rfl
@[simp] theorem State.knowTap_inLen : (s.knowTap).inLen = s.inLen := rfl
@[simp] theorem State.knowTap_lastStatus : (s.knowTap).lastStatus = s.lastStatus := rfl
@[simp] theorem State.knowTap_pins : (s.knowTap).pins = s.pins := rfl
@[simp] theorem State.knowTap_cfg : (s.knowTap).cfg = s.cfg := rfl
@[simp] theorem State.knowTap_port : (s.knowTap).port = s.port := rfl
@[simp] theorem State.knowTap_responses : (s.knowTap).responses = s.responses := rfl
@[simp] theorem State.knowTap_trace : (s.knowTap).trace = s.trace := rfl
@[simp] theorem State.knowTap_env : (s.knowTap).env = s.env := rfl
@[simp] theorem State.knowTap_pulseNo : (s.knowTap).pulseNo = s.pulseNo := rfl
@[simp] theorem State.knowTap_advanced : (s.knowTap).advanced = s.advanced := rfl

/-! ### `accept` -/

@[simp] theorem State.accept_tap : (s.accept).tap = s.tap := rfl
@[simp] theorem State.accept_tapKnown : (s.accept).tapKnown = s.tapKnown := rfl
@[simp] theorem State.accept_busy : (s.accept).busy = true := rfl
@[simp] theorem State.accept_chain : (s.accept).chain = s.chain := rfl
@[simp] theorem State.accept_chainStatus : (s.accept).chainStatus = s.chainStatus := rfl
@[simp] theorem State.accept_outbuf : (s.accept).outbuf = s.outbuf := rfl
@[simp] theorem State.accept_inbuf : (s.accept).inbuf = s.inbuf := rfl
@[simp] theorem State.accept_inLen : (s.accept).inLen = s.inLen := rfl
@[simp] theorem State.accept_lastStatus : (s.accept).lastStatus = s.lastStatus := rfl
@[simp] theorem State.accept_pins : (s.accept).pins = s.pins := rfl
@[simp] theorem State.accept_cfg : (s.accept).cfg = s.cfg := rfl
@[simp] theorem State.accept_port : (s.accept).port = s.port := rfl
@[simp] theorem State.accept_responses : (s.accept).responses = s.responses := rfl
@[simp] theorem State.accept_trace : (s.accept).trace = s.trace := rfl
@[simp] theorem State.accept_env : (s.accept).env = s.env := rfl
@[simp] theorem State.accept_pulseNo : (s.accept).pulseNo = s.pulseNo := rfl
@[simp] theorem State.accept_advanced : (s.accept).advanced = s.advanced := rfl

/-! ### `respond` -/

@[simp] theorem State.respond_tap (st : Status) (len : Nat) : (s.respond st len).tap = s.tap := rfl
@[simp] theorem State.respond_tapKnown (st : Status) (len : Nat) : (s.respond st len).tapKnown = s.tapKnown := rfl
@[simp] theorem State.respond_busy (st : Status) (len : Nat) : (s.respond st len).busy = false := rfl
@[simp] theorem State.respond_chain (st : Status) (len : Nat) : (s.respond st len).chain = s.chain := rfl
@[simp] theorem State.respond_chainStatus (st : Status) (len : Nat) : (s.respond st len).chainStatus = s.chainStatus := rfl
@[simp] theorem State.respond_outbuf (st : Status) (len : Nat) : (s.respond st len).outbuf = s.outbuf := rfl
@[simp] theorem State.respond_inbuf (st : Status) (len : Nat) : (s.respond st len).inbuf = s.inbuf := rfl
@[simp] theorem State.respond_inLen (st : Status) (len : Nat) : (s.respond st len).inLen = s.inLen := rfl
@[simp] theorem State.respond_lastStatus (st : Status) (len : Nat) : (s.respond st len).lastStatus = st.code := rfl
@[simp] theorem State.respond_pins (st : Status) (len : Nat) : (s.respond st len).pins = s.pins := rfl
@[simp] theorem State.respond_cfg (st : Status) (len : Nat) : (s.respond st len).cfg = s.cfg := rfl
@[simp] theorem State.respond_port (st : Status) (len : Nat) : (s.respond st len).port = s.port := rfl
@[simp] theorem State.respond_responses (st : Status) (len : Nat) : (s.respond st len).responses = s.responses ++ [responseWord st len] := rfl
@[simp] theorem State.respond_trace (st : Status) (len : Nat) : (s.respond st len).trace = s.trace := rfl
@[simp] theorem State.respond_env (st : Status) (len : Nat) : (s.respond st len).env = s.env := rfl
@[simp] theorem State.respond_pulseNo (st : Status) (len : Nat) : (s.respond st len).pulseNo = s.pulseNo := rfl
@[simp] theorem State.respond_advanced (st : Status) (len : Nat) : (s.respond st len).advanced = s.advanced := rfl

/-! ### `resetRecords` -/

@[simp] theorem State.resetRecords_tap : (s.resetRecords).tap = s.tap := rfl
@[simp] theorem State.resetRecords_tapKnown : (s.resetRecords).tapKnown = s.tapKnown := rfl
@[simp] theorem State.resetRecords_busy : (s.resetRecords).busy = s.busy := rfl
@[simp] theorem State.resetRecords_chain : (s.resetRecords).chain = Machine.resetRecords s.chain := rfl
@[simp] theorem State.resetRecords_chainStatus : (s.resetRecords).chainStatus = s.chainStatus := rfl
@[simp] theorem State.resetRecords_outbuf : (s.resetRecords).outbuf = s.outbuf := rfl
@[simp] theorem State.resetRecords_inbuf : (s.resetRecords).inbuf = s.inbuf := rfl
@[simp] theorem State.resetRecords_inLen : (s.resetRecords).inLen = s.inLen := rfl
@[simp] theorem State.resetRecords_lastStatus : (s.resetRecords).lastStatus = s.lastStatus := rfl
@[simp] theorem State.resetRecords_pins : (s.resetRecords).pins = s.pins := rfl
@[simp] theorem State.resetRecords_cfg : (s.resetRecords).cfg = s.cfg := rfl
@[simp] theorem State.resetRecords_port : (s.resetRecords).port = s.port := rfl
@[simp] theorem State.resetRecords_responses : (s.resetRecords).responses = s.responses := rfl
@[simp] theorem State.resetRecords_trace : (s.resetRecords).trace = s.trace := rfl
@[simp] theorem State.resetRecords_env : (s.resetRecords).env = s.env := rfl
@[simp] theorem State.resetRecords_pulseNo : (s.resetRecords).pulseNo = s.pulseNo := rfl
@[simp] theorem State.resetRecords_advanced : (s.resetRecords).advanced = s.advanced := rfl

/-! ### `setRecord` -/

@[simp] theorem State.setRecord_tap (ps : List Part) (t : Nat) (name : NameId) : (s.setRecord ps t name).tap = s.tap := rfl
@[simp] theorem State.setRecord_tapKnown (ps : List Part) (t : Nat) (name : NameId) : (s.setRecord ps t name).tapKnown = s.tapKnown := rfl
@[simp] theorem State.setRecord_busy (ps : List Part) (t : Nat) (name : NameId) : (s.setRecord ps t name).busy = s.busy := rfl
@[simp] theorem State.setRecord_chain (ps : List Part) (t : Nat) (name : NameId) : (s.setRecord ps t name).chain = some (Machine.setRecord ps t name) := rfl
@[simp] theorem State.setRecord_chainStatus (ps : List Part) (t : Nat) (name : NameId) : (s.setRecord ps t name).chainStatus = s.chainStatus := rfl
@[simp] theorem State.setRecord_outbuf (ps : List Part) (t : Nat) (name : NameId) : (s.setRecord ps t name).outbuf = s.outbuf := rfl
@[simp] theorem State.setRecord_inbuf (ps : List Part) (t : Nat) (name : NameId) : (s.setRecord ps t name).inbuf = s.inbuf := rfl
@[simp] theorem State.setRecord_inLen (ps : List Part) (t : Nat) (name : NameId) : (s.setRecord ps t name).inLen = s.inLen := rfl
@[simp] theorem State.setRecord_lastStatus (ps : List Part) (t : Nat) (name : NameId) : (s.setRecord ps t name).lastStatus = s.lastStatus := rfl
@[simp] theorem State.setRecord_pins (ps : List Part) (t : Nat) (name : NameId) : (s.setRecord ps t name).pins = s.pins := rfl
@[simp] theorem State.setRecord_cfg (ps : List Part) (t : Nat) (name : NameId) : (s.setRecord ps t name).cfg = s.cfg := rfl
@[simp] theorem State.setRecord_port (ps : List Part) (t : Nat) (name : NameId) : (s.setRecord ps t name).port = s.port := rfl
@[simp] theorem State.setRecord_responses (ps : List Part) (t : Nat) (name : NameId) : (s.setRecord ps t name).responses = s.responses := rfl
@[simp] theorem State.setRecord_trace (ps : List Part) (t : Nat) (name : NameId) : (s.setRecord ps t name).trace = s.trace := rfl
@[simp] theorem State.setRecord_env (ps : List Part) (t : Nat) (name : NameId) : (s.setRecord ps t name).env = s.env := rfl
@[simp] theorem State.setRecord_pulseNo (ps : List Part) (t : Nat) (name : NameId) : (s.setRecord ps t name).pulseNo = s.pulseNo := rfl
@[simp] theorem State.setRecord_advanced (ps : List Part) (t : Nat) (name : NameId) : (s.setRecord ps t name).advanced = s.advanced := rfl

/-! ### `storeResult` -/

@[simp] theorem State.storeResult_tap (r : Bits) : (s.storeResult r).tap = s.tap := rfl
@[simp] theorem State.storeResult_tapKnown (r : Bits) : (s.storeResult r).tapKnown = s.tapKnown := rfl
@[simp] theorem State.storeResult_busy (r : Bits) : (s.storeResult r).busy = s.busy := rfl
@[simp] theorem State.storeResult_chain (r : Bits) : (s.storeResult r).chain = s.chain := rfl
@[simp] theorem State.storeResult_chainStatus (r : Bits) : (s.storeResult r).chainStatus = s.chainStatus := rfl
@[simp] theorem State.storeResult_outbuf (r : Bits) : (s.storeResult r).outbuf = s.outbuf := rfl
@[simp] theorem State.storeResult_inbuf (r : Bits) : (s.storeResult r).inbuf = writeVector s.inbuf r := rfl
@[simp] theorem State.storeResult_inLen (r : Bits) : (s.storeResult r).inLen = BitVec.ofNat 16 r.length := rfl
@[simp] theorem State.storeResult_lastStatus (r : Bits) : (s.storeResult r).lastStatus = s.lastStatus := rfl
@[simp] theorem State.storeResult_pins (r : Bits) : (s.storeResult r).pins = s.pins := rfl
@[simp] theorem State.storeResult_cfg (r : Bits) : (s.storeResult r).cfg = s.cfg := rfl
@[simp] theorem State.storeResult_port (r : Bits) : (s.storeResult r).port = s.port := rfl
@[simp] theorem State.storeResult_responses (r : Bits) : (s.storeResult r).responses = s.responses := rfl
@[simp] theorem State.storeResult_trace (r : Bits) : (s.storeResult r).trace = s.trace := rfl
@[simp] theorem State.storeResult_env (r : Bits) : (s.storeResult r).env = s.env := rfl
@[simp] theorem State.storeResult_pulseNo (r : Bits) : (s.storeResult r).pulseNo = s.pulseNo := rfl
@[simp] theorem State.storeResult_advanced (r : Bits) : (s.storeResult r).advanced = s.advanced := rfl

/-! ### `install` -/

@[simp] theorem State.install_tap (ps : List Part) (cs : ChainStatus) : (s.install ps cs).tap = s.tap := rfl
@[simp] theorem State.install_tapKnown (ps : List Part) (cs : ChainStatus) : (s.install ps cs).tapKnown = s.tapKnown := rfl
@[simp] theorem State.install_busy (ps : List Part) (cs : ChainStatus) : (s.install ps cs).busy = s.busy := rfl
@[simp] theorem State.install_chain (ps : List Part) (cs : ChainStatus) : (s.install ps cs).chain = some ps := rfl
@[simp] theorem State.install_chainStatus (ps : List Part) (cs : ChainStatus) : (s.install ps cs).chainStatus = cs := rfl
@[simp] theorem State.install_outbuf (ps : List Part) (cs : ChainStatus) : (s.install ps cs).outbuf = s.outbuf := rfl
@[simp] theorem State.install_inbuf (ps : List Part) (cs : ChainStatus) : (s.install ps cs).inbuf = s.inbuf := rfl
@[simp] theorem State.install_inLen (ps : List Part) (cs : ChainStatus) : (s.install ps cs).inLen = s.inLen := rfl
@[simp] theorem State.install_lastStatus (ps : List Part) (cs : ChainStatus) : (s.install ps cs).lastStatus = s.lastStatus := rfl
@[simp] theorem State.install_pins (ps : List Part) (cs : ChainStatus) : (s.install ps cs).pins = s.pins := rfl
@[simp] theorem State.install_cfg (ps : List Part) (cs : ChainStatus) : (s.install ps cs).cfg = s.cfg := rfl
@[simp] theorem State.install_port (ps : List Part) (cs : ChainStatus) : (s.install ps cs).port = s.port := rfl
@[simp] theorem State.install_responses (ps : List Part) (cs : ChainStatus) : (s.install ps cs).responses = s.responses := rfl
@[simp] theorem State.install_trace (ps : List Part) (cs : ChainStatus) : (s.install ps cs).trace = s.trace := rfl
@[simp] theorem State.install_env (ps : List Part) (cs : ChainStatus) : (s.install ps cs).env = s.env := rfl
@[simp] theorem State.install_pulseNo (ps : List Part) (cs : ChainStatus) : (s.install ps cs).pulseNo = s.pulseNo := rfl
@[simp] theorem State.install_advanced (ps : List Part) (cs : ChainStatus) : (s.install ps cs).advanced = s.advanced := rfl

/-! ### `recordAdvance` -/

@[simp] theorem State.recordAdvance_tap (t : TapState) : (s.recordAdvance t).tap = s.tap := rfl
@[simp] theorem State.recordAdvance_tapKnown (t : TapState) : (s.recordAdvance t).tapKnown = s.tapKnown := rfl
@[simp] theorem State.recordAdvance_busy (t : TapState) : (s.recordAdvance t).busy = s.busy := rfl
@[simp] theorem State.recordAdvance_chain (t : TapState) : (s.recordAdvance t).chain = s.chain := rfl
@[simp] theorem State.recordAdvance_chainStatus (t : TapState) : (s.recordAdvance t).chainStatus = s.chainStatus := rfl
@[simp] theorem State.recordAdvance_outbuf (t : TapState) : (s.recordAdvance t).outbuf = s.outbuf := rfl
@[simp] theorem State.recordAdvance_inbuf (t : TapState) : (s.recordAdvance t).inbuf = s.inbuf := rfl
@[simp] theorem State.recordAdvance_inLen (t : TapState) : (s.recordAdvance t).inLen = s.inLen := rfl
@[simp] theorem State.recordAdvance_lastStatus (t : TapState) : (s.recordAdvance t).lastStatus = s.lastStatus := rfl
@[simp] theorem State.recordAdvance_pins (t : TapState) : (s.recordAdvance t).pins = s.pins := rfl
@[simp] theorem State.recordAdvance_cfg (t : TapState) : (s.recordAdvance t).cfg = s.cfg := rfl
@[simp] theorem State.recordAdvance_port (t : TapState) : (s.recordAdvance t).port = s.port := rfl
@[simp] theorem State.recordAdvance_responses (t : TapState) : (s.recordAdvance t).responses = s.responses := rfl
@[simp] theorem State.recordAdvance_trace (t : TapState) : (s.recordAdvance t).trace = s.trace := rfl
@[simp] theorem State.recordAdvance_env (t : TapState) : (s.recordAdvance t).env = s.env := rfl
@[simp] theorem State.recordAdvance_pulseNo (t : TapState) : (s.recordAdvance t).pulseNo = s.pulseNo := rfl
@[simp] theorem State.recordAdvance_advanced (t : TapState) : (s.recordAdvance t).advanced = some t := rfl

/-! ### `withPort` -/

@[simp] theorem State.withPort_tap (items : List HostItem) : (s.withPort items).tap = s.tap := rfl
@[simp] theorem State.withPort_tapKnown (items : List HostItem) : (s.withPort items).tapKnown = s.tapKnown := rfl
@[simp] theorem State.withPort_busy (items : List HostItem) : (s.withPort items).busy = s.busy := rfl
@[simp] theorem State.withPort_chain (items : List HostItem) : (s.withPort items).chain = s.chain := rfl
@[simp] theorem State.withPort_chainStatus (items : List HostItem) : (s.withPort items).chainStatus = s.chainStatus := rfl
@[simp] theorem State.withPort_outbuf (items : List HostItem) : (s.withPort items).outbuf = s.outbuf := rfl
@[simp] theorem State.withPort_inbuf (items : List HostItem) : (s.withPort items).inbuf = s.inbuf := rfl
@[simp] theorem State.withPort_inLen (items : List HostItem) : (s.withPort items).inLen = s.inLen := rfl
@[simp] theorem State.withPort_lastStatus (items : List HostItem) : (s.withPort items).lastStatus = s.lastStatus := rfl
@[simp] theorem State.withPort_pins (items : List HostItem) : (s.withPort items).pins = s.pins := rfl
@[simp] theorem State.withPort_cfg (items : List HostItem) : (s.withPort items).cfg = s.cfg := rfl
@[simp] theorem State.withPort_port (items : List HostItem) : (s.withPort items).port = items := rfl
@[simp] theorem State.withPort_responses (items : List HostItem) : (s.withPort items).responses = s.responses := rfl
@[simp] theorem State.withPort_trace (items : List HostItem) : (s.withPort items).trace = s.trace := rfl
@[simp] theorem State.withPort_env (items : List HostItem) : (s.withPort items).env = s.env := rfl
@[simp] theorem State.withPort_pulseNo (items : List HostItem) : (s.withPort items).pulseNo = s.pulseNo := rfl
@[simp] theorem State.withPort_advanced (items : List HostItem) : (s.withPort items).advanced = s.advanced := rfl

end Sys2Proof.Machine
end

