-- ==== Sys2Proof/Laws/Tap.lean ====
section
/-! SUPPORT. Laws of `advance` and of the walks. -/

namespace Sys2Proof.Machine

@[simp] theorem advanceAll_nil (s : TapState) : advanceAll s [] = s := rfl

@[simp] theorem advanceAll_cons (s : TapState) (b : Bool) (bs : Bits) :
    advanceAll s (b :: bs) = advanceAll (advance s b) bs := rfl

theorem advanceAll_append (s : TapState) (as bs : Bits) :
    advanceAll s (as ++ bs) = advanceAll (advanceAll s as) bs := by
  induction as generalizing s with
  | nil => rfl
  | cons b as ih => simp [ih]

/-- R147: five TMS = 1 steps end in Reset. -/
theorem advanceAll_five (s : TapState) : advanceAll s [true, true, true, true, true] = .reset := by
  cases s <;> rfl

/-- Reset is stable under TMS = 1. -/
theorem advanceAll_reset_ones (k : Nat) : advanceAll .reset (constBits true k) = .reset := by
  induction k with
  | zero => rfl
  | succ k ih => exact ih

/-- A state that a TMS = 0 holds is held by any number of them. -/
theorem advanceAll_zeros {s : TapState} (h : advance s false = s) (k : Nat) :
    advanceAll s (constBits false k) = s := by
  induction k with
  | zero => rfl
  | succ k ih => rw [show constBits false (k + 1) = false :: constBits false k from rfl, advanceAll_cons, h, ih]

/-- A shift of n bits from a Shift state: n - 1 pulses in it, then the exit (R170). -/
theorem advanceAll_shiftTms {s : TapState} (h : advance s false = s) (n : Nat) :
    advanceAll s (shiftTms n) = advance s true := by
  rw [shiftTms, advanceAll_append, advanceAll_zeros h]
  rfl

@[simp] theorem shiftTms_length {n : Nat} (h : 1 ≤ n) : (shiftTms n).length = n := by
  simp [shiftTms, constBits]; omega

end Sys2Proof.Machine
end

