-- ==== Sys2Proof/Laws/Ops.lean ====
section
/-! SUPPORT. What the shared operations can do: pulses, walks, shifts, accepting and answering. -/

namespace Sys2Proof.Machine

variable {α β γ : Type}

@[simp] theorem Ran.bind_done (a : α) (s : State) (f : α → State → Ran β) : (Ran.done a s).bind f = f a s := rfl

@[simp] theorem Ran.bind_raised (k : Status) (s : State) (f : α → State → Ran β) :
    (Ran.raised k s : Ran α).bind f = .raised k s := rfl

theorem Ran.bind_assoc (r : Ran α) (f : α → State → Ran β) (g : β → State → Ran γ) :
    (r.bind f).bind g = r.bind fun a s => (f a s).bind g := by
  cases r <;> rfl

@[simp] theorem answer_done (n : Nat) (s : State) : answer (.done n s) = s.respond .ok n := rfl

@[simp] theorem answer_raised (k : Status) (s : State) : answer (.raised k s) = s.respond k 0 := rfl

/-! ## Pins -/

theorem Pins.afterPulse_eq (p : Pins) (tms tdi : Bool) :
    p.afterPulse tms tdi = { p with tck := false, tms := tms, tdi := tdi } := rfl

@[simp] theorem pinsAfter_nil (p : Pins) : pinsAfter p [] = p := rfl

@[simp] theorem pinsAfter_cons (p : Pins) (q : Bool × Bool) (qs : List (Bool × Bool)) :
    pinsAfter p (q :: qs) = pinsAfter (p.afterPulse q.1 q.2) qs := by
  cases h : qs.getLast? with
  | none =>
    rw [List.getLast?_eq_none_iff] at h
    subst h; rfl
  | some r =>
    have hq : (q :: qs).getLast? = some r := by
      rw [List.getLast?_cons, h]; rfl
    simp [pinsAfter, hq, h, Pins.afterPulse_eq]

@[simp] theorem pinsAfter_trst (p : Pins) (qs : List (Bool × Bool)) : (pinsAfter p qs).trst = p.trst := by
  unfold pinsAfter; split <;> rfl

/-! ## The environment's answers -/

@[simp] theorem exchange_nil (k : Nat) (e : Env) : exchange [] k e = .all [] e := rfl

/-- Pulses in two groups. -/
theorem exchange_append (ps qs : List (Bool × Bool)) (k : Nat) (e : Env) :
    exchange (ps ++ qs) k e =
      match exchange ps k e with
      | .cut bs e1 => .cut bs e1
      | .all bs e1 =>
        match exchange qs (k + ps.length) e1 with
        | .cut cs e2 => .cut (bs ++ cs) e2
        | .all cs e2 => .all (bs ++ cs) e2 := by
  induction ps generalizing k e with
  | nil => cases h : exchange qs k e <;> simp [h]
  | cons p ps ih =>
    simp only [List.cons_append, exchange]
    rcases e.answer k p.1 p.2 with ⟨_ | _, e1⟩
    · simp only [ih]
      have hk : k + 1 + ps.length = k + (p :: ps).length := by simp; omega
      rw [hk]
      cases exchange ps (k + 1) e1 with
      | cut bs e2 => rfl
      | all bs e2 =>
        simp only [PulseRun.cons]
        cases exchange qs (k + (p :: ps).length) e2 <;> rfl
    · rfl

/-- The samples of a run: one per pulse, or fewer where it was cut. -/
theorem exchange_length (ps : List (Bool × Bool)) (k : Nat) (e : Env) :
    match exchange ps k e with
    | .all bs _ => bs.length = ps.length
    | .cut bs _ => bs.length < ps.length := by
  induction ps generalizing k e with
  | nil => rfl
  | cons p ps ih =>
    simp only [exchange]
    rcases e.answer k p.1 p.2 with ⟨_ | _, e1⟩
    · have := ih (k + 1) e1
      cases h : exchange ps (k + 1) e1 <;> simp_all [PulseRun.cons]
    · simp

theorem exchange_all_length {ps : List (Bool × Bool)} {k : Nat} {e e' : Env} {bs : Bits}
    (h : exchange ps k e = .all bs e') : bs.length = ps.length := by
  have := exchange_length ps k e
  rwa [h] at this

theorem exchange_cut_length {ps : List (Bool × Bool)} {k : Nat} {e e' : Env} {bs : Bits}
    (h : exchange ps k e = .cut bs e') : bs.length < ps.length := by
  have := exchange_length ps k e
  rwa [h] at this

/-! ## The state after pulses -/

@[simp] theorem State.delivered_nil (s : State) (e : Env) : s.delivered [] [] e = { s with env := e } := by
  simp [State.delivered, tmsOf, deliveredEvents]

theorem State.delivered_cons (s : State) (p : Bool × Bool) (ps : List (Bool × Bool)) (b : Bool) (bs : Bits)
    (e1 e : Env) :
    s.delivered (p :: ps) (b :: bs) e = ((s.pulsed p.1 p.2 b e1).track p.1).delivered ps bs e := by
  simp [State.delivered, tmsOf, deliveredEvents, State.pulsed, State.track]
  omega

theorem State.cutAt_zero (s : State) (p : Bool × Bool) (ps : List (Bool × Bool)) (e : Env) :
    s.cutAt (p :: ps) [] e = (s.pulseLost p.1 p.2 e).loseTap := by
  simp [State.cutAt, State.delivered, tmsOf, deliveredEvents, State.pulseLost, State.loseTap]

theorem State.cutAt_cons (s : State) (p : Bool × Bool) (ps : List (Bool × Bool)) (b : Bool) (bs : Bits) (e1 e : Env)
    (h : bs.length < ps.length) :
    s.cutAt (p :: ps) (b :: bs) e = ((s.pulsed p.1 p.2 b e1).track p.1).cutAt ps bs e := by
  have hs : ps[bs.length]? = some ps[bs.length] := List.getElem?_eq_getElem h
  simp only [State.cutAt, List.length_cons, List.getElem?_cons_succ, hs, List.take_succ_cons]
  simp [State.delivered, tmsOf, deliveredEvents, State.pulsed, State.track, Nat.add_assoc, Nat.add_comm 1]

/-- All that pulses in a row can do: every one is answered and the state is `delivered`, or one times out and the
command ends with `BusTimeout` in the state `cutAt`. -/
theorem drive_spec (ps : List (Bool × Bool)) (s : State) :
    drive ps s =
      match s.exchange ps with
      | .all bs e => .done bs (s.delivered ps bs e)
      | .cut bs e => .raised .busTimeout (s.cutAt ps bs e) := by
  induction ps generalizing s with
  | nil => simp [drive, State.exchange]
  | cons p ps ih =>
    simp only [drive, stepTap, State.exchange, exchange]
    rcases s.env.answer s.pulseNo p.1 p.2 with ⟨b | _, e1⟩
    · have hx : ((s.pulsed p.1 p.2 b e1).track p.1).exchange ps = exchange ps (s.pulseNo + 1) e1 := rfl
      simp only [Ran.bind_done, ih, hx]
      cases h : exchange ps (s.pulseNo + 1) e1 with
      | all bs e => simp only [Ran.bind_done, PulseRun.cons, State.delivered_cons s p ps b bs e1 e]
      | cut bs e =>
        simp only [Ran.bind_raised, PulseRun.cons,
          State.cutAt_cons s p ps b bs e1 e (exchange_cut_length h)]
    · simp [State.cutAt_zero]

/-- The samples of pulses that completed are one per pulse. -/
theorem drive_done_length {ps : List (Bool × Bool)} {s u : State} {bs : Bits} (h : drive ps s = .done bs u) :
    bs.length = ps.length := by
  rw [drive_spec] at h
  cases hx : s.exchange ps with
  | all cs e =>
    rw [hx] at h
    cases h
    exact exchange_all_length hx
  | cut cs e => rw [hx] at h; cases h

/-- Two groups of pulses in a row are one. -/
theorem drive_append (ps qs : List (Bool × Bool)) (s : State) :
    drive (ps ++ qs) s =
      (drive ps s).bind fun a s1 => (drive qs s1).bind fun b s2 => .done (a ++ b) s2 := by
  induction ps generalizing s with
  | nil =>
    simp only [List.nil_append, drive, Ran.bind_done]
    cases drive qs s <;> rfl
  | cons p ps ih =>
    simp only [List.cons_append, drive, ih, Ran.bind_assoc, Ran.bind_done]

theorem drive_bind_append (ps qs : List (Bool × Bool)) (s : State) (f : Bits → Bits → State → Ran β) :
    ((drive ps s).bind fun a s1 => (drive qs s1).bind fun b s2 => f a b s2) =
      (drive (ps ++ qs) s).bind fun c s2 => f (c.take ps.length) (c.drop ps.length) s2 := by
  rw [drive_append, Ran.bind_assoc]
  cases h : drive ps s with
  | raised k u => rfl
  | done a u =>
    have ha := drive_done_length h
    simp only [Ran.bind_done, Ran.bind_assoc]
    cases drive qs u with
    | raised k u' => rfl
    | done b u' => simp [← ha]

/-! ## Walks and shifts as pulse lists -/

theorem walkPulses_eq (v : Bits) : walkPulses v = v.zip (constBits false v.length) := by
  induction v with
  | nil => rfl
  | cons b v ih => simpa [walkPulses, constBits, navTdi, List.replicate_succ] using ih

theorem shiftPulses_eq : ∀ v : Bits, v ≠ [] → shiftPulses v = (shiftTms v.length).zip v
  | [], h => absurd rfl h
  | [b], _ => rfl
  | b :: c :: v, _ => by
    rw [shiftPulses, shiftPulses_eq (c :: v) (by simp)]
    simp [shiftTms, constBits, List.replicate_succ]

@[simp] theorem walkPulses_length (v : Bits) : (walkPulses v).length = v.length := by simp [walkPulses]

@[simp] theorem shiftPulses_length : ∀ v : Bits, (shiftPulses v).length = v.length
  | [] => rfl
  | [_] => rfl
  | b :: c :: v => by rw [shiftPulses, List.length_cons, shiftPulses_length (c :: v)]; rfl

theorem tmsOf_walk (v : Bits) : tmsOf (walkPulses v) = v := by
  induction v with
  | nil => rfl
  | cons b v ih => simpa [tmsOf, walkPulses] using ih

@[simp] theorem tmsOf_append (ps qs : List (Bool × Bool)) : tmsOf (ps ++ qs) = tmsOf ps ++ tmsOf qs := by
  simp [tmsOf]

theorem tmsOf_shift {v : Bits} (h : v ≠ []) : tmsOf (shiftPulses v) = shiftTms v.length := by
  rw [shiftPulses_eq v h, tmsOf, List.map_fst_zip]
  rw [shiftTms_length (by cases v <;> simp_all)]

/-! ## The five-pulse reset -/

/-- R153, R201: the five-pulse reset completes in Reset, known, every record at its default; or it times out. -/
theorem fiveReset_spec (s : State) :
    fiveReset s =
      match s.exchange resetPlan with
      | .all bs e => .done bs (s.delivered resetPlan bs e).knowTap.resetRecords
      | .cut bs e => .raised .busTimeout (s.cutAt resetPlan bs e) := by
  have h : walkPulses resetWalk = resetPlan := rfl
  rw [fiveReset, walk, h, drive_spec]
  cases s.exchange resetPlan <;> rfl

@[simp] theorem resetPlan_tap (s : State) (bs : Bits) (e : Env) : (s.delivered resetPlan bs e).tap = .reset :=
  advanceAll_five s.tap

/-! ## Accepting and refusing -/

/-- R111 (c), (d): the refusal tests of a format-P command. -/
theorem onPart_spec (t : Nat) (s : State) (body : List Part → Part → State → Ran Nat) :
    (∃ ps p, s.chain = some ps ∧ ps[t]? = some p ∧ onPart t s body = body ps p s) ∨
      ((s.chain = none ∨ ∃ ps, s.chain = some ps ∧ ps[t]? = none) ∧ onPart t s body = .raised .refused s) := by
  unfold onPart
  cases hc : s.chain with
  | none => exact .inr ⟨.inl rfl, rfl⟩
  | some ps =>
    cases hp : ps[t]? with
    | none => exact .inr ⟨.inr ⟨ps, rfl, hp⟩, by simp [hp]⟩
    | some p => exact .inl ⟨ps, p, rfl, hp, by simp [hp]⟩

end Sys2Proof.Machine
end

