-- ==== Sys2Proof/Laws/Commands.lean ====
section
/-! SUPPORT. What the pulses of each command come to: one pulse list, and the state after it or at its first timeout. -/

namespace Sys2Proof.Machine

/-! ## Pulse lists -/

theorem walkPulses_toShiftIR : walkPulses toShiftIR = pulsesOf [true, true, false, false] [false, false, false, false] :=
  rfl

theorem walkPulses_toShiftDR : walkPulses toShiftDR = pulsesOf [true, false, false] [false, false, false] := rfl

theorem walkPulses_exitToIdle : walkPulses exitToIdle = pulsesOf [true, false] [false, false] := rfl

theorem pulsesOf_append {a b c d : Bits} (h : a.length = c.length) :
    pulsesOf (a ++ b) (c ++ d) = pulsesOf a c ++ pulsesOf b d := by
  simp only [pulsesOf]
  exact List.zip_append h

theorem shiftTms_length_of {v : Bits} (h : v ≠ []) : (shiftTms v.length).length = v.length :=
  shiftTms_length (List.length_pos_iff.2 h)

/-- An IR scan is a walk, a shift and a walk (R172). -/
theorem irScanPlan_eq {v : Bits} (h : v ≠ []) :
    irScanPlan v = walkPulses toShiftIR ++ shiftPulses v ++ walkPulses exitToIdle := by
  have hs := shiftTms_length_of h
  rw [irScanPlan, pulsesOf_append (by simp [hs]), pulsesOf_append (by rfl), shiftPulses_eq v h]
  rfl

/-- A DR scan is a walk, a shift and a walk (R175). -/
theorem drScanPlan_eq {v : Bits} (h : v ≠ []) :
    drScanPlan v = walkPulses toShiftDR ++ shiftPulses v ++ walkPulses exitToIdle := by
  have hs := shiftTms_length_of h
  rw [drScanPlan, pulsesOf_append (by simp [hs]), pulsesOf_append (by rfl), shiftPulses_eq v h]
  rfl

theorem irScanPlan_length {v : Bits} (h : v ≠ []) : (irScanPlan v).length = v.length + 6 := by
  simp [irScanPlan_eq h, toShiftIR, exitToIdle]; omega

theorem drScanPlan_length {v : Bits} (h : v ≠ []) : (drScanPlan v).length = v.length + 5 := by
  simp [drScanPlan_eq h, toShiftDR, exitToIdle]; omega

/-- An IR scan goes from Idle to Idle (R152). -/
theorem irScanPlan_tap {v : Bits} (h : v ≠ []) : advanceAll .idle (tmsOf (irScanPlan v)) = .idle := by
  rw [irScanPlan_eq h, tmsOf_append, tmsOf_append, tmsOf_walk, tmsOf_walk, tmsOf_shift h, advanceAll_append,
    advanceAll_append]
  rw [show advanceAll TapState.idle toShiftIR = .shiftIR from rfl, advanceAll_shiftTms rfl]
  rfl

/-- A DR scan goes from Idle to Idle (R152). -/
theorem drScanPlan_tap {v : Bits} (h : v ≠ []) : advanceAll .idle (tmsOf (drScanPlan v)) = .idle := by
  rw [drScanPlan_eq h, tmsOf_append, tmsOf_append, tmsOf_walk, tmsOf_walk, tmsOf_shift h, advanceAll_append,
    advanceAll_append]
  rw [show advanceAll TapState.idle toShiftDR = .shiftDR from rfl, advanceAll_shiftTms rfl]
  rfl

/-! ## Scans -/

/-- A walk, a shift and a walk, what is done after them told of all samples. -/
theorem scan_eq {β : Type} (a v b : Bits) (s : State) (f : Bits → State → Ran β) :
    ((walk a s).bind fun _ s1 => (shiftVector v s1).bind fun c s2 => (walk b s2).bind fun _ s3 => f c s3) =
      (drive (walkPulses a ++ shiftPulses v ++ walkPulses b) s).bind
        fun bits s3 => f (window bits a.length v.length) s3 := by
  unfold walk shiftVector
  rw [drive_bind_append (walkPulses a) (shiftPulses v) s
    (fun _ c s2 => (drive (walkPulses b) s2).bind fun _ s3 => f c s3)]
  rw [drive_bind_append (walkPulses a ++ shiftPulses v) (walkPulses b) s
    (fun x _ s3 => f (x.drop (walkPulses a).length) s3)]
  congr 1
  funext bits s3
  simp only [walkPulses_length, shiftPulses_length, List.length_append, window]
  rw [List.drop_take, Nat.add_sub_cancel_left]

/-- The pulses of an IR scan as SET_INSTRUCTION issues them, whatever the vector (R172). -/
def irPulses (v : Bits) : List (Bool × Bool) := walkPulses toShiftIR ++ shiftPulses v ++ walkPulses exitToIdle

/-- The pulses of SET_INSTRUCTION (R172): one IR scan, then the record; or a timeout. -/
theorem setInstructionPulses_raw (t : Nat) (name : NameId) (ps : List Part) (s : State) :
    setInstructionPulses t name ps s =
      match s.exchange (irPulses (buildIR ps t name)) with
      | .all bs e => .done 0 ((s.delivered (irPulses (buildIR ps t name)) bs e).setRecord ps t name)
      | .cut bs e => .raised .busTimeout (s.cutAt (irPulses (buildIR ps t name)) bs e) := by
  rw [setInstructionPulses, scan_eq toShiftIR _ exitToIdle s (fun _ s3 => .done 0 (s3.setRecord ps t name)),
    show walkPulses toShiftIR ++ shiftPulses (buildIR ps t name) ++ walkPulses exitToIdle =
      irPulses (buildIR ps t name) from rfl, drive_spec]
  cases s.exchange (irPulses (buildIR ps t name)) <;> rfl

/-- The same with the plan of Safety, for a vector of at least one bit. -/
theorem setInstructionPulses_spec {t : Nat} {name : NameId} {ps : List Part} (s : State)
    (h : buildIR ps t name ≠ []) :
    setInstructionPulses t name ps s =
      match s.exchange (irScanPlan (buildIR ps t name)) with
      | .all bs e => .done 0 ((s.delivered (irScanPlan (buildIR ps t name)) bs e).setRecord ps t name)
      | .cut bs e => .raised .busTimeout (s.cutAt (irScanPlan (buildIR ps t name)) bs e) := by
  rw [irScanPlan_eq h]
  exact setInstructionPulses_raw t name ps s

theorem window_window (v : Bits) (a l lo n : Nat) (h : lo + n ≤ l) :
    window (window v a l) lo n = window v (a + lo) n := by
  simp only [window]
  rw [List.drop_take, List.take_take, List.drop_drop, Nat.min_eq_left (by omega)]

theorem buildDR_ne_nil {ps : List Part} {t : Nat} {out : Bits} {p : Part} (hp : ps[t]? = some p)
    (hn : 1 ≤ out.length) : buildDR ps t out ≠ [] := by
  have h := drWindow_fits ps t out.length hp
  intro hc
  have := buildDR_length ps t out
  rw [hc] at this; simp at this; omega

theorem outBits_length (s : State) (n : Nat) : (outBits s n).length = n := by simp [outBits, bufferBits]

/-- The pulses of EXCHANGE_DATA (R175): one DR scan, then the result; or a timeout.  Sample j of the result is the
sample of pulse 3 + Lo(t) + j (R177). -/
theorem exchangeDataPulses_spec {t n : Nat} {ps : List Part} {p : Part} (s : State) (hp : ps[t]? = some p)
    (hn : 1 ≤ n) :
    exchangeDataPulses t n ps s =
      match s.exchange (drScanPlan (buildDR ps t (outBits s n))) with
      | .all bs e =>
        .done n ((s.delivered (drScanPlan (buildDR ps t (outBits s n))) bs e).storeResult
          (window bs (3 + windowLo (drWidths ps t n) t) n))
      | .cut bs e => .raised .busTimeout (s.cutAt (drScanPlan (buildDR ps t (outBits s n))) bs e) := by
  have hl := outBits_length s n
  have h : buildDR ps t (outBits s n) ≠ [] := buildDR_ne_nil hp (by omega)
  rw [exchangeDataPulses, scan_eq toShiftDR _ exitToIdle s
    (fun c s3 => .done n (s3.storeResult (window c (windowLo (drWidths ps t n) t) n))), ← drScanPlan_eq h, drive_spec]
  have hw := drWindow_fits ps t n hp
  have hb := buildDR_length ps t (outBits s n)
  rw [hl] at hb
  cases s.exchange (drScanPlan (buildDR ps t (outBits s n))) with
  | cut bs e => rfl
  | all bs e =>
    simp only [Ran.bind_done]
    rw [window_window _ _ _ _ _ (by omega)]
    rfl

/-! ## Discovery -/

/-- The pulses of DISCOVER_CHAIN after the reset: phases 2 and 3 (R202, R203). -/
def scanPlan (f m : Nat) : List (Bool × Bool) :=
  (walkPulses resetToIdle ++ walkPulses toShiftIR ++ shiftPulses (constBits flushBit f) ++ walkPulses exitToReset) ++
    (walkPulses resetToIdle ++ walkPulses toShiftDR ++ shiftPulses (constBits captureFill m) ++ walkPulses exitToIdle)

theorem constBits_ne_nil {b : Bool} {n : Nat} (h : 1 ≤ n) : constBits b n ≠ [] := by
  intro hc
  have := congrArg List.length hc
  simp at this; omega

/-- The whole of DISCOVER_CHAIN's pulses is the reset and the two scans (R200). -/
theorem discoverPlan_eq {f m : Nat} (hf : 1 ≤ f) (hm : 1 ≤ m) : discoverPlan f m = resetPlan ++ scanPlan f m := by
  have h1 := shiftPulses_eq (constBits flushBit f) (constBits_ne_nil hf)
  have h2 := shiftPulses_eq (constBits captureFill m) (constBits_ne_nil hm)
  simp only [constBits_length] at h1 h2
  have e1 : (shiftTms f).length = f := shiftTms_length hf
  have e2 : (shiftTms m).length = m := shiftTms_length hm
  have key : discoverPlan f m =
      pulsesOf (constBits true 5) (constBits false 5) ++
        pulsesOf [false, true, true, false, false] (constBits false 5) ++ pulsesOf (shiftTms f) (constBits true f) ++
        pulsesOf [true, true, true, true] (constBits false 4) ++
        pulsesOf [false, true, false, false] (constBits false 4) ++ pulsesOf (shiftTms m) (constBits false m) ++
        pulsesOf [true, false] (constBits false 2) := by
    rw [← pulsesOf_append (by rfl), ← pulsesOf_append (by rfl), ← pulsesOf_append (by simp [e1]; omega),
      ← pulsesOf_append (by simp [e1]; omega), ← pulsesOf_append (by simp [e1]; omega),
      ← pulsesOf_append (by simp [e1, e2]; omega)]
    have t10 : constBits false 10 = constBits false 5 ++ constBits false 5 := rfl
    have t8 : constBits false 8 = constBits false 4 ++ constBits false 4 := rfl
    simp only [discoverPlan, t10, t8, List.append_assoc]
  rw [key, scanPlan, h1, h2]
  simp only [flushBit, captureFill, List.append_assoc]
  rfl

theorem scanPlan_length (f m : Nat) : (scanPlan f m).length = f + m + 15 := by
  simp [scanPlan, resetToIdle, toShiftIR, exitToReset, toShiftDR, exitToIdle]; omega

/-- R211: `F + M + 20` pulses. -/
theorem discoverPlan_length {f m : Nat} (hf : 1 ≤ f) (hm : 1 ≤ m) : (discoverPlan f m).length = f + m + 20 := by
  rw [discoverPlan_eq hf hm, List.length_append, scanPlan_length]
  have : resetPlan.length = 5 := rfl
  omega

/-- Phases 2 and 3 go from Reset to Idle (R152, R202, R203). -/
theorem scanPlan_tap {f m : Nat} (hf : 1 ≤ f) (hm : 1 ≤ m) : advanceAll .reset (tmsOf (scanPlan f m)) = .idle := by
  have h1 := tmsOf_shift (constBits_ne_nil (b := flushBit) hf)
  have h2 := tmsOf_shift (constBits_ne_nil (b := captureFill) hm)
  simp only [scanPlan, tmsOf_append, tmsOf_walk, h1, h2, advanceAll_append]
  rw [show advanceAll (advanceAll TapState.reset resetToIdle) toShiftIR = .shiftIR from rfl,
    advanceAll_shiftTms (s := .shiftIR) rfl,
    show advanceAll (advanceAll (advanceAll (advance .shiftIR true) exitToReset) resetToIdle) toShiftDR = .shiftDR
      from rfl, advanceAll_shiftTms (s := .shiftDR) rfl]
  rfl

/-- Phase 2 as one pulse list (R202). -/
theorem flushPhase_eq (s : State) :
    flushPhase s =
      (drive (walkPulses resetToIdle ++ walkPulses toShiftIR ++
        shiftPulses (constBits flushBit s.cfg.irFlushLen) ++ walkPulses exitToReset) s).bind
        fun bits s3 => .done (bits.drop (s.cfg.irFlushLen + 5)) s3 := by
  have hw : ∀ u : State, walk exitToReset u = (walk exitToReset u).bind fun c s3 => .done c s3 := by
    intro u; cases walk exitToReset u <;> rfl
  simp only [flushPhase]
  simp only [walk, shiftVector] at hw ⊢
  rw [drive_bind_append (walkPulses resetToIdle) (walkPulses toShiftIR) s (fun _ _ s2 =>
    (drive (shiftPulses (constBits flushBit s.cfg.irFlushLen)) s2).bind fun _ s3 => drive (walkPulses exitToReset) s3)]
  rw [drive_bind_append (walkPulses resetToIdle ++ walkPulses toShiftIR)
    (shiftPulses (constBits flushBit s.cfg.irFlushLen)) s (fun _ _ s3 => drive (walkPulses exitToReset) s3)]
  rw [show (fun (c : Bits) (s2 : State) => drive (walkPulses exitToReset) s2) =
    fun _ s2 => (drive (walkPulses exitToReset) s2).bind fun c s3 => .done c s3 from by funext _ u; exact hw u]
  rw [drive_bind_append _ (walkPulses exitToReset) s (fun _ c s3 => .done c s3)]
  congr 1
  funext bits s3
  have hl : (walkPulses resetToIdle ++ walkPulses toShiftIR ++
      shiftPulses (constBits flushBit s.cfg.irFlushLen)).length = s.cfg.irFlushLen + 5 := by
    simp [resetToIdle, toShiftIR]; omega
  rw [hl]

/-- Phase 3 as one pulse list; the stream is the samples from pulse 4 on (R203). -/
theorem capturePhase_eq (s : State) :
    capturePhase s =
      (drive (walkPulses resetToIdle ++ walkPulses toShiftDR ++
        shiftPulses (constBits captureFill s.cfg.drCaptureLen) ++ walkPulses exitToIdle) s).bind
        fun bits s3 => .done (window bits 4 s.cfg.drCaptureLen) s3 := by
  simp only [capturePhase]
  simp only [walk, shiftVector]
  rw [drive_bind_append (walkPulses resetToIdle) (walkPulses toShiftDR) s (fun _ _ s2 =>
    (drive (shiftPulses (constBits captureFill s.cfg.drCaptureLen)) s2).bind fun c s3 =>
      (drive (walkPulses exitToIdle) s3).bind fun _ s4 => .done c s4)]
  rw [drive_bind_append (walkPulses resetToIdle ++ walkPulses toShiftDR)
    (shiftPulses (constBits captureFill s.cfg.drCaptureLen)) s (fun _ c s3 =>
      (drive (walkPulses exitToIdle) s3).bind fun _ s4 => .done c s4)]
  rw [drive_bind_append _ (walkPulses exitToIdle) s (fun x _ s4 =>
    .done (x.drop (walkPulses resetToIdle ++ walkPulses toShiftDR).length) s4)]
  congr 1
  funext bits s3
  have hl : (walkPulses resetToIdle ++ walkPulses toShiftDR).length = 4 := rfl
  simp only [List.length_append (as := walkPulses resetToIdle ++ walkPulses toShiftDR), hl, shiftPulses_length,
    constBits_length, window]
  rw [List.drop_take, Nat.add_sub_cancel_left]

@[simp] theorem State.delivered_cfg (s : State) (ps : List (Bool × Bool)) (bs : Bits) (e : Env) :
    (s.delivered ps bs e).cfg = s.cfg := rfl

/-- Pulses keep the parameters. -/
theorem drive_cfg {ps : List (Bool × Bool)} {s u : State} {bs : Bits} (h : drive ps s = .done bs u) :
    u.cfg = s.cfg := by
  rw [drive_spec] at h
  cases hx : s.exchange ps with
  | all cs e => rw [hx] at h; cases h; rfl
  | cut cs e => rw [hx] at h; cases h

/-- Phases 2 and 3 as one pulse list; the stream is the samples of pulses F + 13 to F + M + 12 of it (R211: F + 18 to
F + M + 17 of the command's). -/
theorem flushCapture_eq {β : Type} (s : State) (f : Bits → State → Ran β) :
    ((flushPhase s).bind fun _ s1 => (capturePhase s1).bind f) =
      (drive (scanPlan s.cfg.irFlushLen s.cfg.drCaptureLen) s).bind
        fun bits s3 => f (window bits (s.cfg.irFlushLen + 13) s.cfg.drCaptureLen) s3 := by
  have h : ∀ (a : Bits) (u : State), u.cfg = s.cfg → ((capturePhase u).bind f) =
      (drive (walkPulses resetToIdle ++ walkPulses toShiftDR ++
        shiftPulses (constBits captureFill s.cfg.drCaptureLen) ++ walkPulses exitToIdle) u).bind
        fun bits s3 => f (window bits 4 s.cfg.drCaptureLen) s3 := by
    intro _ u hu
    rw [capturePhase_eq, Ran.bind_assoc, hu]
    rfl
  have key := drive_bind_append
    (walkPulses resetToIdle ++ walkPulses toShiftIR ++ shiftPulses (constBits flushBit s.cfg.irFlushLen) ++
      walkPulses exitToReset)
    (walkPulses resetToIdle ++ walkPulses toShiftDR ++ shiftPulses (constBits captureFill s.cfg.drCaptureLen) ++
      walkPulses exitToIdle) s (fun _ c s3 => f (window c 4 s.cfg.drCaptureLen) s3)
  have hl : (walkPulses resetToIdle ++ walkPulses toShiftIR ++
      shiftPulses (constBits flushBit s.cfg.irFlushLen) ++ walkPulses exitToReset).length =
      s.cfg.irFlushLen + 9 := by
    simp [resetToIdle, toShiftIR, exitToReset]; omega
  rw [flushPhase_eq, Ran.bind_assoc, scanPlan]
  refine Eq.trans ?_ (key.trans ?_)
  · cases hd : drive (walkPulses resetToIdle ++ walkPulses toShiftIR ++
        shiftPulses (constBits flushBit s.cfg.irFlushLen) ++ walkPulses exitToReset) s with
    | raised k u => rfl
    | done a u => exact h a u (drive_cfg hd)
  · congr 1
    funext bits s3
    rw [hl]
    simp only [window, List.drop_drop]

/-- All that DISCOVER_CHAIN can do (R200): the reset times out; or it completes and the scans time out; or all pulses
complete and the stream is partitioned. -/
theorem discoverChainBody_spec (s : State) :
    discoverChainBody s =
      match s.exchange resetPlan with
      | .cut bs e => .raised .busTimeout (s.cutAt resetPlan bs e)
      | .all bs e =>
        let u := (s.delivered resetPlan bs e).knowTap.resetRecords
        match u.exchange (scanPlan s.cfg.irFlushLen s.cfg.drCaptureLen) with
        | .cut cs e2 => .raised .busTimeout (u.cutAt (scanPlan s.cfg.irFlushLen s.cfg.drCaptureLen) cs e2)
        | .all cs e2 =>
          installStream (window cs (s.cfg.irFlushLen + 13) s.cfg.drCaptureLen)
            (u.delivered (scanPlan s.cfg.irFlushLen s.cfg.drCaptureLen) cs e2) := by
  rw [discoverChainBody, fiveReset_spec]
  cases s.exchange resetPlan with
  | cut bs e => rfl
  | all bs e =>
    simp only [Ran.bind_done]
    rw [flushCapture_eq, drive_spec]
    simp only [State.resetRecords_cfg, State.knowTap_cfg, State.delivered_cfg]
    cases ((s.delivered resetPlan bs e).knowTap.resetRecords).exchange
      (scanPlan s.cfg.irFlushLen s.cfg.drCaptureLen) <;> rfl

end Sys2Proof.Machine
end

