-- ==== Sys2Proof/Laws/Frame.lean ====
section
/-! SUPPORT. What no command body touches, whatever becomes of its pulses: one statement for all five. -/

namespace Sys2Proof.Machine

/-- The state a computation ends in, with a value or an error. -/
def Ran.final {α : Type} : Ran α → State
  | .done _ s => s
  | .raised _ s => s

/-- What a command body keeps: the parameters, the port, OUTBUF, the status and the responses so far, the value of the
last evaluated row, TRST; and the trace is only added to, one entry per pulse started. -/
structure Kept (s u : State) : Prop where
  cfg : u.cfg = s.cfg
  port : u.port = s.port
  busy : u.busy = s.busy
  outbuf : u.outbuf = s.outbuf
  lastStatus : u.lastStatus = s.lastStatus
  responses : u.responses = s.responses
  advanced : u.advanced = s.advanced
  trst : u.pins.trst = s.pins.trst
  trace : ∃ new, u.trace = s.trace ++ new ∧ u.pulseNo = s.pulseNo + new.length

theorem Kept.refl (s : State) : Kept s s :=
  ⟨rfl, rfl, rfl, rfl, rfl, rfl, rfl, rfl, [], by simp⟩

theorem Kept.trans {s t u : State} (h : Kept s t) (k : Kept t u) : Kept s u := by
  obtain ⟨a, ha, hn⟩ := h.trace
  obtain ⟨b, hb, hm⟩ := k.trace
  exact ⟨k.cfg.trans h.cfg, k.port.trans h.port, k.busy.trans h.busy, k.outbuf.trans h.outbuf,
    k.lastStatus.trans h.lastStatus, k.responses.trans h.responses, k.advanced.trans h.advanced, k.trst.trans h.trst,
    a ++ b, by rw [hb, ha, List.append_assoc], by rw [hm, hn, List.length_append]; omega⟩

theorem Ran.bind_kept {α β : Type} {s : State} {r : Ran α} {f : α → State → Ran β} (h : Kept s r.final)
    (hf : ∀ a u, r = .done a u → Kept u (f a u).final) : Kept s (r.bind f).final := by
  cases r with
  | done a u => exact h.trans (hf a u rfl)
  | raised k u => exact h

theorem stepTap_kept (tms tdi : Bool) (s : State) : Kept s (stepTap tms tdi s).final := by
  unfold stepTap
  rcases s.env.answer s.pulseNo tms tdi with ⟨b | _, e⟩
  · exact ⟨rfl, rfl, rfl, rfl, rfl, rfl, rfl, rfl, _, rfl, rfl⟩
  · exact ⟨rfl, rfl, rfl, rfl, rfl, rfl, rfl, rfl, _, rfl, rfl⟩

theorem drive_kept (ps : List (Bool × Bool)) (s : State) : Kept s (drive ps s).final := by
  induction ps generalizing s with
  | nil => exact .refl s
  | cons p ps ih =>
    exact Ran.bind_kept (stepTap_kept _ _ s) fun _ u _ => Ran.bind_kept (ih u) fun _ v _ => .refl v

theorem State.resetRecords_kept (s : State) : Kept s s.resetRecords := ⟨rfl, rfl, rfl, rfl, rfl, rfl, rfl, rfl, [], by simp⟩

theorem State.knowTap_kept (s : State) : Kept s s.knowTap := ⟨rfl, rfl, rfl, rfl, rfl, rfl, rfl, rfl, [], by simp⟩

theorem State.setRecord_kept (s : State) (ps : List Part) (t : Nat) (name : NameId) : Kept s (s.setRecord ps t name) :=
  ⟨rfl, rfl, rfl, rfl, rfl, rfl, rfl, rfl, [], by simp⟩

theorem State.storeResult_kept (s : State) (r : Bits) : Kept s (s.storeResult r) :=
  ⟨rfl, rfl, rfl, rfl, rfl, rfl, rfl, rfl, [], by simp⟩

theorem State.install_kept (s : State) (ps : List Part) (cs : ChainStatus) : Kept s (s.install ps cs) :=
  ⟨rfl, rfl, rfl, rfl, rfl, rfl, rfl, rfl, [], by simp⟩

theorem fiveReset_kept (s : State) : Kept s (fiveReset s).final :=
  Ran.bind_kept (drive_kept _ s) fun _ u _ => u.knowTap_kept.trans u.knowTap.resetRecords_kept

theorem resetTapBody_kept (s : State) : Kept s (resetTapBody s).final :=
  Ran.bind_kept (fiveReset_kept s) fun _ u _ => .refl u

theorem enterIdleBody_kept (s : State) : Kept s (enterIdleBody s).final := by
  unfold enterIdleBody
  split
  · exact Ran.bind_kept (drive_kept _ s) fun _ u _ => .refl u
  · exact .refl s

theorem setInstructionBody_kept (t : Nat) (name : NameId) (ps : List Part) (p : Part) (s : State) :
    Kept s (setInstructionBody t name ps p s).final := by
  unfold setInstructionBody
  split
  · split
    · exact Ran.bind_kept (drive_kept _ s) fun _ u _ => Ran.bind_kept (drive_kept _ u) fun _ v _ =>
        Ran.bind_kept (drive_kept _ v) fun _ w _ => w.setRecord_kept _ _ _
    · exact .refl s
  · exact .refl s

theorem exchangeDataBody_kept (t n : Nat) (ps : List Part) (p : Part) (s : State) :
    Kept s (exchangeDataBody t n ps p s).final := by
  unfold exchangeDataBody
  split
  · split
    · split
      · exact s.storeResult_kept _
      · exact Ran.bind_kept (drive_kept _ s) fun _ u _ => Ran.bind_kept (drive_kept _ u) fun _ v _ =>
          Ran.bind_kept (drive_kept _ v) fun _ w _ => w.storeResult_kept _
    · exact .refl s
  · exact .refl s

theorem onPart_kept {t : Nat} {s : State} {body : List Part → Part → State → Ran Nat}
    (h : ∀ ps p, Kept s (body ps p s).final) : Kept s (onPart t s body).final := by
  rcases onPart_spec t s body with ⟨ps, p, _, _, hb⟩ | ⟨_, hb⟩ <;> rw [hb]
  · exact h ps p
  · exact .refl s

theorem installStream_kept (v : Bits) (s : State) : Kept s (installStream v s).final := by
  unfold installStream
  split
  · exact .refl s
  · exact s.install_kept _ _

theorem flushPhase_kept (s : State) : Kept s (flushPhase s).final :=
  Ran.bind_kept (drive_kept _ s) fun _ u _ => Ran.bind_kept (drive_kept _ u) fun _ v _ =>
    Ran.bind_kept (drive_kept _ v) fun _ w _ => drive_kept _ w

theorem capturePhase_kept (s : State) : Kept s (capturePhase s).final :=
  Ran.bind_kept (drive_kept _ s) fun _ u _ => Ran.bind_kept (drive_kept _ u) fun _ v _ =>
    Ran.bind_kept (drive_kept _ v) fun _ w _ => Ran.bind_kept (drive_kept _ w) fun _ x _ => .refl x

theorem discoverChainBody_kept (s : State) : Kept s (discoverChainBody s).final :=
  Ran.bind_kept (fiveReset_kept s) fun _ u _ => Ran.bind_kept (flushPhase_kept u) fun _ v _ =>
    Ran.bind_kept (capturePhase_kept v) fun _ w _ => installStream_kept _ w

/-- The computation a command is, before its answer. -/
def bodyOf (i : Instr) (s : State) : Ran Nat :=
  match i with
  | .resetTap => resetTapBody s
  | .enterIdle => enterIdleBody s
  | .setInstruction t name => onPart t s (setInstructionBody t name)
  | .exchangeData t n => onPart t s (exchangeDataBody t n)
  | .discoverChain => discoverChainBody s
  | _ => .done 0 s

/-- A command is its body and the answer to it. -/
theorem exec_command {i : Instr} (h : isCommand i = true) (s : State) :
    exec i s = .next (answer (bodyOf i s.accept)) := by
  cases i <;> first | rfl | cases h

theorem bodyOf_kept (i : Instr) (s : State) : Kept s (bodyOf i s).final := by
  cases i with
  | resetTap => exact resetTapBody_kept s
  | enterIdle => exact enterIdleBody_kept s
  | setInstruction t name => exact onPart_kept fun ps p => setInstructionBody_kept t name ps p s
  | exchangeData t n => exact onPart_kept fun ps p => exchangeDataBody_kept t n ps p s
  | discoverChain => exact discoverChainBody_kept s
  | _ => exact .refl s

/-- An instruction that is no command changes only the value handed to the evaluator. -/
theorem exec_row {i : Instr} (h : isCommand i = false) (s : State) : ∃ t, exec i s = .next (s.recordAdvance t) := by
  cases i <;> first | exact ⟨_, rfl⟩ | cases h

theorem Ran.bind_eq_done {α β : Type} {r : Ran α} {f : α → State → Ran β} {n : β} {u : State}
    (h : r.bind f = .done n u) : ∃ a v, r = .done a v ∧ f a v = .done n u := by
  cases r with
  | done a v => exact ⟨a, v, rfl, h⟩
  | raised k v => cases h

/-- R105: the length a command answers with. -/
theorem bodyOf_len {i : Instr} {s u : State} {len : Nat} (h : bodyOf i s = .done len u) :
    match i with
    | .exchangeData _ n => len = n
    | .discoverChain => ∃ ps, u.chain = some ps ∧ len = ps.length
    | _ => len = 0 := by
  cases i with
  | resetTap => obtain ⟨a, v, _, h2⟩ := Ran.bind_eq_done h; cases h2; rfl
  | enterIdle =>
    simp only [bodyOf, enterIdleBody] at h
    split at h
    · obtain ⟨a, v, _, h2⟩ := Ran.bind_eq_done h; cases h2; rfl
    · cases h
  | setInstruction t name =>
    simp only [bodyOf] at h
    rcases onPart_spec t s (setInstructionBody t name) with ⟨ps, p, _, _, hb⟩ | ⟨_, hb⟩ <;> rw [hb] at h
    · simp only [setInstructionBody] at h
      split at h
      · split at h
        · obtain ⟨a, v, _, h⟩ := Ran.bind_eq_done h
          obtain ⟨a, v, _, h⟩ := Ran.bind_eq_done h
          obtain ⟨a, v, _, h⟩ := Ran.bind_eq_done h
          cases h; rfl
        · cases h
      · cases h
    · cases h
  | exchangeData t n =>
    simp only [bodyOf] at h
    rcases onPart_spec t s (exchangeDataBody t n) with ⟨ps, p, _, _, hb⟩ | ⟨_, hb⟩ <;> rw [hb] at h
    · simp only [exchangeDataBody] at h
      split at h
      · split at h
        · split at h
          · rename_i h0; cases h; exact h0.symm
          · obtain ⟨a, v, _, h⟩ := Ran.bind_eq_done h
            obtain ⟨a, v, _, h⟩ := Ran.bind_eq_done h
            obtain ⟨a, v, _, h⟩ := Ran.bind_eq_done h
            cases h; rfl
        · cases h
      · cases h
    · cases h
  | discoverChain =>
    obtain ⟨a, v, _, h⟩ := Ran.bind_eq_done h
    obtain ⟨a, v, _, h⟩ := Ran.bind_eq_done h
    obtain ⟨a, v, _, h⟩ := Ran.bind_eq_done h
    simp only [installStream] at h
    split at h
    · cases h
    · cases h
      exact ⟨_, rfl, by simp [fragmentChain]⟩
  | _ => cases h; rfl

/-- A computation that raises raises an error kind or `REFUSED`, never `OK`. -/
def RaisesNotOk {α : Type} (r : Ran α) : Prop := ∀ k s, r = .raised k s → k ≠ .ok

theorem RaisesNotOk.done {α : Type} (a : α) (s : State) : RaisesNotOk (.done a s) := fun _ _ h => by cases h

theorem RaisesNotOk.raised {α : Type} {k : Status} (h : k ≠ .ok) (s : State) :
    RaisesNotOk (.raised k s : Ran α) := fun _ _ e => by cases e; exact h

theorem RaisesNotOk.bind {α β : Type} {r : Ran α} {f : α → State → Ran β} (h : RaisesNotOk r)
    (hf : ∀ a u, RaisesNotOk (f a u)) : RaisesNotOk (r.bind f) := by
  cases r with
  | done a u => exact hf a u
  | raised k u => exact .raised (h k u rfl) u

theorem drive_raises (ps : List (Bool × Bool)) (s : State) : RaisesNotOk (drive ps s) := by
  rw [drive_spec]
  cases s.exchange ps with
  | all bs e => exact .done _ _
  | cut bs e => exact .raised (by decide) _

theorem fiveReset_raises (s : State) : RaisesNotOk (fiveReset s) := (drive_raises _ s).bind fun _ _ => .done _ _

theorem onPart_raises {t : Nat} {s : State} {body : List Part → Part → State → Ran Nat}
    (h : ∀ ps p, RaisesNotOk (body ps p s)) : RaisesNotOk (onPart t s body) := by
  rcases onPart_spec t s body with ⟨ps, p, _, _, hb⟩ | ⟨_, hb⟩ <;> rw [hb]
  · exact h ps p
  · exact .raised (by decide) s

theorem partition_raises {ids : List KnownId} {v : Bits} {k : Status} (h : partition ids v = .error k) : k ≠ .ok := by
  unfold partition at h
  split at h
  · split at h
    · cases h; decide
    · split at h <;> cases h; decide
  · cases h; decide

theorem bodyOf_raises (i : Instr) (s : State) : RaisesNotOk (bodyOf i s) := by
  cases i with
  | resetTap => exact (fiveReset_raises s).bind fun _ _ => .done _ _
  | enterIdle =>
    simp only [bodyOf, enterIdleBody]
    split
    · exact (drive_raises _ s).bind fun _ _ => .done _ _
    · exact .raised (by decide) s
  | setInstruction t name =>
    refine onPart_raises fun ps p => ?_
    unfold setInstructionBody
    split
    · split
      · exact (drive_raises _ s).bind fun _ u => (drive_raises _ u).bind fun _ v => (drive_raises _ v).bind fun _ _ =>
          .done _ _
      · exact .raised (by decide) s
    · exact .raised (by decide) s
  | exchangeData t n =>
    refine onPart_raises fun ps p => ?_
    unfold exchangeDataBody
    split
    · split
      · split
        · exact .done _ _
        · exact (drive_raises _ s).bind fun _ u => (drive_raises _ u).bind fun _ v => (drive_raises _ v).bind fun _ _ =>
            .done _ _
      · exact .raised (by decide) s
    · exact .raised (by decide) s
  | discoverChain =>
    refine (fiveReset_raises s).bind fun _ u => RaisesNotOk.bind ?_ fun _ v => RaisesNotOk.bind ?_ fun _ w => ?_
    · exact (drive_raises _ u).bind fun _ a => (drive_raises _ a).bind fun _ b => (drive_raises _ b).bind fun _ c =>
        drive_raises _ c
    · exact (drive_raises _ v).bind fun _ a => (drive_raises _ a).bind fun _ b => (drive_raises _ b).bind fun _ c =>
        (drive_raises _ c).bind fun _ _ => .done _ _
    · unfold installStream
      split
      · rename_i h; exact .raised (partition_raises h) w
      · exact .done _ _
  | _ => exact .done _ _

end Sys2Proof.Machine
end

