-- ==== Sys2Proof/Laws/Inversion.lean ====
section
/-! SUPPORT. Everything a command can do, said once: the ways its body ends, with the state each leaves.  Invariants are
case analyses over this, with no pulse looked at again. -/

namespace Sys2Proof.Machine

/-! ## Small facts about what commands test -/

/-- A format-P command on a part of the chain runs its body. -/
theorem onPart_some {t : Nat} {s : State} {ps : List Part} {p : Part} {body : List Part → Part → State → Ran Nat}
    (hc : s.chain = some ps) (hp : ps[t]? = some p) : onPart t s body = body ps p s := by
  simp only [onPart, hc, hp]

theorem State.exchange_accept (s : State) (ps : List (Bool × Bool)) : s.accept.exchange ps = s.exchange ps := rfl

theorem State.idleKnown_iff (s : State) : s.idleKnown = true ↔ s.tapKnown = true ∧ s.tap = .idle := by
  simp [State.idleKnown]

theorem configWf_lens {c : Config} (h : Config.wf c = true) :
    1 ≤ c.irFlushLen ∧ 1 ≤ c.drCaptureLen ∧ knownIdsWf c.knownIds = true := by
  simp only [Config.wf, Bool.and_eq_true, decide_eq_true_eq] at h
  exact ⟨h.1.1.1.1.1, h.1.1.1.2, h.1.2⟩

theorem irResolvable_known {ps : List Part} {t : Nat} {name : NameId} (h : irResolvable ps t name = true) :
    allIrKnown ps = true := by
  simp only [irResolvable, Bool.and_eq_true] at h; exact h.1.2

/-- R171: a resolvable SET_INSTRUCTION on a well-formed chain has a vector of at least one bit. -/
theorem buildIR_ne_nil {ps : List Part} {t : Nat} {name : NameId} (h : chainWf ps = true)
    (hk : allIrKnown ps = true) : buildIR ps t name ≠ [] := by
  have h1 := buildIR_length ps t name
  have h2 := irWidths_sum_pos h hk
  intro hc; rw [hc] at h1; simp at h1; omega

theorem targetWidthFits_iff (p : Part) (n : Nat) :
    targetWidthFits p n = true ↔ ∃ c, p.current = some c ∧ (drWidth p c = none ∨ drWidth p c = some n) := by
  unfold targetWidthFits
  cases p.current with
  | none => simp
  | some c => cases h : drWidth p c <;> simp [h]

theorem othersWidthKnown_iff (ps : List Part) (t : Nat) :
    othersWidthKnown ps t = true ↔ ∀ (q : Nat) (r : Part), ps[q]? = some r → q ≠ t → recordWidth r ≠ none := by
  simp only [othersWidthKnown, List.all_eq_true]
  constructor
  · intro h q r hq hne hn
    have := h (r, q) (by rw [List.mem_zipIdx_iff_getElem?]; simpa using hq)
    simp [hne, hn] at this
  · rintro h ⟨r, q⟩ hm
    rw [List.mem_zipIdx_iff_getElem?] at hm
    by_cases hq : q = t
    · simp [hq]
    · simp [hq, Option.isSome_iff_ne_none, h q r (by simpa using hm) hq]

theorem recordsAtDefault_eq (c : Option (List Part)) : resetRecords c = recordsAtDefault c := by cases c <;> rfl

theorem boardConfig_wf : Config.wf boardConfig = true := by
  unfold boardConfig
  split
  · assumption
  · decide

/-- A timeout leaves the TAP unknown (R32, R234). -/
theorem State.cutAt_tapKnown {s : State} {ps : List (Bool × Bool)} {bs : Bits} {e : Env} (h : bs.length < ps.length) :
    (s.cutAt ps bs e).tapKnown = false := by
  simp only [State.cutAt, List.getElem?_eq_getElem h]

theorem State.cutAt_chain (s : State) (ps : List (Bool × Bool)) (bs : Bits) (e : Env) :
    (s.cutAt ps bs e).chain = s.chain := by unfold State.cutAt; split <;> rfl

theorem State.cutAt_chainStatus (s : State) (ps : List (Bool × Bool)) (bs : Bits) (e : Env) :
    (s.cutAt ps bs e).chainStatus = s.chainStatus := by unfold State.cutAt; split <;> rfl

theorem State.cutAt_inbuf (s : State) (ps : List (Bool × Bool)) (bs : Bits) (e : Env) :
    (s.cutAt ps bs e).inbuf = s.inbuf := by unfold State.cutAt; split <;> rfl

theorem State.cutAt_inLen (s : State) (ps : List (Bool × Bool)) (bs : Bits) (e : Env) :
    (s.cutAt ps bs e).inLen = s.inLen := by unfold State.cutAt; split <;> rfl

/-! ## The pins after a plan -/

theorem pinsAfter_append (pins : Pins) (ps qs : List (Bool × Bool)) :
    pinsAfter pins (ps ++ qs) = pinsAfter (pinsAfter pins ps) qs := by
  cases hq : qs.getLast? with
  | none => simp [List.getLast?_eq_none_iff.1 hq]
  | some q =>
    have : qs ≠ [] := by rintro rfl; cases hq
    simp only [pinsAfter, List.getLast?_append_of_ne_nil _ this, hq]
    cases ps.getLast? <;> rfl

theorem irScanPlan_pins {v : Bits} (h : v ≠ []) (pins : Pins) :
    pinsAfter pins (irScanPlan v) = { pins with tck := false, tms := false, tdi := false } := by
  rw [irScanPlan_eq h, pinsAfter_append]
  have := pinsAfter_trst pins (walkPulses toShiftIR ++ shiftPulses v)
  simp only [walkPulses_exitToIdle, pulsesOf, pinsAfter, List.zip_cons_cons, List.zip_nil_right] at this ⊢
  exact congrArg (fun b => Pins.mk false false false b) this

theorem drScanPlan_pins {v : Bits} (h : v ≠ []) (pins : Pins) :
    pinsAfter pins (drScanPlan v) = { pins with tck := false, tms := false, tdi := false } := by
  rw [drScanPlan_eq h, pinsAfter_append]
  have := pinsAfter_trst pins (walkPulses toShiftDR ++ shiftPulses v)
  simp only [walkPulses_exitToIdle, pulsesOf, pinsAfter, List.zip_cons_cons, List.zip_nil_right] at this ⊢
  exact congrArg (fun b => Pins.mk false false false b) this

theorem scanPlan_pins (f m : Nat) (pins : Pins) :
    pinsAfter pins (scanPlan f m) = { pins with tck := false, tms := false, tdi := false } := by
  rw [scanPlan, pinsAfter_append, pinsAfter_append]
  have := pinsAfter_trst (pinsAfter pins (walkPulses resetToIdle ++ walkPulses toShiftIR ++
    shiftPulses (constBits flushBit f) ++ walkPulses exitToReset))
    (walkPulses resetToIdle ++ walkPulses toShiftDR ++ shiftPulses (constBits captureFill m))
  rw [pinsAfter_trst pins] at this
  simp only [walkPulses_exitToIdle, pulsesOf, pinsAfter, List.zip_cons_cons, List.zip_nil_right] at this ⊢
  exact congrArg (fun b => Pins.mk false false false b) this

theorem deliveredEvents_append {ps qs : List (Bool × Bool)} {a b : Bits} (h : a.length = ps.length) :
    deliveredEvents (ps ++ qs) (a ++ b) = deliveredEvents ps a ++ deliveredEvents qs b := by
  unfold deliveredEvents; rw [List.zipWith_append h.symm]

/-! ## A run of pulses in two parts -/

theorem State.exchange_append_all {ps qs : List (Bool × Bool)} {s : State} {bits : Bits} {e : Env}
    (h : s.exchange (ps ++ qs) = .all bits e) :
    ∃ a b e1, s.exchange ps = .all a e1 ∧ Machine.exchange qs (s.pulseNo + ps.length) e1 = .all b e ∧ bits = a ++ b := by
  unfold State.exchange at *
  rw [exchange_append] at h
  cases hx : Machine.exchange ps s.pulseNo s.env with
  | cut c e1 => rw [hx] at h; cases h
  | all a e1 =>
    rw [hx] at h
    simp only at h
    cases hy : Machine.exchange qs (s.pulseNo + ps.length) e1 with
    | cut c e2 => rw [hy] at h; cases h
    | all b e2 => rw [hy] at h; cases h; exact ⟨a, b, e1, rfl, hy, rfl⟩

theorem State.exchange_append_cut {ps qs : List (Bool × Bool)} {s : State} {bits : Bits} {e : Env}
    (h : s.exchange (ps ++ qs) = .cut bits e) :
    (s.exchange ps = .cut bits e ∧ bits.length < ps.length) ∨
      ∃ a b e1, s.exchange ps = .all a e1 ∧ Machine.exchange qs (s.pulseNo + ps.length) e1 = .cut b e ∧
        bits = a ++ b ∧ a.length = ps.length ∧ b.length < qs.length := by
  unfold State.exchange at *
  rw [exchange_append] at h
  cases hx : Machine.exchange ps s.pulseNo s.env with
  | cut c e1 => rw [hx] at h; cases h; exact .inl ⟨rfl, exchange_cut_length hx⟩
  | all a e1 =>
    rw [hx] at h
    simp only at h
    cases hy : Machine.exchange qs (s.pulseNo + ps.length) e1 with
    | cut c e2 =>
      rw [hy] at h; cases h
      exact .inr ⟨a, c, e1, rfl, hy, rfl, exchange_all_length hx, exchange_cut_length hy⟩
    | all b e2 => rw [hy] at h; cases h

/-! ## How a command ends -/

/-- The state after a completed five-pulse reset (R153). -/
def State.afterReset (s : State) (bs : Bits) (e : Env) : State := (s.delivered resetPlan bs e).knowTap.resetRecords

/-- The ways the body of a command ends from state `s`. -/
inductive BodyEnd (s : State) : Instr → Ran Nat → Prop where
  /-- A test failed: no pulse, nothing written (R231 to R233, R237). -/
  | early (i : Instr) (k : Status) : BodyEnd s i (.raised k s)
  /-- A pulse timed out, no reset before it (R234). -/
  | cut (i : Instr) (plan : List (Bool × Bool)) (bs : Bits) (e : Env) (h : s.exchange plan = .cut bs e) :
    BodyEnd s i (.raised .busTimeout (s.cutAt plan bs e))
  /-- RESET_TAP completed (R153). -/
  | reset (bs : Bits) (e : Env) (h : s.exchange resetPlan = .all bs e) :
    BodyEnd s .resetTap (.done 0 (s.afterReset bs e))
  /-- ENTER_IDLE completed (R154). -/
  | idle (bs : Bits) (e : Env) (hk : s.tapKnown = true) (h : s.exchange idlePlan = .all bs e) :
    BodyEnd s .enterIdle (.done 0 (s.delivered idlePlan bs e))
  /-- SET_INSTRUCTION completed (R172). -/
  | setInstruction (t : Nat) (name : NameId) (ps : List Part) (p : Part) (bs : Bits) (e : Env)
    (hc : s.chain = some ps) (hp : ps[t]? = some p) (hk : s.tapKnown = true) (ht : s.tap = .idle)
    (hr : irResolvable ps t name = true) (h : s.exchange (irPulses (buildIR ps t name)) = .all bs e) :
    BodyEnd s (.setInstruction t name)
      (.done 0 ((s.delivered (irPulses (buildIR ps t name)) bs e).setRecord ps t name))
  /-- The empty exchange (R176). -/
  | empty (t : Nat) (ps : List Part) (p : Part) (hc : s.chain = some ps) (hp : ps[t]? = some p)
    (hk : s.tapKnown = true) (ht : s.tap = .idle) (hw : targetWidthFits p 0 = true)
    (ho : othersWidthKnown ps t = true) : BodyEnd s (.exchangeData t 0) (.done 0 (s.storeResult []))
  /-- EXCHANGE_DATA completed (R175). -/
  | exchangeData (t n : Nat) (ps : List Part) (p : Part) (bs : Bits) (e : Env) (hc : s.chain = some ps)
    (hp : ps[t]? = some p) (hk : s.tapKnown = true) (ht : s.tap = .idle) (hn : 1 ≤ n)
    (hw : targetWidthFits p n = true) (ho : othersWidthKnown ps t = true)
    (h : s.exchange (drScanPlan (buildDR ps t (outBits s n))) = .all bs e)
    (hl : (window bs (3 + windowLo (drWidths ps t n) t) n).length = n) :
    BodyEnd s (.exchangeData t n) (.done n ((s.delivered (drScanPlan (buildDR ps t (outBits s n))) bs e).storeResult
      (window bs (3 + windowLo (drWidths ps t n) t) n)))
  /-- DISCOVER_CHAIN timed out after its phase 1 (R210, R234). -/
  | discoverCut (bs : Bits) (e : Env) (cs : Bits) (e2 : Env) (h : s.exchange resetPlan = .all bs e)
    (h2 : (s.afterReset bs e).exchange (scanPlan s.cfg.irFlushLen s.cfg.drCaptureLen) = .cut cs e2) :
    BodyEnd s .discoverChain
      (.raised .busTimeout ((s.afterReset bs e).cutAt (scanPlan s.cfg.irFlushLen s.cfg.drCaptureLen) cs e2))
  /-- DISCOVER_CHAIN's pulses completed and the stream gave no chain (R235, R236). -/
  | discoverNone (bs : Bits) (e : Env) (cs : Bits) (e2 : Env) (k : Status) (h : s.exchange resetPlan = .all bs e)
    (h2 : (s.afterReset bs e).exchange (scanPlan s.cfg.irFlushLen s.cfg.drCaptureLen) = .all cs e2)
    (hp : partition s.cfg.knownIds (window cs (s.cfg.irFlushLen + 13) s.cfg.drCaptureLen) = .error k) :
    BodyEnd s .discoverChain
      (.raised k ((s.afterReset bs e).delivered (scanPlan s.cfg.irFlushLen s.cfg.drCaptureLen) cs e2))
  /-- DISCOVER_CHAIN completed (R210). -/
  | discover (bs : Bits) (e : Env) (cs : Bits) (e2 : Env) (frags : List Fragment) (h : s.exchange resetPlan = .all bs e)
    (h2 : (s.afterReset bs e).exchange (scanPlan s.cfg.irFlushLen s.cfg.drCaptureLen) = .all cs e2)
    (hp : partition s.cfg.knownIds (window cs (s.cfg.irFlushLen + 13) s.cfg.drCaptureLen) = .ok frags) :
    BodyEnd s .discoverChain (.done frags.length
      (((s.afterReset bs e).delivered (scanPlan s.cfg.irFlushLen s.cfg.drCaptureLen) cs e2).install
        (fragmentChain s.cfg.knownIds frags) (fragmentStatus frags)))

/-- Every command ends in one of these ways. -/
theorem bodyOf_end {i : Instr} (hi : isCommand i = true) (s : State) : BodyEnd s i (bodyOf i s) := by
  cases i with
  | resetTap =>
    simp only [bodyOf, resetTapBody, fiveReset_spec]
    cases h : s.exchange resetPlan with
    | all bs e => exact .reset bs e h
    | cut bs e => exact .cut _ _ bs e h
  | enterIdle =>
    simp only [bodyOf, enterIdleBody]
    split
    · next hk =>
      rw [walk, show walkPulses resetToIdle = idlePlan from rfl, drive_spec]
      cases h : s.exchange idlePlan with
      | all bs e => exact .idle bs e hk h
      | cut bs e => exact .cut _ _ bs e h
    · exact .early _ _
  | setInstruction t name =>
    simp only [bodyOf]
    rcases onPart_spec t s (setInstructionBody t name) with ⟨ps, p, hc, hp, hb⟩ | ⟨_, hb⟩ <;> rw [hb]
    · unfold setInstructionBody
      split
      · next hi =>
        obtain ⟨hk, ht⟩ := s.idleKnown_iff.1 hi
        split
        · next hr =>
          rw [setInstructionPulses_raw]
          cases h : s.exchange (irPulses (buildIR ps t name)) with
          | all bs e => exact .setInstruction t name ps p bs e hc hp hk ht hr h
          | cut bs e => exact .cut _ _ bs e h
        · exact .early _ _
      · exact .early _ _
    · exact .early _ _
  | exchangeData t n =>
    simp only [bodyOf]
    rcases onPart_spec t s (exchangeDataBody t n) with ⟨ps, p, hc, hp, hb⟩ | ⟨_, hb⟩ <;> rw [hb]
    · unfold exchangeDataBody
      split
      · next hi =>
        obtain ⟨hk, ht⟩ := s.idleKnown_iff.1 hi
        split
        · next hr =>
          simp only [Bool.and_eq_true] at hr
          split
          · next h0 => subst h0; exact .empty t ps p hc hp hk ht hr.1 hr.2
          · next h0 =>
            have hn : 1 ≤ n := by omega
            have hlo := outBits_length s n
            have hne : buildDR ps t (outBits s n) ≠ [] := buildDR_ne_nil hp (by omega)
            have hfit := drWindow_fits ps t n hp
            rw [exchangeDataPulses_spec s hp hn]
            cases h : s.exchange (drScanPlan (buildDR ps t (outBits s n))) with
            | all bs e =>
              have hbl := exchange_all_length h
              rw [drScanPlan_length hne, buildDR_length, hlo] at hbl
              exact .exchangeData t n ps p bs e hc hp hk ht hn hr.1 hr.2 h (by simp; omega)
            | cut bs e => exact .cut _ _ bs e h
        · exact .early _ _
      · exact .early _ _
    · exact .early _ _
  | discoverChain =>
    simp only [bodyOf, discoverChainBody_spec]
    cases h : s.exchange resetPlan with
    | cut bs e => exact .cut _ _ bs e h
    | all bs e =>
      simp only
      cases h2 : ((s.delivered resetPlan bs e).knowTap.resetRecords).exchange
          (scanPlan s.cfg.irFlushLen s.cfg.drCaptureLen) with
      | cut cs e2 => exact .discoverCut bs e cs e2 h h2
      | all cs e2 =>
        simp only [installStream]
        cases hp : partition s.cfg.knownIds (window cs (s.cfg.irFlushLen + 13) s.cfg.drCaptureLen) with
        | error k =>
          have hp' : partition (((s.delivered resetPlan bs e).knowTap.resetRecords).delivered
            (scanPlan s.cfg.irFlushLen s.cfg.drCaptureLen) cs e2).cfg.knownIds
            (window cs (s.cfg.irFlushLen + 13) s.cfg.drCaptureLen) = .error k := hp
          rw [hp']
          exact .discoverNone bs e cs e2 k h h2 hp
        | ok frags =>
          have hp' : partition (((s.delivered resetPlan bs e).knowTap.resetRecords).delivered
            (scanPlan s.cfg.irFlushLen s.cfg.drCaptureLen) cs e2).cfg.knownIds
            (window cs (s.cfg.irFlushLen + 13) s.cfg.drCaptureLen) = .ok frags := hp
          rw [hp']
          exact .discover bs e cs e2 frags h h2 hp
  | _ => cases hi

end Sys2Proof.Machine
end

