-- ==== Sys2Proof/Laws/Chain.lean ====
section
/-! SUPPORT. Laws of the chain table: the writes of the records keep it well formed, and every opcode of a resolvable
SET_INSTRUCTION is there and fits. -/

namespace Sys2Proof.Machine

theorem resetRecord_wf {p : Part} (h : Part.wf p = true) : Part.wf (resetRecord p) = true := by
  have hc := Part.wf_common h
  simp only [Part.wf, Bool.and_eq_true] at h ⊢
  simp only [Descriptor.wfCommon, Bool.and_eq_true] at hc
  exact ⟨⟨h.1.1, hc.1.1.1.1.2⟩, h.2⟩

/-- The five-pulse reset keeps the table well formed (R153, R36). -/
theorem resetRecords_chainWf {ps : List Part} (h : chainWf ps = true) : chainWf (ps.map resetRecord) = true := by
  simp only [chainWf, Bool.and_eq_true, List.length_map, List.all_map, List.all_eq_true] at h ⊢
  exact ⟨h.1, fun p hp => resetRecord_wf (h.2 p hp)⟩

/-- SET_INSTRUCTION keeps the table well formed (R172, R181). -/
theorem setRecord_chainWf {ps : List Part} {t : Nat} {name : NameId} {p : Part} (h : chainWf ps = true) (hp : ps[t]?
    = some p)
    (hn : isKey p.desc name = true) : chainWf (setRecord ps t name) = true := by
  have h' := h
  simp only [chainWf, Bool.and_eq_true, setRecord_length, List.all_eq_true] at h ⊢
  refine ⟨h.1, fun r hr => ?_⟩
  obtain ⟨q, hq⟩ := List.mem_iff_getElem?.1 hr
  rw [setRecord_get] at hq
  cases hpq : ps[q]? with
  | none => rw [hpq] at hq; cases hq
  | some r' =>
    rw [hpq] at hq; simp at hq; subst hq
    have hw := chainWf_part h' hpq
    split
    · rename_i hqt; subst hqt; rw [hp] at hpq; cases hpq
      simp only [Part.wf, Bool.and_eq_true] at hw ⊢
      exact ⟨⟨hw.1.1, hn⟩, hw.2⟩
    · exact hw

/-- R34: no command writes a static field. -/
theorem setRecord_descs (ps : List Part) (t : Nat) (name : NameId) : (setRecord ps t name).map Part.desc = ps.map
    Part.desc := by
  apply List.ext_getElem?
  intro q
  simp only [List.getElem?_map, setRecord_get]
  cases ps[q]? with
  | none => rfl
  | some p => simp; split <;> rfl

/-- R36 (a): an opcode is an `ir_length`-bit value. -/
theorem opcode_fits {p : Part} (h : Part.wf p = true) {l : Nat} (hl : p.desc.irLength = some l) {n : NameId} {op :
    Nat} (ho : resolve p n = some op) : op < 2 ^ l := by
  have hc := Part.wf_common h
  simp only [Descriptor.wfCommon, opcodesFit, hl, Bool.and_eq_true, List.all_eq_true, decide_eq_true_eq] at hc
  simp only [resolve, Option.map_eq_some_iff] at ho
  obtain ⟨b, hb, rfl⟩ := ho
  exact hc.1.1.1.1.1.1.2 b (List.mem_of_find?_eq_some hb)

/-- R36 (b): the bypass instruction is a key. -/
theorem bypass_key {p : Part} (h : Part.wf p = true) {n : NameId} (hn : p.desc.bypassInstruction = some n) :
    (resolve p n).isSome = true := by
  have hc := Part.wf_common h
  simp only [Descriptor.wfCommon, noneOrKey, hn, Bool.and_eq_true] at hc
  simpa [resolve, isKey] using hc.1.1.1.1.1.2

/-- All that a field of a resolvable IR vector can be (R171, R72). -/
theorem irField_cases {ps : List Part} {t : Nat} {name : NameId} (hw : chainWf ps = true) (hr : irResolvable ps t
    name = true) {q : Nat} {p : Part} (hq : ps[q]? = some p) :
   ∃ l op n, p.desc.irLength = some l ∧ irWidth p = l ∧ irField t name q p = bitsOfNat l op ∧ resolve p n = some op
    ∧ (if q = t then n = name else p.desc.bypassInstruction = some n) := by
  have hk := irResolvable_known hr
  have hp := chainWf_part hw hq
  obtain ⟨l, hl⟩ := Option.isSome_iff_exists.1 (List.all_eq_true.1 hk p (List.mem_of_getElem? hq))
  have hwd : irWidth p = l := by simp [irWidth, hl]
  simp only [irResolvable, Bool.and_eq_true] at hr
  by_cases hqt : q = t
  · subst hqt
    have h1 := hr.1.1
    simp only [targetHasName, hq] at h1
    obtain ⟨op, ho⟩ : ∃ op, resolve p name = some op := Option.isSome_iff_exists.1 (by simpa [resolve, isKey] using h1)
    exact ⟨l, op, name, hl, hwd, by simp [irField, irOpcode, ho, hwd], ho, by simp⟩
  · have h1 := List.all_eq_true.1 hr.2 (p, q) (by rw [List.mem_zipIdx_iff_getElem?]; simpa using hq)
    simp [hqt] at h1
    obtain ⟨bn, hbn⟩ := Option.isSome_iff_exists.1 h1
    obtain ⟨op, ho⟩ := Option.isSome_iff_exists.1 (bypass_key hp hbn)
    exact ⟨l, op, bn, hl, hwd, by simp [irField, irOpcode, ho, hwd, hqt, hbn], ho, by simp [hqt, hbn]⟩

end Sys2Proof.Machine
end

