-- ==== Sys2Proof/Laws/Decode.lean ====
section
/-! SUPPORT. Laws of the command word: its fields as numbers, and all that the decoder can answer. -/

namespace Sys2Proof

/-- A command word as a number (R100). -/
theorem commandWord_toNat (op : BitVec 4) (p a : Nat) (hp : p < 2^12) (ha : a < 2^16) :
    (commandWord op p a).toNat = op.toNat * 2^28 + p * 2^16 + a := by
  have e1 : (BitVec.ofNat 12 p).toNat = p := by rw [BitVec.toNat_ofNat]; exact Nat.mod_eq_of_lt hp
  have e2 : (BitVec.ofNat 16 a).toNat = a := by rw [BitVec.toNat_ofNat]; exact Nat.mod_eq_of_lt ha
  unfold commandWord
  rw [BitVec.toNat_append, BitVec.toNat_append, e1, e2]
  rw [← Nat.shiftLeft_add_eq_or_of_lt ha, ← Nat.shiftLeft_add_eq_or_of_lt hp]
  simp only [Nat.shiftLeft_eq]
  ring

theorem opField_toNat (cw : Word) : (opField cw).toNat = cw.toNat / 2^28 := by
  simp only [opField, BitVec.extractLsb'_toNat, Nat.shiftRight_eq_div_pow]
  have := cw.isLt
  omega

theorem partField_eq (cw : Word) : partField cw = cw.toNat / 2^16 % 2^12 := by
  simp only [partField, BitVec.extractLsb'_toNat, Nat.shiftRight_eq_div_pow]

theorem argField_eq (cw : Word) : argField cw = cw.toNat % 2^16 := by
  simp only [argField, BitVec.extractLsb'_toNat, Nat.shiftRight_zero]

theorem formatZ_iff (cw : Word) : formatZ cw = true ↔ cw.toNat % 2^28 = 0 := by
  simp only [formatZ, beq_iff_eq, ← BitVec.toNat_inj, BitVec.extractLsb'_toNat, Nat.shiftRight_zero]
  simp

/-- Everything the command word decoder can answer (R103), by the number of the word. -/
theorem decodeCommand_cases (cw : Word) :
    (cw.toNat = 1 * 2^28 ∧ decodeCommand cw = .ok .resetTap) ∨
    (cw.toNat = 2 * 2^28 ∧ decodeCommand cw = .ok .enterIdle) ∨
    (cw.toNat / 2^28 = 3 ∧ decodeCommand cw = .ok (.setInstruction (partField cw) (argField cw))) ∨
    (cw.toNat / 2^28 = 4 ∧ decodeCommand cw = .ok (.exchangeData (partField cw) (argField cw))) ∨
    (cw.toNat = 5 * 2^28 ∧ decodeCommand cw = .ok .discoverChain) ∨
    ((∃ r, decodeCommand cw = .error r) ∧ cw.toNat ≠ 1 * 2^28 ∧ cw.toNat ≠ 2 * 2^28 ∧ cw.toNat / 2^28 ≠ 3 ∧
      cw.toNat / 2^28 ≠ 4 ∧ cw.toNat ≠ 5 * 2^28) := by
  have ho := opField_toNat cw
  have hz := formatZ_iff cw
  unfold decodeCommand
  split <;> rename_i h
  · rw [ho] at h
    unfold decodeZ
    by_cases hf : formatZ cw = true
    · exact .inl ⟨by have := hz.1 hf; omega, by simp [hf]⟩
    · refine .inr <| .inr <| .inr <| .inr <| .inr ⟨⟨_, by simp only [hf]; rfl⟩, ?_⟩
      have : cw.toNat % 2^28 ≠ 0 := fun hh => hf (hz.2 hh)
      omega
  · rw [ho] at h
    unfold decodeZ
    by_cases hf : formatZ cw = true
    · exact .inr <| .inl ⟨by have := hz.1 hf; omega, by simp [hf]⟩
    · refine .inr <| .inr <| .inr <| .inr <| .inr ⟨⟨_, by simp only [hf]; rfl⟩, ?_⟩
      have : cw.toNat % 2^28 ≠ 0 := fun hh => hf (hz.2 hh)
      omega
  · rw [ho] at h; exact .inr <| .inr <| .inl ⟨h, rfl⟩
  · rw [ho] at h; exact .inr <| .inr <| .inr <| .inl ⟨h, rfl⟩
  · rw [ho] at h
    unfold decodeZ
    by_cases hf : formatZ cw = true
    · exact .inr <| .inr <| .inr <| .inr <| .inl ⟨by have := hz.1 hf; omega, by simp [hf]⟩
    · refine .inr <| .inr <| .inr <| .inr <| .inr ⟨⟨_, by simp only [hf]; rfl⟩, ?_⟩
      have : cw.toNat % 2^28 ≠ 0 := fun hh => hf (hz.2 hh)
      omega
  · rename_i h1 h2 h3 h4 h5
    refine .inr <| .inr <| .inr <| .inr <| .inr ⟨⟨_, rfl⟩, ?_⟩
    rw [ho] at h2 h3 h4 h5 h
    simp only [imp_false] at h2 h3 h4 h5 h
    omega

/-- R103's masks: the top four bits of a word. -/
theorem and_mask (cw : Word) (k : Nat) (hk : k < 16) : cw &&& 0xF0000000#32 = BitVec.ofNat 32 (k * 2^28) ↔ cw.toNat
    / 2^28 = k := by
  have e : cw &&& 0xF0000000#32 = (cw >>> 28) <<< 28 := by
    apply BitVec.eq_of_getLsbD_eq
    intro i hi
    have : (0xF0000000#32).getLsbD i = decide (28 ≤ i ∧ i < 32) := by
      interval_cases i <;> rfl
    rw [BitVec.getLsbD_and, this]
    by_cases h : i < 28
    · simp [h]
    · have h2 : 28 ≤ i := by omega
      simp [h, h2, hi, show 28 + (i - 28) = i by omega]
  rw [e, ← BitVec.toNat_inj]
  have := cw.isLt
  simp [Nat.shiftRight_eq_div_pow, Nat.shiftLeft_eq]
  rw [Nat.mod_eq_of_lt (a := k * 268435456) (by omega)]
  omega

end Sys2Proof
end

