-- ==== Sys2Proof/Laws/Synth.lean ====
section
/-! SUPPORT. Laws of the reference environment (R83 to R87): what an IR scan and a DR scan do to a synthetic chain. -/

namespace Sys2Proof.Machine

/-! ## Pulses in a row -/

/-- The synthetic chain under pulses that all complete: the samples and the chain after them. -/
def synthRun : List (Bool × Bool) → SynthChain → Bits × SynthChain
  | [], c => ([], c)
  | p :: ps, c =>
    let r := c.pulse p.1 p.2
    let q := synthRun ps r.2
    (r.1 :: q.1, q.2)

/-- Pulses that a synthetic chain answers are answered as it runs. -/
theorem exchange_synth {ps : List (Bool × Bool)} {k : Nat} {c : SynthChain} {ts : List Nat} {bs : Bits} {e : Env}
    (h : exchange ps k (.synth c ts) = .all bs e) :
    bs = (synthRun ps c).1 ∧ e = .synth (synthRun ps c).2 ts := by
  induction ps generalizing k c bs e with
  | nil => cases h; exact ⟨rfl, rfl⟩
  | cons p ps ih =>
    simp only [exchange, Env.answer] at h
    by_cases hk : ts.contains k = true
    · rw [if_pos hk] at h; cases h
    · rw [if_neg hk] at h
      simp only at h
      cases hx : exchange ps (k + 1) (.synth (c.pulse p.1 p.2).2 ts) with
      | cut cs e2 => rw [hx] at h; cases h
      | all cs e2 =>
        rw [hx] at h; cases h
        obtain ⟨h1, h2⟩ := ih hx
        exact ⟨by simp [synthRun, h1], by simp [synthRun, h2]⟩

/-- Without timeouts every pulse is answered (R85). -/
theorem exchange_synth_nil (ps : List (Bool × Bool)) (k : Nat) (c : SynthChain) :
    exchange ps k (.synth c []) = .all (synthRun ps c).1 (.synth (synthRun ps c).2 []) := by
  induction ps generalizing k c with
  | nil => rfl
  | cons p ps ih =>
    simp only [exchange, Env.answer]
    rw [if_neg (by simp)]
    simp only [ih]
    rfl

theorem synthRun_append (ps qs : List (Bool × Bool)) (c : SynthChain) :
    synthRun (ps ++ qs) c =
      ((synthRun ps c).1 ++ (synthRun qs (synthRun ps c).2).1, (synthRun qs (synthRun ps c).2).2) := by
  induction ps generalizing c with
  | nil => rfl
  | cons p ps ih => simp [synthRun, ih]

theorem synthRun_length (ps : List (Bool × Bool)) (c : SynthChain) : (synthRun ps c).1.length = ps.length := by
  induction ps generalizing c with
  | nil => rfl
  | cons p ps ih => simp [synthRun, ih]

/-! ## Cutting a path into fields -/

theorem pathOf_cons (f : Bits) (fs : List Bits) : pathOf (f :: fs) = pathOf fs ++ f := by simp [pathOf]

theorem pathOf_length (fs : List Bits) : (pathOf fs).length = (fs.map List.length).sum := joinFields_length fs

theorem cutPath_lengths (ws : List Nat) (path : Bits) (h : ws.sum ≤ path.length) :
    (cutPath ws path).map List.length = ws := by
  induction ws with
  | nil => rfl
  | cons w ws ih =>
    rw [List.sum_cons] at h
    rw [cutPath, List.map_cons, ih (by omega), window_length, Nat.min_eq_left (by omega)]

theorem pathOf_cutPath_take (ws : List Nat) (path : Bits) : pathOf (cutPath ws path) = path.take ws.sum := by
  induction ws with
  | nil => simp [cutPath, pathOf]
  | cons w ws ih =>
    rw [cutPath, pathOf_cons, ih, window, List.sum_cons, Nat.add_comm w, List.take_add]

/-- Cutting loses nothing. -/
theorem pathOf_cutPath {ws : List Nat} {path : Bits} (h : ws.sum = path.length) : pathOf (cutPath ws path) = path := by
  rw [pathOf_cutPath_take, h, List.take_length]

theorem cutPath_append_right (ws : List Nat) (a b : Bits) (h : ws.sum ≤ a.length) :
    cutPath ws (a ++ b) = cutPath ws a := by
  induction ws with
  | nil => rfl
  | cons w ws ih =>
    rw [List.sum_cons] at h
    rw [cutPath, cutPath, ih (by omega), window_append_left _ _ _ _ (by omega)]

/-- Cutting a path at its fields' widths gives the fields. -/
theorem cutPath_pathOf (fs : List Bits) : cutPath (fs.map List.length) (pathOf fs) = fs := by
  induction fs with
  | nil => rfl
  | cons f fs ih =>
    have hl := pathOf_length fs
    rw [List.map_cons, cutPath, pathOf_cons, cutPath_append_right _ _ _ (by omega), ih]
    congr 1
    rw [window, ← hl, List.drop_left, List.take_length]

theorem shiftPath_of_ne_nil {path : Bits} (h : path ≠ []) (b : Bool) : shiftPath path b = path.drop 1 ++ [b] := by
  cases path with
  | nil => exact absurd rfl h
  | cons x xs => rfl

theorem shiftPath_length (path : Bits) (b : Bool) : (shiftPath path b).length = path.length := by simp [shiftPath]

/-! ## Fields of a chain -/

theorem zipWith_length_of {α : Type} (ps : List α) (fs : List Bits) (g : α → Bits → α) (h : fs.length = ps.length) :
    (List.zipWith g ps fs).length = ps.length := by simp [h]

theorem irFields_withIrFields (c : SynthChain) (fs : List Bits) (h : fs.length = c.parts.length) :
    irFields (withIrFields c fs) = fs := by
  obtain ⟨tau, parts⟩ := c
  simp only [irFields, withIrFields] at h ⊢
  induction parts generalizing fs with
  | nil => cases fs <;> simp_all
  | cons p parts ih =>
    cases fs with
    | nil => simp at h
    | cons f fs => simpa using ih fs (by simpa using h)

theorem withIrFields_withIrFields (c : SynthChain) (fs gs : List Bits) (h : fs.length = c.parts.length) :
    withIrFields (withIrFields c fs) gs = withIrFields c gs := by
  obtain ⟨tau, parts⟩ := c
  simp only [withIrFields, SynthChain.mk.injEq, true_and] at h ⊢
  induction parts generalizing fs gs with
  | nil => simp
  | cons p parts ih =>
    cases fs with
    | nil => simp at h
    | cons f fs =>
      cases gs with
      | nil => simp
      | cons g gs => simpa using ih fs gs (by simpa using h)

theorem drFields_withDrFields (c : SynthChain) (fs : List Bits) (h : fs.length = c.parts.length) :
    drFields (withDrFields c fs) = fs := by
  obtain ⟨tau, parts⟩ := c
  simp only [drFields, withDrFields] at h ⊢
  induction parts generalizing fs with
  | nil => cases fs <;> simp_all
  | cons p parts ih =>
    cases fs with
    | nil => simp at h
    | cons f fs => simpa using ih fs (by simpa using h)

theorem withDrFields_withDrFields (c : SynthChain) (fs gs : List Bits) (h : fs.length = c.parts.length) :
    withDrFields (withDrFields c fs) gs = withDrFields c gs := by
  obtain ⟨tau, parts⟩ := c
  simp only [withDrFields, SynthChain.mk.injEq, true_and] at h ⊢
  induction parts generalizing fs gs with
  | nil => simp
  | cons p parts ih =>
    cases fs with
    | nil => simp at h
    | cons f fs =>
      cases gs with
      | nil => simp
      | cons g gs => simpa using ih fs gs (by simpa using h)

/-! ## Shifts -/

theorem cutPath_count (ws : List Nat) (path : Bits) : (cutPath ws path).length = ws.length := by
  induction ws with
  | nil => rfl
  | cons w ws ih => simp [cutPath, ih]

/-- One pulse in ShiftIR (R84): the head of the path is sampled, the path shifts by one. -/
theorem pulse_shiftIR {c : SynthChain} (hc : c.tau = .shiftIR) {x : Bool} {xs : Bits}
    (hp : pathOf (irFields c) = x :: xs) (tms tdi : Bool) :
    c.pulse tms tdi =
      (x, { withIrFields c (cutPath ((irFields c).map List.length) (xs ++ [tdi])) with
            tau := if tms then .exit1IR else .shiftIR }) := by
  have h1 : synthSample c tdi = x := by simp [synthSample, hc, hp]
  have h2 : synthEdge c tdi = withIrFields c (cutPath ((irFields c).map List.length) (xs ++ [tdi])) := by
    simp [synthEdge, hc, synthShiftIR, hp, shiftPath]
  rw [SynthChain.pulse, h1, h2]
  have h3 : (withIrFields c (cutPath ((irFields c).map List.length) (xs ++ [tdi]))).tau = .shiftIR := hc
  simp only [synthEnter, h3]
  cases tms <;> rfl

/-- One pulse in ShiftDR (R84). -/
theorem pulse_shiftDR {c : SynthChain} (hc : c.tau = .shiftDR) {x : Bool} {xs : Bits}
    (hp : pathOf (drFields c) = x :: xs) (tms tdi : Bool) :
    c.pulse tms tdi =
      (x, { withDrFields c (cutPath ((drFields c).map List.length) (xs ++ [tdi])) with
            tau := if tms then .exit1DR else .shiftDR }) := by
  have h1 : synthSample c tdi = x := by simp [synthSample, hc, hp]
  have h2 : synthEdge c tdi = withDrFields c (cutPath ((drFields c).map List.length) (xs ++ [tdi])) := by
    simp [synthEdge, hc, synthShiftDR, hp, shiftPath]
  rw [SynthChain.pulse, h1, h2]
  have h3 : (withDrFields c (cutPath ((drFields c).map List.length) (xs ++ [tdi]))).tau = .shiftDR := hc
  simp only [synthEnter, h3]
  cases tms <;> rfl

/-- Shifting v through an IR path at least as long (R70): the samples are the path's first bits, v follows its rest. -/
theorem synthRun_shiftIR : ∀ (v : Bits) (c : SynthChain), v ≠ [] → c.tau = .shiftIR →
    v.length ≤ (pathOf (irFields c)).length →
    synthRun (shiftPulses v) c =
      ((pathOf (irFields c)).take v.length,
        { withIrFields c (cutPath ((irFields c).map List.length) ((pathOf (irFields c)).drop v.length ++ v)) with
          tau := .exit1IR })
  | [], _, h, _, _ => absurd rfl h
  | [b], c, _, hc, hl => by
    cases hp : pathOf (irFields c) with
    | nil => rw [hp] at hl; simp at hl
    | cons x xs => simp [shiftPulses, synthRun, pulse_shiftIR hc hp]
  | b :: d :: v, c, _, hc, hl => by
    cases hp : pathOf (irFields c) with
    | nil => rw [hp] at hl; simp at hl
    | cons x xs =>
      rw [hp] at hl
      have hx : ((irFields c).map List.length).sum = (xs ++ [b]).length := by
        rw [← pathOf_length, hp]; simp
      rw [shiftPulses, synthRun, pulse_shiftIR hc hp]
      have hcount : (cutPath ((irFields c).map List.length) (xs ++ [b])).length = c.parts.length := by
        rw [cutPath_count]; simp [irFields]
      generalize hc1 : ({ withIrFields c (cutPath ((irFields c).map List.length) (xs ++ [b])) with
        tau := if false = true then TapState.exit1IR else .shiftIR } : SynthChain) = c1
      have hf : irFields c1 = cutPath ((irFields c).map List.length) (xs ++ [b]) := by
        rw [← hc1]; exact irFields_withIrFields c _ hcount
      have hpath : pathOf (irFields c1) = xs ++ [b] := by rw [hf, pathOf_cutPath hx]
      have ht : c1.tau = .shiftIR := by rw [← hc1]; rfl
      have hw : (irFields c1).map List.length = (irFields c).map List.length := by
        rw [hf, cutPath_lengths _ _ (by omega)]
      have ih := synthRun_shiftIR (d :: v) c1 (by simp) ht (by rw [hpath]; simp at hl ⊢; omega)
      rw [ih, hpath, hw]
      have hlen : (d :: v).length ≤ xs.length := by simpa using hl
      have hww : withIrFields c1 (cutPath ((irFields c).map List.length) ((xs ++ [b]).drop (d :: v).length ++ d :: v)) =
          { withIrFields c (cutPath ((irFields c).map List.length) ((xs ++ [b]).drop (d :: v).length ++ d :: v)) with
            tau := .shiftIR } := by
        have := withIrFields_withIrFields c (cutPath ((irFields c).map List.length) (xs ++ [b]))
          (cutPath ((irFields c).map List.length) ((xs ++ [b]).drop (d :: v).length ++ d :: v)) hcount
        rw [← this, ← hc1]
        rfl
      rw [hww]
      simp only [List.length_cons, List.take_succ_cons, List.drop_succ_cons]
      rw [List.take_append_of_le_length (by simpa using hlen), List.drop_append_of_le_length (by simpa using hlen)]
      simp

/-- Shifting v through a DR path at least as long (R70). -/
theorem synthRun_shiftDR : ∀ (v : Bits) (c : SynthChain), v ≠ [] → c.tau = .shiftDR →
    v.length ≤ (pathOf (drFields c)).length →
    synthRun (shiftPulses v) c =
      ((pathOf (drFields c)).take v.length,
        { withDrFields c (cutPath ((drFields c).map List.length) ((pathOf (drFields c)).drop v.length ++ v)) with
          tau := .exit1DR })
  | [], _, h, _, _ => absurd rfl h
  | [b], c, _, hc, hl => by
    cases hp : pathOf (drFields c) with
    | nil => rw [hp] at hl; simp at hl
    | cons x xs => simp [shiftPulses, synthRun, pulse_shiftDR hc hp]
  | b :: d :: v, c, _, hc, hl => by
    cases hp : pathOf (drFields c) with
    | nil => rw [hp] at hl; simp at hl
    | cons x xs =>
      rw [hp] at hl
      have hx : ((drFields c).map List.length).sum = (xs ++ [b]).length := by
        rw [← pathOf_length, hp]; simp
      rw [shiftPulses, synthRun, pulse_shiftDR hc hp]
      have hcount : (cutPath ((drFields c).map List.length) (xs ++ [b])).length = c.parts.length := by
        rw [cutPath_count]; simp [drFields]
      generalize hc1 : ({ withDrFields c (cutPath ((drFields c).map List.length) (xs ++ [b])) with
        tau := if false = true then TapState.exit1DR else .shiftDR } : SynthChain) = c1
      have hf : drFields c1 = cutPath ((drFields c).map List.length) (xs ++ [b]) := by
        rw [← hc1]; exact drFields_withDrFields c _ hcount
      have hpath : pathOf (drFields c1) = xs ++ [b] := by rw [hf, pathOf_cutPath hx]
      have ht : c1.tau = .shiftDR := by rw [← hc1]; rfl
      have hw : (drFields c1).map List.length = (drFields c).map List.length := by
        rw [hf, cutPath_lengths _ _ (by omega)]
      have ih := synthRun_shiftDR (d :: v) c1 (by simp) ht (by rw [hpath]; simp at hl ⊢; omega)
      rw [ih, hpath, hw]
      have hlen : (d :: v).length ≤ xs.length := by simpa using hl
      have hww : withDrFields c1 (cutPath ((drFields c).map List.length) ((xs ++ [b]).drop (d :: v).length ++ d :: v)) =
          { withDrFields c (cutPath ((drFields c).map List.length) ((xs ++ [b]).drop (d :: v).length ++ d :: v)) with
            tau := .shiftDR } := by
        have := withDrFields_withDrFields c (cutPath ((drFields c).map List.length) (xs ++ [b]))
          (cutPath ((drFields c).map List.length) ((xs ++ [b]).drop (d :: v).length ++ d :: v)) hcount
        rw [← this, ← hc1]
        rfl
      rw [hww]
      simp only [List.length_cons, List.take_succ_cons, List.drop_succ_cons]
      rw [List.take_append_of_le_length (by simpa using hlen), List.drop_append_of_le_length (by simpa using hlen)]
      simp

/-! ## Scans from Idle to Idle -/

/-- The chain after an IR scan that places one field in each part: every part has its field in its IR cells and has
latched it (R84). -/
theorem synthRun_irScan (c : SynthChain) (hc : c.tau = .idle) (fs : List Bits)
    (hf : fs.map List.length = c.parts.map (fun p => p.desc.irLength.getD 0)) (hne : pathOf fs ≠ []) :
    (synthRun (irScanPlan (pathOf fs)) c).2 =
      { tau := .idle,
        parts := List.zipWith (fun p f => synthUpdateIR { p with irCells := f }) c.parts fs } := by
  obtain ⟨tau, parts⟩ := c
  simp only at hc hf
  subst hc
  have hlen : fs.length = parts.length := by simpa using congrArg List.length hf
  rw [irScanPlan_eq hne, synthRun_append, synthRun_append]
  generalize hc1 : (synthRun (walkPulses toShiftIR) ⟨.idle, parts⟩).2 = c1
  have hc1' : c1 = ⟨.shiftIR, parts.map synthCaptureIR⟩ := by rw [← hc1]; rfl
  have hw : (irFields c1).map List.length = fs.map List.length := by
    rw [hc1', hf]
    simp [irFields, synthCaptureIR, Function.comp_def]
  have hpl : (pathOf (irFields c1)).length = (pathOf fs).length := by rw [pathOf_length, pathOf_length, hw]
  rw [synthRun_shiftIR (pathOf fs) c1 hne (by rw [hc1']) (by omega), hw]
  rw [List.drop_eq_nil_of_le (by omega), List.nil_append, cutPath_pathOf, hc1']
  simp only [walkPulses_exitToIdle, pulsesOf, List.zip_cons_cons, List.zip_nil_right, synthRun, withIrFields]
  have hz : List.map synthUpdateIR (List.zipWith (fun p f => { p with irCells := f }) (parts.map synthCaptureIR) fs) =
      List.zipWith (fun p f => synthUpdateIR { p with irCells := f }) parts fs := by
    rw [List.map_zipWith, List.zipWith_map_left]
    rfl
  simp only [SynthChain.pulse, synthEdge, synthEnter, advance, rowExit1IR, rowUpdateIR, if_true, hz]
  rfl

/-- What a DR scan captures: the fields the devices load at Capture-DR (R84). -/
def capturedFields (c : SynthChain) : List Bits := c.parts.map (fun p => (synthCaptureDR p).drCells)

/-- The samples of a DR scan and the chain after it (R84): the captured fields come out, the fields shifted in are in
the DR cells and have been latched. -/
theorem synthRun_drScan (c : SynthChain) (hc : c.tau = .idle) (fs : List Bits)
    (hf : fs.map List.length = (capturedFields c).map List.length) (hne : pathOf fs ≠ []) :
    window (synthRun (drScanPlan (pathOf fs)) c).1 3 (pathOf fs).length = pathOf (capturedFields c) ∧
      (synthRun (drScanPlan (pathOf fs)) c).2 =
        { tau := .idle,
          parts := List.zipWith (fun p f => synthUpdateDR { p with drCells := f }) c.parts fs } := by
  obtain ⟨tau, parts⟩ := c
  simp only at hc
  subst hc
  have hlen : fs.length = parts.length := by
    have := congrArg List.length hf
    simpa [capturedFields] using this
  rw [drScanPlan_eq hne, synthRun_append, synthRun_append]
  have hb : (synthRun (walkPulses toShiftDR) ⟨.idle, parts⟩).1.length = 3 := by rw [synthRun_length]; rfl
  generalize (synthRun (walkPulses toShiftDR) ⟨.idle, parts⟩).1 = a at hb
  generalize hc1 : (synthRun (walkPulses toShiftDR) ⟨.idle, parts⟩).2 = c1
  have hc1' : c1 = ⟨.shiftDR, parts.map synthCaptureDR⟩ := by rw [← hc1]; rfl
  have hcap : drFields c1 = capturedFields ⟨.idle, parts⟩ := by
    rw [hc1']; simp [drFields, capturedFields, Function.comp_def]
  have hpl : (pathOf (capturedFields ⟨.idle, parts⟩)).length = (pathOf fs).length := by
    rw [pathOf_length, pathOf_length, hf]
  rw [synthRun_shiftDR (pathOf fs) c1 hne (by rw [hc1']) (by rw [hcap]; omega), hcap]
  rw [List.drop_eq_nil_of_le (by omega), List.take_of_length_le (by omega), List.nil_append]
  constructor
  · have := window_middle a (pathOf (capturedFields ⟨.idle, parts⟩))
      (synthRun (walkPulses exitToIdle) ⟨.exit1DR, (withDrFields c1
        (cutPath ((capturedFields ⟨.idle, parts⟩).map List.length) (pathOf fs))).parts⟩).1 0 (pathOf fs).length (by omega)
    rw [hb] at this
    rw [show (3 : Nat) = 3 + 0 from rfl, this, window, List.drop_zero, ← hpl, List.take_length]
  · rw [← hf, cutPath_pathOf, hc1']
    simp only [walkPulses_exitToIdle, pulsesOf, List.zip_cons_cons, List.zip_nil_right, synthRun, withDrFields]
    have hz : List.map synthUpdateDR (List.zipWith (fun p f => { p with drCells := f }) (parts.map synthCaptureDR) fs) =
        List.zipWith (fun p f => synthUpdateDR { p with drCells := f }) parts fs := by
      rw [List.map_zipWith, List.zipWith_map_left]
      rfl
    simp only [SynthChain.pulse, synthEdge, synthEnter, advance, rowExit1DR, rowUpdateDR, if_true, hz]
    rfl

end Sys2Proof.Machine
end

