-- ==== Sys2Proof/Laws/Devices.lean ====
section
/-! SUPPORT. Laws of the reference environment beside the chain table: the devices' TAP state is tracked, a shifted-in
opcode latches its name, and a description stays true. -/

namespace Sys2Proof.Machine

/-- The devices follow `advance` (R84). -/
theorem synthPulse_tau (c : SynthChain) (tms tdi : Bool) : (c.pulse tms tdi).2.tau = advance c.tau tms := by
  have hedge : (synthEdge c tdi).tau = c.tau := by unfold synthEdge; split <;> rfl
  simp only [SynthChain.pulse, synthEnter, hedge]
  generalize advance c.tau tms = a
  cases a <;> rfl

theorem synthRun_tau (ps : List (Bool × Bool)) (c : SynthChain) : (synthRun ps c).2.tau = advanceAll c.tau (tmsOf
    ps) := by
  induction ps generalizing c with
  | nil => rfl
  | cons p ps ih =>
    simp only [synthRun, ih, synthPulse_tau]; rfl

/-- One step keeps the tracking (R45, R150). -/
theorem stepTap_phys {s : State} {tms tdi : Bool} (h : ∀ τ, s.env.physTap = some τ → s.tapKnown = true → τ = s.tap)
    : ∀ τ, (stepTap tms tdi s).final.env.physTap = some τ → (stepTap tms tdi s).final.tapKnown = true → τ = (stepTap
    tms tdi s).final.tap := by
  unfold stepTap
  cases he : s.env with
  | script l =>
    cases l with
    | nil => 
      simp only [Env.answer]
      cases Config.freeAnswer s.pulseNo <;> simp [Ran.final, Env.physTap, State.pulsed, State.track, State.pulseLost, State.loseTap]
    | cons a l => simp only [Env.answer]; cases a <;> simp [Ran.final, Env.physTap, State.pulsed, State.track, State.pulseLost, State.loseTap]
  | synth c k =>
    simp only [Env.answer]
    rw [he] at h
    split
    · rename_i b e hh
      split at hh
      · cases hh
      · cases hh
        intro τ hτ hk
        simp only [Ran.final, State.pulsed, State.track, Env.physTap, Option.some.injEq] at hτ hk ⊢
        have := h c.tau rfl hk
        subst hτ
        rw [← this]
        simp only [SynthChain.pulse, synthEnter]
        have hedge : (synthEdge c tdi).tau = c.tau := by
          unfold synthEdge; split <;> rfl
        rw [hedge]
        generalize advance c.tau tms = a
        cases a <;> rfl
    · rename_i e hh
      intro τ hτ hk
      simp [Ran.final, State.pulseLost, State.loseTap] at hk

theorem find_opcode {bs : List Binding} (hn : (bs.map Binding.opcode).Nodup) {n : NameId} {op : Nat} (hm : (n, op) ∈
    bs.map (fun b => (b.name, b.opcode))) :
    ∃ b, bs.find? (fun b => b.opcode == op) = some b ∧ b.name = n := by
  obtain ⟨b, hb, he⟩ := List.mem_map.1 hm
  simp at he
  obtain ⟨hn1, ho1⟩ := he
  induction bs with
  | nil => cases hb
  | cons c bs ih =>
    simp only [List.map_cons, List.nodup_cons] at hn
    rcases List.mem_cons.1 hb with rfl | hb'
    · exact ⟨b, by simp [ho1], hn1⟩
    · have : c.opcode ≠ op := by
        intro hc; apply hn.1; rw [hc, ← ho1]; exact List.mem_map_of_mem hb'
      obtain ⟨x, hx, hx2⟩ := ih hn.2 (List.mem_map.2 ⟨b, hb', by simp [hn1, ho1]⟩) hb'
      exact ⟨x, by simp [this, hx], hx2⟩

/-- A device latches the name whose opcode was shifted in (R84). -/
theorem latched {p : Part} {d : SynthPart} (hw : Part.wf p = true) (hd : describesPart p d) (ha : opcodesApart
    d.desc = true) {n : NameId} {op l : Nat} (hl : p.desc.irLength = some l)
   (ho : resolve p n = some op) : (synthUpdateIR { d with irCells := bitsOfNat l op }).irLatch = some n := by
  obtain ⟨_, hi, _⟩ := hd
  have hlt := opcode_fits hw hl ho
  have hm : (n, op) ∈ d.desc.instructions.map (fun b => (b.name, b.opcode)) := by
    rw [← hi]
    simp only [resolve, lookupName, Option.map_eq_some_iff] at ho
    obtain ⟨b, hb, rfl⟩ := ho
    have h1 := List.mem_of_find?_eq_some hb
    have h2 := List.find?_some hb
    simp at h2
    exact List.mem_map.2 ⟨b, h1, by simp [h2]⟩
  obtain ⟨b, hb, hn⟩ := find_opcode (by simpa [opcodesApart] using ha) hm
  simp only [synthUpdateIR, bitsToNat_bitsOfNat hlt, hb, hn]

theorem describesPart_desc {p p' : Part} {d d' : SynthPart} (h : describesPart p d) (hp : p'.desc = p.desc) (hd :
    d'.desc = d.desc) : describesPart p' d' := by
  unfold describesPart at *; rw [hp, hd]; exact h

theorem describes_desc {ps qs : List Part} {c c' : SynthChain} (h : describes ps c) (hp : qs.map Part.desc = ps.map
    Part.desc) (hd : c'.parts.map SynthPart.desc = c.parts.map SynthPart.desc) : describes qs c' := by
  have hl1 : qs.length = ps.length := by simpa using congrArg List.length hp
  have hl2 : c'.parts.length = c.parts.length := by simpa using congrArg List.length hd
  have hl : ps.length = c.parts.length := h.length_eq
  rw [describes, List.forall₂_iff_get]
  refine ⟨by omega, ?_⟩
  intro i h1 h2
  have h0 := (List.forall₂_iff_get.1 h).2 i (by omega) (by omega)
  have e1 := congrArg (fun l => l[i]?) hp
  have e2 := congrArg (fun l => l[i]?) hd
  simp only [List.getElem?_map] at e1 e2
  rw [List.getElem?_eq_getElem h1, List.getElem?_eq_getElem (show i < ps.length by omega)] at e1
  rw [List.getElem?_eq_getElem h2, List.getElem?_eq_getElem (show i < c.parts.length by omega)] at e2
  simp only [Option.map_some, Option.some.injEq] at e1 e2
  exact describesPart_desc h0 e1 e2

theorem opcodesApart_desc {c c' : SynthChain} (h : ∀ d ∈ c.parts, opcodesApart d.desc = true) (hd : c'.parts.map
    SynthPart.desc = c.parts.map SynthPart.desc) : ∀ d ∈ c'.parts, opcodesApart d.desc = true := by
  intro d hm
  have : d.desc ∈ c'.parts.map SynthPart.desc := List.mem_map_of_mem hm
  rw [hd] at this
  obtain ⟨d2, h2, h3⟩ := List.mem_map.1 this
  rw [← h3]; exact h d2 h2

theorem describes_irLength {ps : List Part} {c : SynthChain} (h : describes ps c) : ∀ (q : Nat) p d, ps[q]? = some p
    → c.parts[q]? = some d → p.desc.irLength = d.desc.irLength := by
  intro q p d hq hdq
  obtain ⟨h1, h2⟩ := List.getElem?_eq_some_iff.1 hq
  obtain ⟨h3, h4⟩ := List.getElem?_eq_some_iff.1 hdq
  have := List.Forall₂.get h h1 h3
  simp only [List.get_eq_getElem] at this
  rw [h2, h4] at this; exact this.1

theorem synthRun_irScan_descs {c : SynthChain} {fs : List Bits} (h : fs.length = c.parts.length) :
   (List.zipWith (fun p f => synthUpdateIR { p with irCells := f }) c.parts fs).map SynthPart.desc = c.parts.map
    SynthPart.desc := by
  apply List.ext_getElem?
  intro q
  simp only [List.getElem?_map, List.getElem?_zipWith]
  cases hq : c.parts[q]? with
  | none => rfl
  | some d =>
    have := (List.getElem?_eq_some_iff.1 hq).1
    rw [List.getElem?_eq_getElem (show q < fs.length by omega)]; rfl

end Sys2Proof.Machine
end

