-- ==== Sys2Proof/Laws/Memory.lean ====
section
/-! SUPPORT. Laws of the buffers: read after write, the canonical form, words and vectors. -/

namespace Sys2Proof.Machine

theorem readByte_consCell (a : Nat) (v : Byte) (m : Memory) (h : readByte m a = unlistedByte) (x : Nat) :
    readByte (consCell a v m) x = if x = a then v else readByte m x := by
  unfold consCell
  by_cases hv : v = unlistedByte
  · by_cases hx : x = a
    · simp [hv, hx, h]
    · simp [hv, hx]
  · simp [hv, readByte]

/-- Addresses below a canonical form's start read as unlisted. -/
theorem readByte_below {lo hi : Nat} {m : Memory} (h : wfFrom lo hi m = true) {x : Nat} (hx : x < lo) :
    readByte m x = unlistedByte := by
  induction m generalizing lo with
  | nil => rfl
  | cons c m ih =>
    obtain ⟨a, v⟩ := c
    simp only [wfFrom, Bool.and_eq_true, decide_eq_true_eq] at h
    have hne : x ≠ a := by omega
    simp only [readByte, hne, if_false]
    exact ih h.2 (by omega)

/-- Read after write of one byte. -/
theorem readByte_writeByte {lo hi : Nat} {m : Memory} (h : wfFrom lo hi m = true) (a : Nat) (v : Byte) (x : Nat) :
    readByte (writeByte m a v) x = if x = a then v else readByte m x := by
  induction m generalizing lo with
  | nil => exact readByte_consCell a v [] rfl x
  | cons c m ih =>
    obtain ⟨b, u⟩ := c
    have h' := h
    simp only [wfFrom, Bool.and_eq_true, decide_eq_true_eq] at h
    simp only [writeByte]
    by_cases hab : a < b
    · have hw : wfFrom b hi ((b, u) :: m) = true := by simp_all [wfFrom]
      rw [if_pos hab]
      exact readByte_consCell a v _ (readByte_below hw hab) x
    · rw [if_neg hab]
      by_cases he : a = b
      · subst he
        rw [if_pos rfl, readByte_consCell a v m (readByte_below h.2 (by omega)) x]
        by_cases hx : x = a <;> simp [hx, readByte]
      · rw [if_neg he]
        simp only [readByte, ih h.2]
        by_cases hx : x = b
        · have : x ≠ a := by omega
          simp [hx]; intro hba; omega
        · simp [hx]

theorem wfFrom_mono {lo lo' hi : Nat} {m : Memory} (h : wfFrom lo hi m = true) (hl : lo' ≤ lo) :
    wfFrom lo' hi m = true := by
  cases m with
  | nil => rfl
  | cons c m =>
    obtain ⟨a, v⟩ := c
    simp only [wfFrom, Bool.and_eq_true, decide_eq_true_eq] at h ⊢
    exact ⟨⟨⟨by omega, h.1.1.2⟩, h.1.2⟩, h.2⟩

theorem wfFrom_consCell {lo hi a : Nat} {v : Byte} {m : Memory} (hl : lo ≤ a) (ha : a < hi)
    (h : wfFrom (a + 1) hi m = true) : wfFrom lo hi (consCell a v m) = true := by
  unfold consCell
  by_cases hv : v = unlistedByte
  · rw [if_pos hv]
    exact wfFrom_mono h (by omega)
  · rw [if_neg hv]
    simp [wfFrom, hl, ha, h, hv]

/-- A write keeps the canonical form. -/
theorem wfFrom_writeByte {lo hi : Nat} {m : Memory} (h : wfFrom lo hi m = true) {a : Nat} (hl : lo ≤ a) (ha : a < hi)
    (v : Byte) : wfFrom lo hi (writeByte m a v) = true := by
  induction m generalizing lo with
  | nil => exact wfFrom_consCell hl ha rfl
  | cons c m ih =>
    obtain ⟨b, u⟩ := c
    have h' := h
    simp only [wfFrom, Bool.and_eq_true, decide_eq_true_eq] at h
    simp only [writeByte]
    by_cases hab : a < b
    · rw [if_pos hab]
      refine wfFrom_consCell hl ha ?_
      simp only [wfFrom, Bool.and_eq_true, decide_eq_true_eq]
      exact ⟨⟨⟨by omega, h.1.1.2⟩, h.1.2⟩, h.2⟩
    · rw [if_neg hab]
      by_cases he : a = b
      · subst he
        rw [if_pos rfl]
        exact wfFrom_consCell hl ha h.2
      · rw [if_neg he]
        simp only [wfFrom, Bool.and_eq_true, decide_eq_true_eq]
        exact ⟨h.1, ih h.2 (by omega)⟩

/-! ## Words -/

theorem wf_writeByte {m : Memory} (h : Memory.wf m = true) {a : Nat} (ha : a < 4 * bufferWords) (v : Byte) :
    Memory.wf (writeByte m a v) = true := wfFrom_writeByte h (Nat.zero_le a) ha v

theorem readByte_write {m : Memory} (h : Memory.wf m = true) (a : Nat) (v : Byte) (x : Nat) :
    readByte (writeByte m a v) x = if x = a then v else readByte m x := readByte_writeByte h a v x

/-- A word write keeps the canonical form. -/
theorem wf_writeWord {m : Memory} (h : Memory.wf m = true) {k : Nat} (hk : k < bufferWords) (v : Word) :
    Memory.wf (writeWord m k v) = true := by
  unfold writeWord
  exact wf_writeByte (wf_writeByte (wf_writeByte (wf_writeByte h (by omega) _) (by omega) _) (by omega) _) (by omega) _

/-- Read after a word write, by bytes: byte j of word k is bits 8j to 8j+7 of the word (R68). -/
theorem readByte_writeWord {m : Memory} (h : Memory.wf m = true) {k : Nat} (hk : k < bufferWords) (v : Word) (x : Nat) :
    readByte (writeWord m k v) x = if x / 4 = k then v.extractLsb' (8 * (x % 4)) 8 else readByte m x := by
  have h0 := wf_writeByte h (a := 4 * k) (by omega) (v.extractLsb' 0 8)
  have h1 := wf_writeByte h0 (a := 4 * k + 1) (by omega) (v.extractLsb' 8 8)
  have h2 := wf_writeByte h1 (a := 4 * k + 2) (by omega) (v.extractLsb' 16 8)
  unfold writeWord
  rw [readByte_write h2, readByte_write h1, readByte_write h0, readByte_write h]
  by_cases hx : x / 4 = k
  · rw [if_pos hx]
    have hc : x % 4 = 0 ∨ x % 4 = 1 ∨ x % 4 = 2 ∨ x % 4 = 3 := by omega
    rcases hc with hc | hc | hc | hc
    · have e : x = 4 * k := by omega
      simp [e]
    · have e : x = 4 * k + 1 := by omega
      rw [if_neg (by omega), if_neg (by omega), if_pos e, hc]
    · have e : x = 4 * k + 2 := by omega
      rw [if_neg (by omega), if_pos e, hc]
    · have e : x = 4 * k + 3 := by omega
      rw [if_pos e, hc]
  · rw [if_neg hx, if_neg (by omega), if_neg (by omega), if_neg (by omega), if_neg (by omega)]

/-- Read after a word write, by bits (R68): bit i of the vector is bit i mod 32 of word i div 32. -/
theorem bufferBit_writeWord {m : Memory} (h : Memory.wf m = true) {k : Nat} (hk : k < bufferWords) (v : Word) (i : Nat) :
    bufferBit (writeWord m k v) i = if i / 32 = k then v.getLsbD (i % 32) else bufferBit m i := by
  unfold bufferBit
  rw [readByte_writeWord h hk]
  have hd : i / 8 / 4 = i / 32 := by omega
  rw [hd]
  by_cases hx : i / 32 = k
  · rw [if_pos hx, if_pos hx, BitVec.getLsbD_extractLsb']
    have h8 : i % 8 < 8 := by omega
    have e : 8 * (i / 8 % 4) + i % 8 = i % 32 := by omega
    simp [h8, e]
  · rw [if_neg hx, if_neg hx]

/-! ## Vectors -/

/-- A vector write keeps the canonical form. -/
theorem wf_writeVectorFrom {m : Memory} (h : Memory.wf m = true) (k : Nat) (v : Bits) (words : Nat)
    (hk : k + words ≤ bufferWords) : Memory.wf (writeVectorFrom m k v words) = true := by
  induction words generalizing m k v with
  | zero => exact h
  | succ w ih => exact ih (wf_writeWord h (by omega) _) (k + 1) (v.drop 32) (by omega)

/-- Read after a vector write from word k on: the words reached hold the vector and zeros after it, the other words
keep what they held (R41, R68). -/
theorem bufferBit_writeVectorFrom {m : Memory} (h : Memory.wf m = true) (k : Nat) (v : Bits) (words : Nat)
    (hk : k + words ≤ bufferWords) (i : Nat) :
    bufferBit (writeVectorFrom m k v words) i =
      if k ≤ i / 32 ∧ i / 32 < k + words then v.getD (i - 32 * k) false else bufferBit m i := by
  induction words generalizing m k v with
  | zero => rw [if_neg (by omega)]; rfl
  | succ w ih =>
    rw [writeVectorFrom, ih (wf_writeWord h (by omega) _) (k + 1) (v.drop 32) (by omega),
      bufferBit_writeWord h (by omega)]
    by_cases h1 : k + 1 ≤ i / 32 ∧ i / 32 < k + 1 + w
    · rw [if_pos h1, if_pos (by omega)]
      have e : i - 32 * k = 32 + (i - 32 * (k + 1)) := by omega
      rw [List.getD_eq_getElem?_getD, List.getD_eq_getElem?_getD, List.getElem?_drop, e]
    · rw [if_neg h1]
      by_cases h2 : i / 32 = k
      · rw [if_pos h2, if_pos (by omega)]
        have e : i - 32 * k = i % 32 := by omega
        have hm : i % 32 < 32 := by omega
        rw [BitVec.getLsbD_ofNat, bitsToNat_testBit, e, List.getD_eq_getElem?_getD, List.getD_eq_getElem?_getD,
          List.getElem?_take]
        simp [hm]
      · rw [if_neg h2, if_neg (by omega)]

/-- R41: after `INBUF[0..n) <- v`, bit i is bit i of the vector, zero up to the end of the last word written, and what
it was beyond. -/
theorem bufferBit_writeVector {m : Memory} (h : Memory.wf m = true) {v : Bits} (hv : v.length ≤ 32 * bufferWords)
    (i : Nat) :
    bufferBit (writeVector m v) i =
      if i / 32 < (v.length + 31) / 32 then v.getD i false else bufferBit m i := by
  rw [writeVector, bufferBit_writeVectorFrom h 0 v _ (by omega)]
  simp

theorem wf_writeVector {m : Memory} (h : Memory.wf m = true) {v : Bits} (hv : v.length ≤ 32 * bufferWords) :
    Memory.wf (writeVector m v) = true :=
  wf_writeVectorFrom h 0 v _ (by omega)

@[simp] theorem bufferBits_length (m : Memory) (n : Nat) : (bufferBits m n).length = n := by simp [bufferBits]

/-- The result read back is the result written. -/
theorem bufferBits_writeVector {m : Memory} (h : Memory.wf m = true) {v : Bits} (hv : v.length ≤ 32 * bufferWords) :
    bufferBits (writeVector m v) v.length = v := by
  apply List.ext_getElem (by simp)
  intro i h1 h2
  simp only [bufferBits, List.getElem_map, List.getElem_range]
  rw [bufferBit_writeVector h hv, if_pos (by omega), List.getD_eq_getElem?_getD, List.getElem?_eq_getElem h2]
  rfl

/-- A word of a buffer, bit by bit (R68). -/
theorem readWord_getLsbD (m : Memory) (k j : Nat) (hj : j < 32) :
    (readWord m k).getLsbD j = bufferBit m (32 * k + j) := by
  unfold readWord bufferBit
  simp only [BitVec.getLsbD_append]
  have h8 : (32 * k + j) % 8 = j % 8 := by omega
  have hd : (32 * k + j) / 8 = 4 * k + j / 8 := by omega
  rw [h8, hd]
  split
  · rw [show j / 8 = 0 by omega, show j % 8 = j by omega]; rfl
  · split
    · rw [show j / 8 = 1 by omega, show j % 8 = j - 8 by omega]
    · split
      · rw [show j / 8 = 2 by omega, show j % 8 = j - 8 - 8 by omega]
      · rw [show j / 8 = 3 by omega, show j % 8 = j - 8 - 8 - 8 by omega]

end Sys2Proof.Machine
end

