-- ==== Sys2Proof/Laws/Partition.lean ====
section
/-! SUPPORT. Laws of `Partition` (R204): how it moves over a stream, and what every fragment it cuts says of the stream. -/

namespace Sys2Proof.Machine

theorem partitionFrom_skip (ids : List KnownId) (pos : Nat) (v rest : Bits) :
    partitionFrom ids pos v.length (v ++ rest) = partitionFrom ids (pos + v.length) 0 rest := by
  induction v generalizing pos with
  | nil => rfl
  | cons b v ih =>
    rw [List.length_cons, List.cons_append, partitionFrom, ih]
    congr 1; omega

/-- R204, "zero-padding only": nothing follows. -/
theorem partitionFrom_zeros (ids : List KnownId) (pos k : Nat) : partitionFrom ids pos 0 (constBits false k) = some
    [] := by
  cases k with
  | zero => rfl
  | succ k =>
    have : hasOne (false :: constBits false k) = false := hasOne_zeros (k+1)
    rw [show constBits false (k+1) = false :: constBits false k from rfl, partitionFrom, this]
    rfl

theorem bitsOfNat_odd {n k : Nat} (h : k % 2 = 1) : bitsOfNat (n+1) k = true :: bitsOfNat n (k/2) := by
  simp [bitsOfNat, h]

/-- R115 (i): a matching ID code has its marker bit. -/
theorem mask_odd {x v m : Nat} (h : x &&& m = v &&& m) (hv : v % 2 = 1) (hm : m % 2 = 1) : x % 2 = 1 := by
  have := congrArg (fun y => y.testBit 0) h
  simp [Nat.testBit_zero, hv, hm] at this
  omega

/-- A 32-bit field that matches one entry becomes one Known fragment (R204). -/
theorem partitionFrom_marker {ids : List KnownId} {pos k id : Nat} {e : KnownId} {rest : Bits}
    (h : readMarker ids (bitsOfNat 32 id ++ rest) = .matched k e) (hl : e.len = 32) (ho : id % 2 = 1) (hid : id < 2
    ^ 32) :
    partitionFrom ids pos 0 (bitsOfNat 32 id ++ rest) = (partitionFrom ids (pos + 32) 0 rest).map (fun fs => .known
    k pos id :: fs) := by
  have e1 : bitsOfNat 32 id ++ rest = true :: (bitsOfNat 31 (id/2) ++ rest) := by rw [bitsOfNat_odd ho]; rfl
  have hm : markerField ids pos (true :: (bitsOfNat 31 (id/2) ++ rest)) = some (.known k pos id, 32) := by
    rw [← e1, markerField, h]
    simp only [hl]
    rw [List.take_left' (by simp), bitsToNat_bitsOfNat hid]
  rw [e1, partitionFrom, hasOne_cons]
  simp only [Bool.true_or, if_true, hm]
  have := partitionFrom_skip ids (pos + 1) (bitsOfNat 31 (id/2)) rest
  simp only [bitsOfNat_length] at this
  rw [show 32 - 1 = 31 from rfl, this]

/-- `Match` of a 32-bit entry at a 32-bit code (R115). -/
theorem matches_32 {e : KnownId} {id : Nat} {rest : Bits} (hl : e.len = 32) (hid : id < 2 ^ 32) :
   e.matches (bitsOfNat 32 id ++ rest) = true ↔ id &&& e.mask = e.value &&& e.mask := by
  simp only [KnownId.matches, hl, Bool.and_eq_true, decide_eq_true_eq, beq_iff_eq]
  rw [List.take_left' (by simp), bitsToNat_bitsOfNat hid]
  simp

/-- R115 (ii): no code matches both of two entries of one length. -/
theorem apart_not_both {a b : KnownId} (hl : a.len = b.len) (h : a.apart b = true) {x : Nat} (ha : x &&& a.mask =
    a.value &&& a.mask) (hb : x &&& b.mask = b.value &&& b.mask) : False := by
  simp only [KnownId.apart, hl, bne_self_eq_false, Bool.false_or, bne_iff_ne] at h
  apply h
  apply Nat.eq_of_testBit_eq
  intro i
  have h1 := congrArg (fun y => y.testBit i) ha
  have h2 := congrArg (fun y => y.testBit i) hb
  simp only [Nat.testBit_and, Nat.testBit_xor, Nat.zero_testBit] at *
  revert h1 h2
  cases a.mask.testBit i <;> cases b.mask.testBit i <;> cases a.value.testBit i <;> cases b.value.testBit i <;> cases x.testBit i <;> decide

/-- The field cut at a marker is what the stream holds there (R204). -/
theorem marker_cut {ids : List KnownId} (h : knownIdsWf ids = true) {s : Bits} {pos : Nat} {rest : Bits}
    (hd : s.drop pos = true :: rest) {f : Fragment} {len : Nat}
    (hf : markerField ids pos (true :: rest) = some (f, len)) : f.pos = pos ∧ f.len ids = len ∧ f.cutFrom ids s ∧ 1
    ≤ len := by
  have h0 : s[pos]? = some true := by
    have := congrArg List.head? hd; simpa [List.head?_drop] using this
  have hlen := (markerField_ok h hf).2
  unfold markerField at hf
  split at hf
  · cases hf
  · next k e hm =>
    obtain ⟨hk, hma⟩ := readMarker_matched hm
    cases hf
    refine ⟨rfl, by simp [Fragment.len, List.getD_eq_getElem?_getD, hk], ⟨h0, e, hk, by rw [hd]; exact hma, by rw [window, hd], ?_⟩, hlen⟩
    intro f hf hfm
    rw [hd] at hfm
    unfold readMarker at hm
    split at hm
    · cases hm
    · next e0 es hms =>
      split at hm
      · next hall =>
        cases hm
        have : ∃ j, (f, j) ∈ matchesAt ids (true :: rest) := by
          obtain ⟨j, hj⟩ := List.getElem?_of_mem hf
          exact ⟨j, by simp [matchesAt, List.mem_filter, List.mem_zipIdx_iff_getElem?, hj, hfm]⟩
        obtain ⟨j, hj⟩ := this
        rw [hms] at hj
        rcases List.mem_cons.1 hj with hj | hj
        · exact congrArg (fun x => x.1.len) hj
        · rw [List.all_eq_true] at hall; simpa using hall _ hj
      · cases hm
  · next hm =>
    split at hf
    · cases hf
    · next hl =>
      cases hf
      refine ⟨rfl, rfl, ⟨h0, ?_, ?_, by rw [window, hd]; rfl⟩, hlen⟩
      · intro e he
        rw [hd]
        cases hme : KnownId.matches e (true :: rest) with
        | false => rfl
        | true =>
          obtain ⟨j, hj⟩ := List.getElem?_of_mem he
          have : (e, j) ∈ matchesAt ids (true :: rest) := by simp [matchesAt, List.mem_filter, List.mem_zipIdx_iff_getElem?, hj, hme]
          unfold readMarker at hm
          split at hm
          · next hn => rw [hn] at this; cases this
          · split at hm <;> cases hm
      · have := congrArg List.length hd
        simp only [List.length_drop] at this
        simp only [defaultIdcodeLen, Nat.not_lt] at hl
        omega

/-! ## From a tiling back to the scan -/

/-- R115 (ii): the entries at two indices of a well-formed table are one entry, or of two lengths, or match no common
code. -/
theorem knownIds_apart {ids : List KnownId} (h : knownIdsWf ids = true) {i j : Nat} {a b : KnownId}
    (hi : ids[i]? = some a) (hj : ids[j]? = some b) (hij : i < j) : a.apart b = true := by
  induction ids generalizing i j with
  | nil => cases hi
  | cons e es ih =>
    simp only [knownIdsWf, Bool.and_eq_true, List.all_eq_true] at h
    obtain ⟨j, rfl⟩ : ∃ k, j = k + 1 := ⟨j - 1, by omega⟩
    cases i with
    | zero =>
      cases hi
      exact h.1.2 b (List.mem_of_getElem? hj)
    | succ i => exact ih h.2 (by simpa using hi) (by simpa using hj) (by omega)

/-- R115 (ii): of a well-formed table, one entry at most matches with a given length. -/
theorem match_unique {ids : List KnownId} (h : knownIdsWf ids = true) {rest : Bits} {i j : Nat} {a b : KnownId}
    (hi : ids[i]? = some a) (hj : ids[j]? = some b) (hl : a.len = b.len) (ha : KnownId.matches a rest = true)
    (hb : KnownId.matches b rest = true) : i = j := by
  simp only [KnownId.matches, Bool.and_eq_true, decide_eq_true_eq, beq_iff_eq] at ha hb
  rcases Nat.lt_trichotomy i j with hij | hij | hij
  · exact (apart_not_both hl (knownIds_apart h hi hj hij) ha.2 (by rw [hl]; exact hb.2)).elim
  · exact hij
  · exact (apart_not_both hl.symm (knownIds_apart h hj hi hij) hb.2 (by rw [← hl]; exact ha.2)).elim

theorem matchesAt_of {ids : List KnownId} {rest : Bits} {k : Nat} {e : KnownId} (hk : ids[k]? = some e)
    (hm : KnownId.matches e rest = true) : (e, k) ∈ matchesAt ids rest := by
  simp [matchesAt, List.mem_filter, List.mem_zipIdx_iff_getElem?, hk, hm]

/-- R204, |cand| = 0. -/
theorem readMarker_none {ids : List KnownId} {rest : Bits} (h : ∀ e ∈ ids, KnownId.matches e rest = false) :
    readMarker ids rest = .unmatched := by
  have : matchesAt ids rest = [] := by
    rw [List.eq_nil_iff_forall_not_mem]
    rintro ⟨e, k⟩ hm
    obtain ⟨hk, hm⟩ := matchesAt_mem hm
    rw [h e (List.mem_of_getElem? hk)] at hm
    cases hm
  rw [readMarker, this]

/-- R204, |cand| = 1. -/
theorem readMarker_one {ids : List KnownId} {rest : Bits} {k : Nat} {e : KnownId} (hk : ids[k]? = some e)
    (hm : KnownId.matches e rest = true) (hall : ∀ f ∈ ids, KnownId.matches f rest = true → f.len = e.len) :
    ∃ k' e', readMarker ids rest = .matched k' e' ∧ e'.len = e.len ∧ (knownIdsWf ids = true → k' = k) := by
  have hin := matchesAt_of hk hm
  have hlen : ∀ x ∈ matchesAt ids rest, x.1.len = e.len := by
    rintro ⟨f, j⟩ hx
    obtain ⟨hj, hf⟩ := matchesAt_mem hx
    exact hall f (List.mem_of_getElem? hj) hf
  rw [readMarker]
  cases hms : matchesAt ids rest with
  | nil => rw [hms] at hin; cases hin
  | cons x xs =>
    rw [hms] at hlen
    have hx := hlen x (by simp)
    refine ⟨x.2, x.1, ?_, hx, ?_⟩
    · simp only
      rw [if_pos]
      rw [List.all_eq_true]
      intro y hy
      simp [hx, hlen y (by simp [hy])]
    · intro hw
      obtain ⟨hj, hf⟩ := matchesAt_mem (e := x.1) (k := x.2) (ids := ids) (rest := rest) (by rw [hms]; simp)
      exact match_unique hw hj hk hx hf hm

/-- R204, |cand| >= 2. -/
theorem readMarker_two {ids : List KnownId} {rest : Bits} {e f : KnownId} (he : e ∈ ids) (hf : f ∈ ids)
    (hl : e.len ≠ f.len) (hme : KnownId.matches e rest = true) (hmf : KnownId.matches f rest = true) :
    readMarker ids rest = .ambiguous := by
  obtain ⟨i, hi⟩ := List.getElem?_of_mem he
  obtain ⟨j, hj⟩ := List.getElem?_of_mem hf
  have h1 := matchesAt_of hi hme
  have h2 := matchesAt_of hj hmf
  rw [readMarker]
  cases hms : matchesAt ids rest with
  | nil => rw [hms] at h1; cases h1
  | cons x xs =>
    rw [hms] at h1 h2
    simp only
    rw [if_neg]
    intro hall
    rw [List.all_eq_true] at hall
    have : ∀ y ∈ x :: xs, y.1.len = x.1.len := by
      intro y hy
      rcases List.mem_cons.1 hy with rfl | hy
      · rfl
      · simpa using hall y hy
    exact hl ((this _ h1).trans (this _ h2).symm)

/-- R204: the scan over a field that a marker opens. -/
theorem partitionFrom_field {ids : List KnownId} {pos len : Nat} {rest : Bits} {g : Fragment}
    (hf : markerField ids pos (true :: rest) = some (g, len)) (h1 : 1 ≤ len) (hl : len ≤ rest.length + 1) :
    partitionFrom ids pos 0 (true :: rest) =
      (partitionFrom ids (pos + len) 0 ((true :: rest).drop len)).map (fun fs => g :: fs) := by
  obtain ⟨m, rfl⟩ : ∃ m, len = m + 1 := ⟨len - 1, by omega⟩
  rw [partitionFrom, hasOne_cons]
  simp only [Bool.true_or, if_true, hf, Nat.add_sub_cancel, List.drop_succ_cons]
  have := partitionFrom_skip ids (pos + 1) (rest.take m) (rest.drop m)
  rw [List.take_append_drop, List.length_take, Nat.min_eq_left (by omega)] at this
  rw [this]
  congr 2; omega

/-- R204: where a stream holds a fragment, the scan takes one of its length there, and with a well-formed table this very
one. -/
theorem partitionFrom_cut {ids : List KnownId} (hl : ∀ e ∈ ids, 1 ≤ e.len) {s : Bits} {f : Fragment}
    (hc : f.cutFrom ids s) :
    ∃ g, partitionFrom ids f.pos 0 (s.drop f.pos) =
        (partitionFrom ids (f.pos + f.len ids) 0 (s.drop (f.pos + f.len ids))).map (fun fs => g :: fs) ∧
      (knownIdsWf ids = true → g = f) := by
  have consAt : ∀ {pos : Nat} {b : Bool}, s[pos]? = some b → s.drop pos = b :: s.drop (pos + 1) := by
    intro pos b h
    obtain ⟨hp, hb⟩ := List.getElem?_eq_some_iff.1 h
    rw [List.drop_eq_getElem_cons hp, hb]
  cases f with
  | bypass pos =>
    obtain ⟨hb, ho⟩ := hc
    refine ⟨.bypass pos, ?_, fun _ => rfl⟩
    simp only [Fragment.pos, Fragment.len]
    rw [consAt hb] at ho ⊢
    rw [partitionFrom, ho]
    rfl
  | known k pos v =>
    obtain ⟨hb, e, hk, hm, hv, hall⟩ := hc
    obtain ⟨k', e', hr, he, hu⟩ := readMarker_one hk hm hall
    have h1 := hl e (List.mem_of_getElem? hk)
    have hlen : e.len ≤ (s.drop pos).length := by
      simp only [KnownId.matches, Bool.and_eq_true, decide_eq_true_eq] at hm; exact hm.1
    simp only [Fragment.pos, Fragment.len, List.getD_eq_getElem?_getD, hk, Option.getD_some]
    rw [← List.drop_drop]
    rw [consAt hb] at hr hlen ⊢
    refine ⟨.known k' pos (bitsToNat ((true :: s.drop (pos + 1)).take e.len)),
      partitionFrom_field ?_ h1 (by simpa using hlen), ?_⟩
    · rw [markerField, hr]
      simp only [he]
    · intro hw
      rw [hu hw, hv, window, consAt hb]
  | unknown pos v =>
    obtain ⟨hb, hn, hp, hv⟩ := hc
    have hr := readMarker_none hn
    have hlen : 32 ≤ (s.drop pos).length := by simp; omega
    simp only [Fragment.pos, Fragment.len]
    rw [← List.drop_drop]
    rw [consAt hb] at hr hlen ⊢
    refine ⟨.unknown pos v, partitionFrom_field ?_ (by omega) (by simpa using hlen), fun _ => rfl⟩
    rw [markerField, hr]
    simp only
    rw [if_neg (show ¬ _ < defaultIdcodeLen from Nat.not_lt.2 hlen), hv, window, consAt hb]
    rfl

/-- R204: where fragments tile a stream, the scan comes to their end, having cut as many, and with a well-formed table
these very ones. -/
theorem partitionFrom_tiles {ids : List KnownId} (hl : ∀ e ∈ ids, 1 ≤ e.len) {s : Bits} (frags : List Fragment) (pos : Nat)
    (ht : ∀ (i : Nat) (f : Fragment), frags[i]? = some f → f.pos = pos + tiledLen ids (frags.take i) ∧ f.cutFrom ids s) :
    ∃ gs, partitionFrom ids pos 0 (s.drop pos) =
        (partitionFrom ids (pos + tiledLen ids frags) 0 (s.drop (pos + tiledLen ids frags))).map (fun fs => gs ++ fs) ∧
      (knownIdsWf ids = true → gs = frags) := by
  induction frags generalizing pos with
  | nil => exact ⟨[], by simp [tiledLen], fun _ => rfl⟩
  | cons f frags ih =>
    obtain ⟨hp, hc⟩ := ht 0 f rfl
    simp only [tiledLen, List.take_zero, List.map_nil, List.sum_nil, Nat.add_zero] at hp
    obtain ⟨g, hg, hw⟩ := partitionFrom_cut hl hc
    obtain ⟨gs, hgs, hws⟩ := ih (pos + f.len ids) (by
      intro i f' hf'
      obtain ⟨a, b⟩ := ht (i + 1) f' (by simpa using hf')
      refine ⟨?_, b⟩
      rw [a]; simp [tiledLen]; omega)
    refine ⟨g :: gs, ?_, fun h => by rw [hw h, hws h]⟩
    rw [hp] at hg
    rw [hg, hgs, Option.map_map]
    simp only [tiledLen, List.map_cons, List.sum_cons, Nat.add_assoc]
    rfl

/-- R204: a stream without a 1 gives no further fragment. -/
theorem partitionFrom_noOne {ids : List KnownId} {pos : Nat} {s : Bits} (h : hasOne s = false) :
    partitionFrom ids pos 0 s = some [] := by
  cases s with
  | nil => rfl
  | cons b s => rw [partitionFrom, h]; rfl

end Sys2Proof.Machine
end

