-- ==== Sys2Proof/Laws/PerInstr.lean ====
section
/-! SUPPORT. One law per instruction: the word it is encoded by is the one its row of the opcode table gives (R102, R103,
R107). -/

namespace Sys2Proof.Laws.EncodedWord

open Sys2Proof

/-- Whether an instruction word has the match and mask, or the state code, of the table's row for an instruction. -/
def rowOf : Instr → InstrWord → Prop
  | .resetTap, w => ∃ cw, w = .command cw ∧ cw &&& 0xFFFFFFFF#32 = 0x10000000#32
  | .enterIdle, w => ∃ cw, w = .command cw ∧ cw &&& 0xFFFFFFFF#32 = 0x20000000#32
  | .setInstruction part name, w =>
    ∃ cw, w = .command cw ∧ cw &&& 0xF0000000#32 = 0x30000000#32 ∧ partField cw = part ∧ argField cw = name
  | .exchangeData part n, w =>
    ∃ cw, w = .command cw ∧ cw &&& 0xF0000000#32 = 0x40000000#32 ∧ partField cw = part ∧ argField cw = n
  | .discoverChain, w => ∃ cw, w = .command cw ∧ cw &&& 0xFFFFFFFF#32 = 0x50000000#32
  | .stateReset tms, w => w = .row 0b0000#4 tms
  | .stateIdle tms, w => w = .row 0b0001#4 tms
  | .stateSelectDR tms, w => w = .row 0b0010#4 tms
  | .stateCaptureDR tms, w => w = .row 0b0011#4 tms
  | .stateShiftDR tms, w => w = .row 0b0100#4 tms
  | .stateExit1DR tms, w => w = .row 0b0101#4 tms
  | .statePauseDR tms, w => w = .row 0b0110#4 tms
  | .stateExit2DR tms, w => w = .row 0b0111#4 tms
  | .stateUpdateDR tms, w => w = .row 0b1000#4 tms
  | .stateSelectIR tms, w => w = .row 0b1001#4 tms
  | .stateCaptureIR tms, w => w = .row 0b1010#4 tms
  | .stateShiftIR tms, w => w = .row 0b1011#4 tms
  | .stateExit1IR tms, w => w = .row 0b1100#4 tms
  | .statePauseIR tms, w => w = .row 0b1101#4 tms
  | .stateExit2IR tms, w => w = .row 0b1110#4 tms
  | .stateUpdateIR tms, w => w = .row 0b1111#4 tms

/-- A well-formed instruction is encoded by a word of its own row. -/
def Statement (i : Instr) : Prop := i.wellFormed = true → rowOf i (encode i)

/-- A format-P word (R100, R101): its top bits are its `op`, its fields its operands. -/
theorem formatP (op : BitVec 4) (part arg : Nat) (hp : part < 2 ^ 12) (ha : arg < 2 ^ 16) :
    ∃ cw, InstrWord.command (commandWord op part arg) = .command cw ∧
      cw &&& 0xF0000000#32 = BitVec.ofNat 32 (op.toNat * 2 ^ 28) ∧ partField cw = part ∧ argField cw = arg := by
  have h := commandWord_toNat op part arg hp ha
  have ho := op.isLt
  refine ⟨_, rfl, (and_mask _ _ ho).2 (by omega), ?_, ?_⟩
  · rw [partField_eq]; omega
  · rw [argField_eq]; omega

theorem resetTap : Statement .resetTap := fun _ => ⟨_, rfl, by decide⟩
theorem enterIdle : Statement .enterIdle := fun _ => ⟨_, rfl, by decide⟩

theorem setInstruction (part : Nat) (name : NameId) : Statement (.setInstruction part name) := by
  intro h
  simp only [Instr.wellFormed, partFits, argFits, Bool.and_eq_true, decide_eq_true_eq] at h
  exact formatP 3#4 part name h.1 h.2

theorem exchangeData (part n : Nat) : Statement (.exchangeData part n) := by
  intro h
  simp only [Instr.wellFormed, partFits, argFits, Bool.and_eq_true, decide_eq_true_eq] at h
  exact formatP 4#4 part n h.1 h.2

theorem discoverChain : Statement .discoverChain := fun _ => ⟨_, rfl, by decide⟩
theorem stateReset (tms : Bool) : Statement (.stateReset tms) := fun _ => rfl
theorem stateIdle (tms : Bool) : Statement (.stateIdle tms) := fun _ => rfl
theorem stateSelectDR (tms : Bool) : Statement (.stateSelectDR tms) := fun _ => rfl
theorem stateCaptureDR (tms : Bool) : Statement (.stateCaptureDR tms) := fun _ => rfl
theorem stateShiftDR (tms : Bool) : Statement (.stateShiftDR tms) := fun _ => rfl
theorem stateExit1DR (tms : Bool) : Statement (.stateExit1DR tms) := fun _ => rfl
theorem statePauseDR (tms : Bool) : Statement (.statePauseDR tms) := fun _ => rfl
theorem stateExit2DR (tms : Bool) : Statement (.stateExit2DR tms) := fun _ => rfl
theorem stateUpdateDR (tms : Bool) : Statement (.stateUpdateDR tms) := fun _ => rfl
theorem stateSelectIR (tms : Bool) : Statement (.stateSelectIR tms) := fun _ => rfl
theorem stateCaptureIR (tms : Bool) : Statement (.stateCaptureIR tms) := fun _ => rfl
theorem stateShiftIR (tms : Bool) : Statement (.stateShiftIR tms) := fun _ => rfl
theorem stateExit1IR (tms : Bool) : Statement (.stateExit1IR tms) := fun _ => rfl
theorem statePauseIR (tms : Bool) : Statement (.statePauseIR tms) := fun _ => rfl
theorem stateExit2IR (tms : Bool) : Statement (.stateExit2IR tms) := fun _ => rfl
theorem stateUpdateIR (tms : Bool) : Statement (.stateUpdateIR tms) := fun _ => rfl

end Sys2Proof.Laws.EncodedWord
end

