-- ==== Sys2Proof/Laws/Runs.lean ====
section
/-! SUPPORT. Laws of answered commands and of runs. -/

namespace Sys2Proof.Machine

theorem code_ok {k : Status} (h : k.code = 0#4) : k = .ok := by cases k <;> first | rfl | (exact absurd h (by decide))

/-- A command that answered OK ran its body to the end (R105, R239). -/
theorem exec_ok {i : Instr} {s u : State} (hi : isCommand i = true) (h : exec i s = .next u) (hs : u.lastStatus =
    0#4) :
   ∃ n v, bodyOf i s.accept = .done n v ∧ u = v.respond .ok n := by
  rw [exec_command hi] at h; cases h
  cases hb : bodyOf i s.accept with
  | done n v => exact ⟨n, v, rfl, rfl⟩
  | raised k v =>
    rw [hb] at hs
    exact absurd (code_ok hs) (bodyOf_raises i _ k v hb)

/-- A command ends in the answer to the state its body left (R105). -/
theorem exec_final {i : Instr} {s u : State} (hi : isCommand i = true) (h : exec i s = .next u) :
   ∃ st len, u = (bodyOf i s.accept).final.respond st len := by
  rw [exec_command hi] at h; cases h
  cases bodyOf i s.accept with
  | done n v => exact ⟨_, _, rfl⟩
  | raised k v => exact ⟨_, _, rfl⟩

/-- A sequence goes on after an OK (R114). -/
theorem runWhileOk_cons {i : Instr} {is : List Instr} {s u : State} (h : exec i s = .next u)
    (hs : u.lastStatus = Status.ok.code) : runWhileOk (i :: is) s = runWhileOk is u := by
  simp only [runWhileOk, h, hs, if_true]

/-- No bit of a vector that ends before bit 65535 is lost in a word write (R40). -/
theorem outbufWord_id (k : Nat) (v : Bits) (h : 32 * k + v.length ≤ 65535) :
   outbufWord k (BitVec.ofNat 32 (bitsToNat (v.take 32))) = BitVec.ofNat 32 (bitsToNat (v.take 32)) := by
  unfold outbufWord
  split
  · rename_i he
    simp only [bufferWords, maxVec] at he
    have hl : v.length ≤ 31 := by omega
    rw [List.take_of_length_le (by omega)]
    have hb := bitsToNat_lt v
    have : bitsToNat v < 2 ^ 31 := Nat.lt_of_lt_of_le hb (Nat.pow_le_pow_right (by omega) hl)
    apply BitVec.eq_of_toNat_eq
    rw [BitVec.toNat_and, BitVec.toNat_ofNat]
    rw [Nat.mod_eq_of_lt (by omega)]
    exact Nat.and_two_pow_sub_one_of_lt_two_pow (n := 31) this
  · rfl

end Sys2Proof.Machine
end

