-- ==== Sys2Proof/Tests/Slice0.lean ====
section
/-! SUPPORT. Tests: the fixtures of 95_test_vectors.md part 0, smoke tests of the well-formedness checks, decoding of
written-out words, vectors of 95_test_vectors.md, and for every statement with hypotheses a witness that meets them. -/

namespace Sys2Proof.Tests

open Sys2Proof Sys2Proof.Machine

/-! ## Fixtures (95_test_vectors.md part 0) -/

/-- Names: BYPASS 0, IDCODE 1, SAMPLE 2, EXTEST 3, USER 4, REG1 5, REG32 6, REG0 7, HIGHZ 9. -/
def partA : Descriptor :=
  { irLength := some 4, idcodeLength := 32, idcode := some 0x12345679
    instructions := [⟨0, 0b1111, some 1⟩, ⟨1, 0b0110, some 32⟩, ⟨2, 0b0010, some 8⟩, ⟨3, 0b0000, some 8⟩,
      ⟨4, 0b1000, none⟩]
    bypassInstruction := some 0, defaultInstruction := some 1 }

def partB : Descriptor :=
  { irLength := some 5, idcodeLength := 32, idcode := some 0x0ABCDEF1
    instructions := [⟨0, 0b11111, some 1⟩, ⟨1, 0b00100, some 32⟩, ⟨3, 0b00000, some 3⟩]
    bypassInstruction := some 0, defaultInstruction := some 1 }

def partZ : Descriptor :=
  { irLength := some 2, idcodeLength := 0, idcode := none
    instructions := [⟨0, 0b11, some 1⟩, ⟨3, 0b00, some 2⟩]
    bypassInstruction := some 0, defaultInstruction := some 0 }

def partC : Descriptor :=
  { irLength := some 3, idcodeLength := 0, idcode := none
    instructions := [⟨0, 0b111, some 1⟩, ⟨5, 0b001, some 1⟩, ⟨6, 0b010, some 32⟩, ⟨7, 0b011, some 0⟩]
    bypassInstruction := some 0, defaultInstruction := some 0 }

/-- The device A, which has a 5-bit register behind USER. -/
def deviceA : Descriptor :=
  { partA with instructions := [⟨0, 0b1111, some 1⟩, ⟨1, 0b0110, some 32⟩, ⟨2, 0b0010, some 8⟩, ⟨3, 0b0000, some 8⟩,
      ⟨4, 0b1000, some 5⟩] }

def knownA : KnownId := ⟨32, 0x12345679, 0x0FFFFFFF, partA⟩
def knownB : KnownId := ⟨32, 0x0ABCDEF1, 0x0FFFFFFF, partB⟩

/-- A 16-bit family that matches the low half of A's code (`K3`). -/
def known16 : KnownId :=
  ⟨16, 0x5679, 0xFFFF, { partA with idcodeLength := 16, idcode := none }⟩

def k2 : List KnownId := [knownA, knownB]
def k3 : List KnownId := [knownA, knownB, known16]

def configOf (ds : Option (List Descriptor)) : Config :=
  { irFlushLen := 8, drCaptureLen := 80, knownIds := k2, chainCfg := ds }

def ch1 : List Part := [partC].map configuredPart
def ch2 : List Part := [partA, partB].map configuredPart

/-- A synthetic chain whose devices are in the given state, `timeouts` naming the pulses that time out. -/
def devices (t : TapState) (ds : List (Descriptor × Option NameId)) (timeouts : List Nat) : Env :=
  match synthChain ds with
  | some c => .synth { c with tau := t } timeouts
  | none => .script []

def devices1 (t : TapState) : Env := devices t [(partC, none)] []
def devices2 (t : TapState) (timeouts : List Nat) : Env := devices t [(deviceA, some 1), (partB, some 1)] timeouts
def devices3 (t : TapState) : Env := devices t [(deviceA, some 1), (partB, some 1), (partZ, none)] []

/-- An environment that answers the next `n` pulses with the bit 0. -/
def zerosAnswered (n : Nat) : Env := .script (List.replicate n (.bit false))

/-- An environment that answers `n` pulses and lets the next one time out. -/
def timeoutAfter (n : Nat) : Env := .script (List.replicate n (.bit false) ++ [.timeout])

/-- A block with the given chain in Idle. -/
def idleState (ds : List Descriptor) (e : Env) : State := { State.powerOn (configOf (some ds)) e with tap := .idle }

/-- The same with the given records. -/
def withRecords (s : State) (names : List (Option NameId)) : State :=
  { s with chain := s.chain.map (List.zipWith (fun n p => { p with current := n }) names) }

/-- The devices of an environment with the given latched instructions. -/
def withLatches (e : Env) (names : List (Option NameId)) : Env :=
  match e with
  | .script l => .script l
  | .synth c k => .synth { c with parts := List.zipWith (fun n d => { d with irLatch := n }) names c.parts } k

/-- The devices of an environment with a value stored behind a name of part 0. -/
def withStored (e : Env) (name : NameId) (v : Bits) : Env :=
  match e with
  | .script l => .script l
  | .synth c k => .synth { c with parts := c.parts.modify 0 (fun d => { d with drStore := [(name, v)] }) } k

/-- A trace string as 95_test_vectors.md writes it: the leftmost of `n` binary digits is the first pulse. -/
def leftFirst (n k : Nat) : Bits := (bitsOfNat n k).reverse

def tmsTrace (s : State) : Bits := s.trace.map PulseEvent.tms
def tdiTrace (s : State) : Bits := s.trace.map PulseEvent.tdi
def tdoTrace (s : State) : List PulseAnswer := s.trace.map PulseEvent.answer
def tdoBits (n k : Nat) : List PulseAnswer := (leftFirst n k).map PulseAnswer.bit
def records (s : State) : Option (List (Option NameId)) := s.chain.map (List.map Part.current)

def irCellsOf (s : State) : List Bits :=
  match s.env with
  | .script _ => []
  | .synth c _ => irFields c

/-- Whether an outcome is a next state with a property. -/
def nextHas (o : Host.Outcome State Fault Refusal) (f : State → Bool) : Bool :=
  match o with
  | .next s => f s
  | .fault _ => false
  | .refused _ => false

theorem next_of_nextHas {o : Host.Outcome State Fault Refusal} {f : State → Bool} (h : nextHas o f = true) :
    ∃ u, o = .next u ∧ f u = true := by
  cases o with
  | next u => exact ⟨u, rfl, h⟩
  | fault r => cases h
  | refused r => cases h

/-- Whether a partition has the given result. -/
def partitionIs (ids : List KnownId) (s : Bits) (frags : List Fragment) : Bool :=
  match partition ids s with
  | .ok fs => fs == frags
  | .error _ => false

def partitionFails (ids : List KnownId) (s : Bits) (k : Status) : Bool :=
  match partition ids s with
  | .ok _ => false
  | .error st => st == k

/-! ## Well-formedness: one ill-formed term for each check -/

theorem test_wellFormed_bounds : (Instr.setInstruction 4095 65535).wellFormed = true ∧
    (Instr.exchangeData 4095 65535).wellFormed = true := by decide
theorem test_illFormed_part : (Instr.setInstruction 4096 0).wellFormed = false ∧
    (Instr.exchangeData 4096 0).wellFormed = false := by decide
theorem test_illFormed_arg : (Instr.setInstruction 0 65536).wellFormed = false ∧
    (Instr.exchangeData 0 65536).wellFormed = false := by decide

/-- R36 and R115 hold of the fixtures. -/
theorem test_fixtures_wf : Config.wf (configOf (some [partA, partB, partZ])) = true ∧
    Config.wf (configOf (some [partC])) = true ∧ Config.wf (configOf none) = true ∧
    knownIdsWf k3 = true := by decide +kernel

/-- R36 (a): an opcode of too many bits. -/
theorem test_r36a : (partC : Descriptor).wfCommon = true ∧
    ({ partC with irLength := some 2 } : Descriptor).wfCommon = false := by decide
/-- R36 (b): a bypass or default instruction that is no key. -/
theorem test_r36b : ({ partC with bypassInstruction := some 9 } : Descriptor).wfCommon = false ∧
    ({ partC with defaultInstruction := some 9 } : Descriptor).wfCommon = false := by decide
/-- R36 (c): a bypass register of width 0, and one of unknown width. -/
theorem test_r36c : ({ partC with bypassInstruction := some 7 } : Descriptor).wfCommon = false ∧
    ({ partA with bypassInstruction := some 4 } : Descriptor).wfCommon = false := by decide
/-- R36 (d): an ID code without a register, without its marker bit, and one that is too long. -/
theorem test_r36d : ({ partC with idcode := some 1 } : Descriptor).wfCommon = false ∧
    ({ partA with idcode := some 0x12345678 } : Descriptor).wfCommon = false ∧
    ({ partA with idcodeLength := 28 } : Descriptor).wfCommon = false := by decide
/-- R36 (e), (h): lengths beyond `MAX_VEC`. -/
theorem test_r36eh : ({ partC with instructions := [⟨0, 7, some 65536⟩] } : Descriptor).wfCommon = false ∧
    ({ partC with irLength := some 65536 } : Descriptor).wfCommon = false ∧
    ({ partC with idcodeLength := 65536 } : Descriptor).wfCommon = false := by decide +kernel
/-- R36 (f), (g): a configured part is described in full, an unknown one not at all. -/
theorem test_r36fg : Part.wf (configuredPart { partC with defaultInstruction := none }) = false ∧
    Part.wf { desc := partC, identity := .unknown, current := none } = false := by decide
/-- R34: a chain has at least one part. -/
theorem test_r34_empty : chainWf [] = false := by decide
/-- R115 (i), (ii). -/
theorem test_r115 : knownIdsWf [{ knownA with value := 0x12345678 }] = false ∧
    knownIdsWf [{ knownA with mask := 0x0FFFFFFE }] = false ∧ knownIdsWf [knownA, knownA] = false := by decide
/-- R7: the lengths of discovery's shifts. -/
theorem test_r7 : Config.wf { configOf none with irFlushLen := 0 } = false ∧
    Config.wf { configOf none with drCaptureLen := 65536 } = false := by decide +kernel

/-! ## Decoding: words written out from R100 to R103 and R107 -/

theorem test_decode_resetTap : decode (.command 0b00010000000000000000000000000000#32) = .ok .resetTap := by rfl
theorem test_decode_enterIdle : decode (.command 0b00100000000000000000000000000000#32) = .ok .enterIdle := by rfl
/-- V4: `SET_INSTRUCTION p2, 0xBEEF`. -/
theorem test_decode_setInstruction :
    decode (.command 0b00110000000000101011111011101111#32) = .ok (.setInstruction 2 0xBEEF) := by rfl
/-- V4: `EXCHANGE_DATA p1, <32 bits>`. -/
theorem test_decode_exchangeData :
    decode (.command 0b01000000000000010000000000100000#32) = .ok (.exchangeData 1 32) := by rfl
theorem test_decode_discoverChain : decode (.command 0b01010000000000000000000000000000#32) = .ok .discoverChain := by rfl
theorem test_decode_stateReset : decode (.row 0b0000#4 true) = .ok (.stateReset true) := by rfl
theorem test_decode_stateIdle : decode (.row 0b0001#4 true) = .ok (.stateIdle true) := by rfl
theorem test_decode_stateSelectDR : decode (.row 0b0010#4 true) = .ok (.stateSelectDR true) := by rfl
theorem test_decode_stateCaptureDR : decode (.row 0b0011#4 true) = .ok (.stateCaptureDR true) := by rfl
theorem test_decode_stateShiftDR : decode (.row 0b0100#4 true) = .ok (.stateShiftDR true) := by rfl
theorem test_decode_stateExit1DR : decode (.row 0b0101#4 true) = .ok (.stateExit1DR true) := by rfl
theorem test_decode_statePauseDR : decode (.row 0b0110#4 true) = .ok (.statePauseDR true) := by rfl
theorem test_decode_stateExit2DR : decode (.row 0b0111#4 true) = .ok (.stateExit2DR true) := by rfl
theorem test_decode_stateUpdateDR : decode (.row 0b1000#4 true) = .ok (.stateUpdateDR true) := by rfl
theorem test_decode_stateSelectIR : decode (.row 0b1001#4 true) = .ok (.stateSelectIR true) := by rfl
theorem test_decode_stateCaptureIR : decode (.row 0b1010#4 true) = .ok (.stateCaptureIR true) := by rfl
theorem test_decode_stateShiftIR : decode (.row 0b1011#4 true) = .ok (.stateShiftIR true) := by rfl
theorem test_decode_stateExit1IR : decode (.row 0b1100#4 true) = .ok (.stateExit1IR true) := by rfl
theorem test_decode_statePauseIR : decode (.row 0b1101#4 true) = .ok (.statePauseIR true) := by rfl
theorem test_decode_stateExit2IR : decode (.row 0b1110#4 true) = .ok (.stateExit2IR true) := by rfl
theorem test_decode_stateUpdateIR : decode (.row 0b1111#4 true) = .ok (.stateUpdateIR true) := by rfl

/-- V5: reserved operation codes and format-Z words with operand bits. -/
theorem test_decode_refused : decode (.command 0x00000000#32) = .error (.reservedOp 0x0#4) ∧
    decode (.command 0x60000000#32) = .error (.reservedOp 0x6#4) ∧
    decode (.command 0xF1234567#32) = .error (.reservedOp 0xF#4) ∧
    decode (.command 0x10000001#32) = .error (.formatZOperand 0x1#4) ∧
    decode (.command 0x20010000#32) = .error (.formatZOperand 0x2#4) ∧
    decode (.command 0x50000100#32) = .error (.formatZOperand 0x5#4) := ⟨rfl, rfl, rfl, rfl, rfl, rfl⟩

/-- The bits of a table row, and a word that is no row's. -/
theorem test_decodeTableWord : decodeTableWord 32 0x40010020 = some (.exchangeData 1 32) ∧
    decodeTableWord 8 0b1011 = some (.stateShiftIR false) ∧ decodeTableWord 16 0b100001011 = some (.stateShiftIR true) ∧
    decodeTableWord 8 0b10000 = none ∧ decodeTableWord 32 0 = none := by decide

/-- The word at the port is the one the next step runs, from reset. -/
theorem test_withFetchWord (w : Nat) (i : Instr) (h : decodeTableWord 32 w = some i) (hw : w < 2 ^ 32) :
    step (State.reset.withFetchWord 32 w) = exec i { State.reset with port := [] } := by
  have ht : tableWord 32 w = some (.command (BitVec.ofNat 32 w)) := by simp [tableWord]; omega
  have hd : decode (.command (BitVec.ofNat 32 w)) = .ok i := by
    simp only [decodeTableWord, ht] at h
    split at h
    · rename_i j hj
      cases h
      exact hj
    · cases h
  simp only [State.withFetchWord, ht, step, State.reset, State.powerOn, accepts, runWord, State.withPort, hd]
  rfl

/-! ## Vectors of the functions -/

/-- V1: the whole of `advance`, as codes. -/
theorem test_V1 :
    ([.reset, .idle, .selectDR, .captureDR, .shiftDR, .exit1DR, .pauseDR, .exit2DR, .updateDR, .selectIR, .captureIR,
      .shiftIR, .exit1IR, .pauseIR, .exit2IR, .updateIR] : List TapState).map (fun s => (advance s false).code.toNat) =
        [1, 1, 3, 4, 4, 6, 6, 4, 1, 10, 11, 11, 13, 13, 11, 1] ∧
    ([.reset, .idle, .selectDR, .captureDR, .shiftDR, .exit1DR, .pauseDR, .exit2DR, .updateDR, .selectIR, .captureIR,
      .shiftIR, .exit1IR, .pauseIR, .exit2IR, .updateIR] : List TapState).map (fun s => (advance s true).code.toNat) =
        [0, 2, 9, 5, 5, 8, 7, 8, 2, 0, 12, 12, 15, 14, 15, 2] := by decide
/-- V2: walks. -/
theorem test_V2 : advanceAll .idle (leftFirst 10 0b1100000110) = .idle ∧
    advanceAll .reset (leftFirst 13 0b0100101000110) = .idle ∧
    advanceAll .idle (leftFirst 12 0b101001011010) = .captureDR ∧
    advanceAll .idle (leftFirst 12 0b110100101110) = .captureDR := by decide
/-- V8, V9: numbers and vectors, and their packing. -/
theorem test_V8_V9 : bitsOfNat 4 0b0010 = [false, true, false, false] ∧ bitsToNat [true, false, true] = 5 ∧
    readWord (writeVector [] [true, false, true]) 0 = 5#32 ∧
    readWord (writeVector [] (constBits false 32 ++ [true])) 1 = 1#32 ∧
    readWord (writeVector [] (bitsOfNat 32 0x12345679)) 0 = 0x12345679#32 := by decide +kernel
/-- V10: windows of the IR space of CH2 and CH3. -/
theorem test_V10 : windowLo [4, 5] 1 = 0 ∧ windowLo [4, 5] 0 = 5 ∧ windowLo [4, 5, 2] 2 = 0 ∧ windowLo [4, 5, 2] 1 = 2 ∧
    windowLo [4, 5, 2] 0 = 7 := by decide
/-- V12: IR vectors. -/
theorem test_V12 : buildIR ch2 0 2 = leftFirst 9 0b111110100 ∧ buildIR ch2 1 0 = leftFirst 9 0b111111111 ∧
    buildIR ch2 1 3 = leftFirst 9 0b000001111 ∧ buildIR ch2 0 4 = leftFirst 9 0b111110001 ∧
    buildIR ([partA, partB, partZ].map configuredPart) 1 3 = leftFirst 11 0b11000001111 ∧
    buildIR ch1 0 7 = leftFirst 3 0b110 := by decide
/-- V13: DR vectors. -/
theorem test_V13 : buildDR [{ configuredPart partA with current := some 2 }, { configuredPart partB with current := some 0 }]
      0 (bitsOfNat 8 0x3C) = leftFirst 9 0b000111100 ∧
    buildDR [{ configuredPart partA with current := some 2 }, { configuredPart partB with current := some 3 }]
      1 [true, false, true] = leftFirst 11 0b10100000000 := by decide
/-- V7: the status registers at power-on with CH2, and with no chain. -/
theorem test_V7 : let s := State.powerOn (configOf (some [partA, partB])) (.script [])
    let n := State.powerOn (configOf none) (.script [])
    (List.range 5).map (readStatusRegister s) = [some 0x10#32, some 0#32, some 0x11#32, some 0x80000009#32, some 0#32] ∧
    readStatusRegister n 2 = some 0#32 ∧ readStatusRegister n 3 = some 0#32 := by decide +kernel

/-! ### Partition (95_test_vectors.md 2.7) -/

def idA : Bits := bitsOfNat 32 0x12345679
def idB : Bits := bitsOfNat 32 0x0ABCDEF1

theorem test_V30 : partitionIs k2 (false :: idB ++ idA ++ constBits false 15)
    [.bypass 0, .known 1 1 0x0ABCDEF1, .known 0 33 0x12345679] = true := by decide +kernel
theorem test_V31 : partitionIs k2 (false :: bitsOfNat 32 0x3ABCDEF1 ++ idA ++ constBits false 15)
    [.bypass 0, .known 1 1 0x3ABCDEF1, .known 0 33 0x12345679] = true := by decide +kernel
theorem test_V32 : partitionIs k2 (idB ++ idA ++ false :: constBits false 15)
    [.known 1 0 0x0ABCDEF1, .known 0 32 0x12345679] = true := by decide +kernel
theorem test_V33 : partitionIs k2 (bitsOfNat 32 0x0BADC0DF ++ idA ++ constBits false 16)
    [.unknown 0 0x0BADC0DF, .known 0 32 0x12345679] = true := by decide +kernel
theorem test_V34 : partitionFails k3 (false :: idB ++ idA ++ constBits false 15) .ambiguousChainTopology = true := by
  decide +kernel
theorem test_V35 : partitionFails k2 (constBits false 70 ++ idA.take 10) .ambiguousChainTopology = true := by
  decide +kernel
theorem test_V36 : partitionFails k2 (constBits false 80) .noDevicesDetected = true := by decide +kernel
theorem test_V37 : partitionFails k2 (constBits true 80) .ambiguousChainTopology = true ∧
    partitionIs k2 (constBits true 96) [.unknown 0 0xFFFFFFFF, .unknown 32 0xFFFFFFFF, .unknown 64 0xFFFFFFFF] = true := by
  decide +kernel
theorem test_V39 : partitionIs k2 (false :: false :: idA ++ constBits false 6)
    [.bypass 0, .bypass 1, .known 0 2 0x12345679] = true := by decide +kernel

/-! ## One step of each instruction -/

/-- R153, example: from ShiftDR, unknown. -/
theorem test_resetTap : nextHas (exec .resetTap
      (withRecords { idleState [partA, partB] (zerosAnswered 5) with tap := .shiftDR, tapKnown := false } [some 2, some 3]))
    (fun u => u.tap == .reset && u.tapKnown && tmsTrace u == leftFirst 5 0b11111 && records u == some [some 1, some 1]) =
      true := by decide
/-- R153: the third pulse times out; the records are not reset. -/
theorem test_resetTap_timeout : nextHas (exec .resetTap (withRecords (idleState [partA, partB] (timeoutAfter 2)) [some 2, some 3]))
    (fun u => !u.tapKnown && u.tap == .selectIR && u.responses == [0x40000000#32] &&
      records u == some [some 2, some 3]) = true := by decide
/-- R154, example: after power-on. -/
theorem test_enterIdle : nextHas (exec .enterIdle (State.powerOn (configOf none) (zerosAnswered 1)))
    (fun u => u.tap == .idle && tmsTrace u == [false] && tdiTrace u == [false] && u.responses == [0#32]) = true := by decide
/-- R154, R233: an unknown TAP. -/
theorem test_enterIdle_unknown : nextHas (exec .enterIdle { State.powerOn (configOf none) (zerosAnswered 1) with tapKnown := false })
    (fun u => u.trace == [] && u.responses == [0x30000000#32]) = true := by decide
/-- V14: the trace with TDO of the reference environment, the record and the devices' IR cells. -/
theorem test_V14 : nextHas (exec (.setInstruction 0 2) (idleState [partA, partB] (devices2 .idle [])))
    (fun u => tmsTrace u == leftFirst 15 0b110000000000110 && tdiTrace u == leftFirst 15 0b000011111010000 &&
      tdoTrace u == tdoBits 15 0b000010000100000 && records u == some [some 2, some 1] &&
      irCellsOf u == [leftFirst 4 0b0100, leftFirst 5 0b11111]) = true := by decide +kernel
/-- V18: an unknown name. -/
theorem test_V18 : nextHas (exec (.setInstruction 0 9) (idleState [partA, partB] (devices2 .idle [])))
    (fun u => u.trace == [] && u.responses == [0x10000000#32] && records u == some [some 1, some 1]) = true := by decide
/-- V23: records and devices [SAMPLE, BYPASS], A's SAMPLE register holding 0xA5. -/
theorem test_V23 : nextHas (exec (.exchangeData 0 8)
      { withRecords (idleState [partA, partB]
          (withStored (withLatches (devices2 .idle []) [some 2, some 0]) 2 (bitsOfNat 8 0xA5))) [some 2, some 0] with
        outbuf := writeWord [] 0 0x3C#32 })
    (fun u => tmsTrace u == leftFirst 14 0b10000000000110 && tdiTrace u == leftFirst 14 0b00000011110000 &&
      tdoTrace u == tdoBits 14 0b00001010010100 && resultBits u == bitsOfNat 8 0xA5 && u.responses == [8#32]) = true := by
  decide +kernel
/-- V26: the declared width is 32. -/
theorem test_V26 : nextHas (exec (.exchangeData 0 8) (idleState [partA, partB] (devices2 .idle [])))
    (fun u => u.trace == [] && u.responses == [0x20000000#32]) = true := by decide
/-- V40: discovery of CH3. -/
theorem test_V40 : nextHas (exec .discoverChain (State.powerOn (configOf none) (devices3 .reset)))
    (fun u => tmsTrace u == leftFirst 108 0b111110110000000001111101000000000000000000000000000000000000000000000000000000000000000000000000000000000110 &&
      tdoTrace u == tdoBits 108 0b000000000010100001000000000100011110111101100111101010100001001111001101010001011000100100000000000000000000 &&
      u.responses == [3#32] && readStatusRegister u 2 == some 0x23#32) = true := by decide +kernel
/-- V43: pulse 30 times out. -/
theorem test_V43 : nextHas (exec .discoverChain (withRecords (idleState [partA, partB] (devices2 .idle [30])) [some 2, some 1]))
    (fun u => u.trace.length == 31 && u.tap == .shiftDR && !u.tapKnown && records u == some [some 1, some 1] &&
      u.chainStatus == .unverified && u.responses == [0x40000000#32]) = true := by decide +kernel

/-! V1 again, through the sixteen rows (R131 to R146). -/

theorem test_stateReset (s : State) : exec (.stateReset false) s = .next (s.recordAdvance .idle) ∧
    exec (.stateReset true) s = .next (s.recordAdvance .reset) := ⟨rfl, rfl⟩
theorem test_stateIdle (s : State) : exec (.stateIdle false) s = .next (s.recordAdvance .idle) ∧
    exec (.stateIdle true) s = .next (s.recordAdvance .selectDR) := ⟨rfl, rfl⟩
theorem test_stateSelectDR (s : State) : exec (.stateSelectDR false) s = .next (s.recordAdvance .captureDR) ∧
    exec (.stateSelectDR true) s = .next (s.recordAdvance .selectIR) := ⟨rfl, rfl⟩
theorem test_stateCaptureDR (s : State) : exec (.stateCaptureDR false) s = .next (s.recordAdvance .shiftDR) ∧
    exec (.stateCaptureDR true) s = .next (s.recordAdvance .exit1DR) := ⟨rfl, rfl⟩
theorem test_stateShiftDR (s : State) : exec (.stateShiftDR false) s = .next (s.recordAdvance .shiftDR) ∧
    exec (.stateShiftDR true) s = .next (s.recordAdvance .exit1DR) := ⟨rfl, rfl⟩
theorem test_stateExit1DR (s : State) : exec (.stateExit1DR false) s = .next (s.recordAdvance .pauseDR) ∧
    exec (.stateExit1DR true) s = .next (s.recordAdvance .updateDR) := ⟨rfl, rfl⟩
theorem test_statePauseDR (s : State) : exec (.statePauseDR false) s = .next (s.recordAdvance .pauseDR) ∧
    exec (.statePauseDR true) s = .next (s.recordAdvance .exit2DR) := ⟨rfl, rfl⟩
theorem test_stateExit2DR (s : State) : exec (.stateExit2DR false) s = .next (s.recordAdvance .shiftDR) ∧
    exec (.stateExit2DR true) s = .next (s.recordAdvance .updateDR) := ⟨rfl, rfl⟩
theorem test_stateUpdateDR (s : State) : exec (.stateUpdateDR false) s = .next (s.recordAdvance .idle) ∧
    exec (.stateUpdateDR true) s = .next (s.recordAdvance .selectDR) := ⟨rfl, rfl⟩
theorem test_stateSelectIR (s : State) : exec (.stateSelectIR false) s = .next (s.recordAdvance .captureIR) ∧
    exec (.stateSelectIR true) s = .next (s.recordAdvance .reset) := ⟨rfl, rfl⟩
theorem test_stateCaptureIR (s : State) : exec (.stateCaptureIR false) s = .next (s.recordAdvance .shiftIR) ∧
    exec (.stateCaptureIR true) s = .next (s.recordAdvance .exit1IR) := ⟨rfl, rfl⟩
theorem test_stateShiftIR (s : State) : exec (.stateShiftIR false) s = .next (s.recordAdvance .shiftIR) ∧
    exec (.stateShiftIR true) s = .next (s.recordAdvance .exit1IR) := ⟨rfl, rfl⟩
theorem test_stateExit1IR (s : State) : exec (.stateExit1IR false) s = .next (s.recordAdvance .pauseIR) ∧
    exec (.stateExit1IR true) s = .next (s.recordAdvance .updateIR) := ⟨rfl, rfl⟩
theorem test_statePauseIR (s : State) : exec (.statePauseIR false) s = .next (s.recordAdvance .pauseIR) ∧
    exec (.statePauseIR true) s = .next (s.recordAdvance .exit2IR) := ⟨rfl, rfl⟩
theorem test_stateExit2IR (s : State) : exec (.stateExit2IR false) s = .next (s.recordAdvance .shiftIR) ∧
    exec (.stateExit2IR true) s = .next (s.recordAdvance .updateIR) := ⟨rfl, rfl⟩
theorem test_stateUpdateIR (s : State) : exec (.stateUpdateIR false) s = .next (s.recordAdvance .idle) ∧
    exec (.stateUpdateIR true) s = .next (s.recordAdvance .selectDR) := ⟨rfl, rfl⟩

/-! ## Witnesses: for every statement with hypotheses, concrete values that meet all of them -/

theorem witness_DecodeOfEncodeIsTheInstruction : ∃ i : Instr, i.wellFormed = true :=
  ⟨.setInstruction 4095 65535, by decide⟩

theorem witness_EncodeOfDecodeIsTheWord : ∃ (w : InstrWord) (i : Instr), decode w = .ok i :=
  ⟨.command 0x4FFFFFFF#32, .exchangeData 4095 65535, rfl⟩

theorem witness_OperandsComeFromTheirFields :
    decode (.command 0x3FFFFFFF#32) = .ok (.setInstruction 4095 65535) ∧
    decode (.command 0x40000000#32) = .ok (.exchangeData 0 0) ∧ ∃ n i : Nat, i < n ∧ n = 65535 ∧ i = 65534 :=
  ⟨rfl, rfl, 65535, 65534, by decide, rfl, rfl⟩

theorem witness_StepRunsTheDecodedInstruction :
    (∃ (s : State) (w : InstrWord) (rest : List HostItem) (i : Instr),
      s.port = .offer w :: rest ∧ decode w = .ok i ∧ (isCommand i = true → s.busy = false)) ∧
    (∃ (s : State) (cw : Word) (rest : List HostItem) (r : Reject),
      s.port = .offer (.command cw) :: rest ∧ decode (.command cw) = .error r ∧ s.busy = false) ∧
    (∃ (s : State) (cw : Word) (rest : List HostItem), s.port = .offer (.command cw) :: rest ∧ s.busy = true) ∧
    ∃ s : State, s.port = [] :=
  ⟨⟨{ idleState [partC] (zerosAnswered 1) with port := [.offer (.command 0x20000000#32)] }, _, _, .enterIdle, rfl, rfl,
      fun _ => rfl⟩,
    ⟨{ idleState [partC] (zerosAnswered 1) with port := [.offer (.command 0x20000001#32)] }, _, _, _, rfl, rfl, rfl⟩,
    ⟨{ idleState [partC] (zerosAnswered 1) with port := [.offer (.command 0x20000000#32)], busy := true }, _, _, rfl, rfl⟩,
    idleState [partC] (zerosAnswered 1), rfl⟩

/-- No chain, and the part index just beyond the chain. -/
theorem witness_CommandOnAbsentPartIsRefused :
    (∃ (s : State) (t : Nat), s.chain = none ∧ ∀ ps, s.chain = some ps → ps.length ≤ t) ∧
    ∃ (s : State) (t : Nat), s.chain = some ch2 ∧ t = 2 ∧ ∀ ps, s.chain = some ps → ps.length ≤ t :=
  ⟨⟨State.powerOn (configOf none) (zerosAnswered 0), 0, rfl, by rintro _ ⟨⟩⟩,
    idleState [partA, partB] (zerosAnswered 0), 2, rfl, rfl, by rintro _ ⟨⟩; exact Nat.le_refl 2⟩

/-- A command that succeeds, one that is refused by its part index, and a word that spells nothing. -/
theorem witness_EveryCommandAnswersOnce :
    (∃ (s : State) (rest : List HostItem), s.port = .offer (.command 0x40000001#32) :: rest ∧ s.busy = false) ∧
    (∃ (s : State) (rest : List HostItem), s.port = .offer (.command 0x4FFF0008#32) :: rest ∧ s.busy = false) ∧
    ∃ (s : State) (rest : List HostItem), s.port = .offer (.command 0xF1234567#32) :: rest ∧ s.busy = false :=
  ⟨⟨{ idleState [partC] (zerosAnswered 6) with port := [.offer (.command 0x40000001#32)] }, [], rfl, rfl⟩,
    ⟨{ idleState [partC] (zerosAnswered 6) with port := [.offer (.command 0x4FFF0008#32)] }, [], rfl, rfl⟩,
    { idleState [partC] (zerosAnswered 6) with port := [.offer (.command 0xF1234567#32)] }, [], rfl, rfl⟩

theorem witness_FiveOnesReachReset :
    [0, 3, 2, 5, 5, 4, 5, 4, 3, 1, 5, 5, 4, 5, 4, 3][TapState.reset.code.toNat]? = some 0 ∧
    [0, 3, 2, 5, 5, 4, 5, 4, 3, 1, 5, 5, 4, 5, 4, 3][TapState.updateIR.code.toNat]? = some 3 := by decide

theorem witness_FiveOrMoreOnesReachReset : ∃ k : Nat, 5 ≤ k := ⟨5, Nat.le_refl 5⟩

theorem witness_StepTracksTheTap :
    (∃ (s : State) (b : Bool) (e : Env), s.env.answer s.pulseNo true false = (.bit b, e)) ∧
    ∃ (s : State) (e : Env), s.env.answer s.pulseNo true false = (.timeout, e) :=
  ⟨⟨idleState [partC] (zerosAnswered 1), false, .script [], rfl⟩, idleState [partC] (timeoutAfter 0), .script [], rfl⟩

theorem witness_PowerOnValues : ∃ (c : Config) (e : Env) (ps : List Part) (p : Part),
    (State.powerOn c e).chain = some ps ∧ p ∈ ps :=
  ⟨configOf (some [partC]), zerosAnswered 0, ch1, configuredPart partC, rfl, by decide⟩

theorem witness_PowerOnMeetsTheInvariant : ∃ c : Config, Config.wf c = true :=
  ⟨configOf (some [partA, partB]), by decide +kernel⟩

/-- A block in Idle with RESET_TAP offered. -/
theorem witness_EveryStepKeepsTheInvariant : ∃ s u : State, s.Inv ∧ step s = .next u ∧ u.lastStatus = 0#4 := by
  refine ⟨{ idleState [partC] (zerosAnswered 5) with port := [.offer (.command 0x10000000#32)] }, _, ?_, rfl, by decide⟩
  exact ⟨by decide +kernel, rfl, fun _ => .inr rfl, by rintro _ ⟨⟩; decide, by decide, rfl, rfl, ⟨.ok, rfl⟩,
    fun _ => rfl, rfl⟩

theorem witness_ResetInputIsPowerOn :
    (∃ (s : State) (rest : List HostItem), s.port = .resetInput :: rest ∧ Config.wf s.cfg = true) ∧
    ∃ (s : State) (rest : List HostItem), s.port = .resetInput :: rest ∧ Config.wf s.cfg = false :=
  ⟨⟨{ idleState [partC] (zerosAnswered 0) with port := [.resetInput] }, [], rfl, by decide +kernel⟩,
    { idleState [] (zerosAnswered 0) with port := [.resetInput] }, [], rfl, by decide +kernel⟩

theorem witness_ResetTapCompletes : ∃ (s : State) (bits : Bits) (e : Env), s.exchange resetPlan = .all bits e :=
  ⟨{ idleState [partA, partB] (zerosAnswered 5) with tapKnown := false, tap := .shiftIR }, constBits false 5, .script [],
    by decide⟩

theorem witness_EnterIdleCompletes :
    (∃ (s : State) (b : Bool) (e : Env), s.tapKnown = true ∧ s.tap = .reset ∧ s.exchange idlePlan = .all [b] e) ∧
    ∃ (s : State) (b : Bool) (e : Env), s.tapKnown = true ∧ s.tap = .idle ∧ s.exchange idlePlan = .all [b] e :=
  ⟨⟨State.powerOn (configOf none) (zerosAnswered 1), false, .script [], rfl, rfl, by decide⟩,
    idleState [partC] (zerosAnswered 1), false, .script [], rfl, rfl, by decide⟩

theorem witness_RecoverReachesIdle : ∃ (s : State) (bits : Bits) (e : Env),
    s.exchange (resetPlan ++ idlePlan) = .all bits e :=
  ⟨{ idleState [partA, partB] (zerosAnswered 6) with tapKnown := false, tap := .shiftIR }, constBits false 6, .script [],
    by decide⟩

theorem witness_SetInstructionCompletes :
    ∃ (s : State) (ps : List Part) (t : Nat) (p : Part) (name : NameId) (bits : Bits) (e : Env),
      s.chain = some ps ∧ chainWf ps = true ∧ ps[t]? = some p ∧ s.tapKnown = true ∧ s.tap = .idle ∧
      irResolvable ps t name = true ∧ s.exchange (irScanPlan (buildIR ps t name)) = .all bits e :=
  ⟨idleState [partA, partB] (zerosAnswered 15), ch2, 0, configuredPart partA, 2, constBits false 15, .script [], rfl,
    by decide +kernel, rfl, rfl, rfl, by decide, by decide +kernel⟩

/-- Not Idle, not known; and for each way not to be resolvable (R171 (a), (b), (c)) a chain. -/
theorem witness_SetInstructionTestsInOrder :
    (∃ (s : State), s.chain = some ch2 ∧ 1 < ch2.length ∧ s.tapKnown = true ∧ s.tap = .reset) ∧
    (∃ (s : State), s.chain = some ch2 ∧ 1 < ch2.length ∧ s.tapKnown = false ∧ s.tap = .idle) ∧
    (∃ (s : State) (p : Part), s.chain = some ch2 ∧ s.tapKnown = true ∧ s.tap = .idle ∧ ch2[1]? = some p ∧
      (resolve p 2).isSome = false) ∧
    (∃ (s : State) (ps : List Part), s.chain = some ps ∧ 0 < ps.length ∧ s.tapKnown = true ∧ s.tap = .idle ∧
      ∃ p ∈ ps, p.desc.irLength = none) ∧
    ∃ (s : State) (ps : List Part) (q : Nat) (p : Part), s.chain = some ps ∧ 0 < ps.length ∧ s.tapKnown = true ∧
      s.tap = .idle ∧ ps[q]? = some p ∧ q ≠ 0 ∧ p.desc.bypassInstruction = none :=
  ⟨⟨State.powerOn (configOf (some [partA, partB])) (zerosAnswered 0), rfl, by decide, rfl, rfl⟩,
    ⟨{ idleState [partA, partB] (zerosAnswered 0) with tapKnown := false }, rfl, by decide, rfl, rfl⟩,
    ⟨idleState [partA, partB] (zerosAnswered 0), configuredPart partB, rfl, rfl, rfl, rfl, by decide⟩,
    ⟨{ idleState [partA] (zerosAnswered 0) with chain := some [configuredPart partA, fragmentPart k2 (.bypass 0)] }, _, rfl,
      by decide, rfl, rfl, fragmentPart k2 (.bypass 0), by decide, rfl⟩,
    { idleState [partA] (zerosAnswered 0) with chain := some [configuredPart partA, fragmentPart k2 (.bypass 0)] }, _, 1,
      fragmentPart k2 (.bypass 0), rfl, by decide, rfl, rfl, rfl, by decide, rfl⟩

/-- A declared width, and an undeclared one (USER of A). -/
theorem witness_ExchangeDataCompletes :
    (∃ (s : State) (ps : List Part) (p : Part) (bits : Bits) (e : Env),
      s.chain = some ps ∧ ps[0]? = some p ∧ s.tapKnown = true ∧ s.tap = .idle ∧ (1 : Nat) ≤ 8 ∧
      (∃ c, p.current = some c ∧ drWidth p c = some 8) ∧
      (∀ (q : Nat) (r : Part), ps[q]? = some r → q ≠ 0 → recordWidth r ≠ none) ∧
      s.exchange (drScanPlan (buildDR ps 0 (outBits s 8))) = .all bits e) ∧
    ∃ (s : State) (ps : List Part) (p : Part) (bits : Bits) (e : Env),
      s.chain = some ps ∧ ps[0]? = some p ∧ s.tapKnown = true ∧ s.tap = .idle ∧ (1 : Nat) ≤ 1 ∧
      (∃ c, p.current = some c ∧ drWidth p c = none) ∧
      (∀ (q : Nat) (r : Part), ps[q]? = some r → q ≠ 0 → recordWidth r ≠ none) ∧
      s.exchange (drScanPlan (buildDR ps 0 (outBits s 1))) = .all bits e :=
  ⟨⟨withRecords (idleState [partA, partB] (zerosAnswered 14)) [some 2, some 0], _, _, constBits false 14, .script [], rfl,
      rfl, rfl, rfl, by decide, ⟨2, rfl, rfl⟩, (othersWidthKnown_iff _ _).1 (by decide), by decide +kernel⟩,
    withRecords (idleState [partA, partB] (zerosAnswered 7)) [some 4, some 0], _, _, constBits false 7, .script [], rfl,
      rfl, rfl, rfl, by decide, ⟨4, rfl, rfl⟩, (othersWidthKnown_iff _ _).1 (by decide), by decide +kernel⟩

/-- Not Idle; a declared width that is not 0; no declared width; the declared width 0. -/
theorem witness_EmptyExchangeDoesNothing :
    (∃ (s : State) (ps : List Part) (p : Part), s.chain = some ps ∧ ps[0]? = some p ∧
      ¬(s.tapKnown = true ∧ s.tap = .idle)) ∧
    (∃ (s : State) (ps : List Part) (p : Part), s.chain = some ps ∧ ps[1]? = some p ∧ s.tapKnown = true ∧
      s.tap = .idle ∧ ∃ c k, p.current = some c ∧ drWidth p c = some k ∧ k ≠ 0) ∧
    (∃ (s : State) (ps : List Part) (p : Part), s.chain = some ps ∧ ps[0]? = some p ∧ s.tapKnown = true ∧
      s.tap = .idle ∧ (∃ c, p.current = some c ∧ drWidth p c = none) ∧
      ∀ (q : Nat) (r : Part), ps[q]? = some r → q ≠ 0 → recordWidth r ≠ none) ∧
    ∃ (s : State) (ps : List Part) (p : Part), s.chain = some ps ∧ ps[0]? = some p ∧ s.tapKnown = true ∧
      s.tap = .idle ∧ (∃ c, p.current = some c ∧ drWidth p c = some 0) ∧
      ∀ (q : Nat) (r : Part), ps[q]? = some r → q ≠ 0 → recordWidth r ≠ none :=
  ⟨⟨State.powerOn (configOf (some [partC])) (zerosAnswered 0), _, _, rfl, rfl, by decide⟩,
    ⟨idleState [partA, partB] (zerosAnswered 0), _, _, rfl, rfl, rfl, rfl, 1, 32, rfl, rfl, by decide⟩,
    ⟨withRecords (idleState [partA, partB] (zerosAnswered 0)) [some 4, some 1], _, _, rfl, rfl, rfl, rfl, ⟨4, rfl, rfl⟩,
      (othersWidthKnown_iff _ _).1 (by decide)⟩,
    withRecords (idleState [partC] (zerosAnswered 0)) [some 7], _, _, rfl, rfl, rfl, rfl, ⟨7, rfl, rfl⟩,
      (othersWidthKnown_iff _ _).1 (by decide)⟩

/-- Not known; and no record of the target, another declared width (0 against 1), another part of unknown width. -/
theorem witness_ExchangeDataTestsInOrder :
    (∃ (s : State) (ps : List Part) (p : Part), s.chain = some ps ∧ ps[0]? = some p ∧
      ¬(s.tapKnown = true ∧ s.tap = .idle)) ∧
    (∃ (s : State) (ps : List Part) (p : Part), s.chain = some ps ∧ ps[0]? = some p ∧ s.tapKnown = true ∧
      s.tap = .idle ∧ p.current = none) ∧
    (∃ (s : State) (ps : List Part) (p : Part), s.chain = some ps ∧ ps[0]? = some p ∧ s.tapKnown = true ∧
      s.tap = .idle ∧ ∃ c k, p.current = some c ∧ drWidth p c = some k ∧ k ≠ 1) ∧
    ∃ (s : State) (ps : List Part) (p r : Part) (q : Nat), s.chain = some ps ∧ ps[1]? = some p ∧ s.tapKnown = true ∧
      s.tap = .idle ∧ ps[q]? = some r ∧ q ≠ 1 ∧ recordWidth r = none :=
  ⟨⟨{ idleState [partC] (zerosAnswered 0) with tapKnown := false }, _, _, rfl, rfl, by decide⟩,
    ⟨{ idleState [partA] (zerosAnswered 0) with chain := some [fragmentPart k2 (.bypass 0)] }, _, _, rfl, rfl, rfl, rfl, rfl⟩,
    ⟨withRecords (idleState [partC] (zerosAnswered 0)) [some 7], _, _, rfl, rfl, rfl, rfl, 7, 0, rfl, rfl, by decide⟩,
    withRecords (idleState [partA, partB] (zerosAnswered 0)) [some 4, some 1], _, _, _, 0, rfl, rfl, rfl, rfl, rfl,
      by decide, rfl⟩

/-- The longest vector; a vector of one bit and the places after it. -/
theorem witness_StoredVectorReadsBack :
    (∃ (m : Memory) (v : Bits), Memory.wf m = true ∧ v.length ≤ 65535 ∧ v.length = 65535) ∧
    ∃ (v : Bits) (i j : Nat), v.length ≤ i ∧ i < 32 * ((v.length + 31) / 32) ∧ 32 * ((v.length + 31) / 32) ≤ j :=
  ⟨⟨[], constBits true 65535, rfl, Nat.le_of_eq List.length_replicate, List.length_replicate⟩, [true], 31, 32, by decide, by decide,
    by decide⟩

theorem witness_HostWritesOutbufWord :
    (∃ (s : State) (rest : List HostItem), s.port = .writeOutbuf 0 1#32 :: rest ∧ Memory.wf s.outbuf = true ∧
      s.busy = true) ∧
    (∃ (s : State) (rest : List HostItem), s.port = .writeOutbuf 2048 1#32 :: rest ∧ Memory.wf s.outbuf = true ∧
      s.busy = false ∧ 2048 ≤ 2048) ∧
    (∃ (s : State) (rest : List HostItem), s.port = .writeOutbuf 2047 1#32 :: rest ∧ Memory.wf s.outbuf = true ∧
      s.busy = false ∧ 2047 < 2048) ∧
    ∃ (s : State) (rest : List HostItem), s.port = .writeOutbuf 0 1#32 :: rest ∧ Memory.wf s.outbuf = true ∧
      s.busy = false ∧ 0 < 2048 :=
  ⟨⟨{ idleState [partC] (zerosAnswered 0) with port := [.writeOutbuf 0 1#32], busy := true }, [], rfl, rfl, rfl⟩,
    ⟨{ idleState [partC] (zerosAnswered 0) with port := [.writeOutbuf 2048 1#32] }, [], rfl, rfl, rfl, by decide⟩,
    ⟨{ idleState [partC] (zerosAnswered 0) with port := [.writeOutbuf 2047 1#32] }, [], rfl, rfl, rfl, by decide⟩,
    { idleState [partC] (zerosAnswered 0) with port := [.writeOutbuf 0 1#32] }, [], rfl, rfl, rfl, by decide⟩

/-- A line whose operand takes two words. -/
theorem witness_AssemblerLineLoadsTheOperand :
    ∃ (s : State) (part : Nat) (v : Bits) (rest : List HostItem),
      s.port = (AsmLine.exchangeData part v).items ++ rest ∧ s.busy = false ∧ Memory.wf s.outbuf = true ∧
      v.length ≤ 65535 ∧ v.length = 33 :=
  ⟨{ idleState [partC] (zerosAnswered 0) with port := (AsmLine.exchangeData 0 (constBits true 33)).items }, 0,
    constBits true 33, [], (List.append_nil _).symm, rfl, rfl, by decide, by decide⟩

/-- F = 1, M = 33. -/
def shortConfig : Config := { irFlushLen := 1, drCaptureLen := 33, knownIds := k2, chainCfg := some [partC] }

/-- A block of that configuration in an environment that answers discovery with the given stream. -/
def streamState (v : Bits) : State :=
  State.powerOn shortConfig (.script ((constBits false 19 ++ v ++ constBits false 2).map PulseAnswer.bit))

theorem witness_DiscoverChainInstallsTheChain :
    ∃ (s : State) (bits : Bits) (e : Env) (frags : List Fragment), Config.wf s.cfg = true ∧
      s.exchange (discoverPlan s.cfg.irFlushLen s.cfg.drCaptureLen) = .all bits e ∧
      partition s.cfg.knownIds (capturedStream s.cfg bits) = .ok frags :=
  ⟨streamState (idA ++ [false]), constBits false 19 ++ (idA ++ [false]) ++ constBits false 2, .script [],
    [.known 0 0 0x12345679], by decide +kernel, by decide +kernel, by rfl⟩

/-- A stream without a 1, and one whose last field is cut off. -/
theorem witness_DiscoverChainWithoutResult :
    (∃ (s : State) (bits : Bits) (e : Env), Config.wf s.cfg = true ∧
      s.exchange (discoverPlan s.cfg.irFlushLen s.cfg.drCaptureLen) = .all bits e ∧
      hasOne (capturedStream s.cfg bits) = false) ∧
    ∃ (s : State) (bits : Bits) (e : Env), Config.wf s.cfg = true ∧
      s.exchange (discoverPlan s.cfg.irFlushLen s.cfg.drCaptureLen) = .all bits e ∧
      hasOne (capturedStream s.cfg bits) = true ∧
      ∀ frags, partition s.cfg.knownIds (capturedStream s.cfg bits) ≠ .ok frags :=
  ⟨⟨streamState (constBits false 33), constBits false 54, .script [], by decide +kernel, by decide +kernel,
      by decide +kernel⟩,
    streamState (constBits true 33), constBits false 19 ++ constBits true 33 ++ constBits false 2, .script [],
    by decide +kernel, by decide +kernel, by decide +kernel, fun _ h => nomatch h⟩

/-- Both sides are met: V30's first two fragments, and V33's marker that no entry matches, in a table with a 16-bit
entry. -/
theorem witness_PartitionTilesTheStream :
    (∃ (ids : List KnownId) (s : Bits) (frags : List Fragment), knownIdsWf ids = true ∧ partition ids s = .ok frags) ∧
    ∃ (ids : List KnownId) (s : Bits) (frags : List Fragment), knownIdsWf ids = true ∧ 1 ≤ frags.length ∧
      frags.length ≤ 4096 ∧ tiles ids s frags ∧ hasOne (s.drop (tiledLen ids frags)) = false := by
  refine ⟨⟨k2, false :: idA ++ [false], [.bypass 0, .known 0 1 0x12345679], by decide +kernel, by rfl⟩,
    k3, bitsOfNat 32 0x0BADC0DF ++ idB ++ [false], [.unknown 0 0x0BADC0DF, .known 1 32 0x0ABCDEF1], by decide +kernel,
    by decide, by decide, ?_, by decide +kernel⟩
  intro i f h
  match i, h with
  | 0, h => cases h; exact ⟨rfl, by decide +kernel, by decide +kernel, by decide +kernel, by decide +kernel⟩
  | 1, h =>
    cases h
    exact ⟨rfl, by decide +kernel, knownB, rfl, by decide +kernel, by decide +kernel, by decide +kernel⟩
  | i + 2, h => cases h

theorem witness_FragmentsBecomePartEntries : ∃ (ids : List KnownId) (k : Nat) (e : KnownId), ids[k]? = some e :=
  ⟨k2, 1, knownB, rfl⟩

/-- All parts known; one part not known; no chain found. -/
theorem witness_DiscoveryLabelsTheChain :
    (∃ s u : State, exec .discoverChain s = .next u ∧ u.lastStatus = 0#4 ∧
      (u.chain.map (List.all · Part.isKnown)) = some true) ∧
    (∃ s u : State, exec .discoverChain s = .next u ∧ u.lastStatus = 0#4 ∧
      (u.chain.map (List.all · Part.isKnown)) = some false) ∧
    ∃ s u : State, exec .discoverChain s = .next u ∧ u.lastStatus ≠ 0#4 :=
  ⟨⟨streamState (idA ++ [false]), _, rfl, by decide +kernel, by decide +kernel⟩,
    ⟨streamState (false :: idA), _, rfl, by decide +kernel, by decide +kernel⟩,
    streamState (constBits false 33), _, rfl, by decide +kernel⟩

theorem witness_ThreePartStreamIsPartitioned : ∃ (a b : KnownId) (idA idB : Nat), knownIdsWf [a, b] = true ∧
    a.len = 32 ∧ b.len = 32 ∧ idA < 2 ^ 32 ∧ idB < 2 ^ 32 ∧ idA &&& a.mask = a.value &&& a.mask ∧
    idB &&& b.mask = b.value &&& b.mask :=
  ⟨knownA, knownB, 0xF2345679, 0x0ABCDEF1, by decide +kernel, rfl, rfl, by decide, by decide, by decide, by decide⟩

/-- V34: with K3, after the bypass bit and the field of B, both A and the 16-bit entry match. -/
theorem witness_TwoMatchingLengthsAreAmbiguous : ∃ (ids : List KnownId) (e f : KnownId) (rest : Bits), e ∈ ids ∧
    f ∈ ids ∧ e.len ≠ f.len ∧ rest.head? = some true ∧ KnownId.matches e rest = true ∧ KnownId.matches f rest = true ∧
    (∀ g ∈ ids, 1 ≤ g.len) ∧ ∃ (before : Bits) (frags : List Fragment), tiles ids (before ++ rest) frags ∧
      tiledLen ids frags = before.length := by
  refine ⟨k3, knownA, known16, idA, by decide, by decide, by decide, by decide, by decide +kernel, by decide +kernel,
    by decide, false :: idB, [.bypass 0, .known 1 1 0x0ABCDEF1], ?_, by decide +kernel⟩
  intro i f h
  match i, h with
  | 0, h => cases h; exact ⟨rfl, by decide +kernel, by decide +kernel⟩
  | 1, h =>
    cases h
    exact ⟨rfl, by decide +kernel, knownB, rfl, by decide +kernel, by decide +kernel, by decide +kernel⟩
  | i + 2, h => cases h

theorem witness_FirstFragmentIsTheHighestPart : ∃ (frags : List Fragment) (i : Nat) (f : Fragment), frags[i]? = some f :=
  ⟨[.bypass 0, .known 0 1 0x12345679], 0, .bypass 0, rfl⟩

theorem witness_PartialChainTakesNoDataCommand : ∃ (s : State) (ps : List Part) (t : Nat), s.chain = some ps ∧
    chainWf ps = true ∧ t < ps.length ∧ (∃ p ∈ ps, p.desc.irLength = none) ∧ s.tapKnown = true ∧ s.tap = .idle :=
  ⟨{ idleState [partA] (zerosAnswered 0) with chain := some [configuredPart partA, fragmentPart k2 (.bypass 0)] }, _, 0, rfl,
    by decide +kernel, by decide, ⟨fragmentPart k2 (.bypass 0), by decide, rfl⟩, rfl, rfl⟩

theorem witness_IrVectorPlacesEveryOpcode : ∃ (ps : List Part) (t : Nat) (name : NameId) (q : Nat) (p : Part),
    chainWf ps = true ∧ irResolvable ps t name = true ∧ ps[q]? = some p :=
  ⟨ch2, 1, 3, 1, configuredPart partB, by decide +kernel, by decide, rfl⟩

theorem witness_DrVectorPlacesTheOperand : ∃ (ps : List Part) (t : Nat) (p : Part) (q : Nat) (r : Part),
    ps[t]? = some p ∧ ps[q]? = some r ∧ q ≠ t :=
  ⟨ch2, 1, configuredPart partB, 0, configuredPart partA, rfl, rfl, by decide⟩

/-- The first pulse times out, and the last. -/
theorem witness_TimeoutEndsTheCommand :
    (∃ (s : State) (bits : Bits) (e : Env), s.exchange resetPlan = .cut bits e ∧ bits = []) ∧
    (∃ (s : State) (bits : Bits) (e : Env), s.tapKnown = true ∧ s.exchange idlePlan = .cut bits e) ∧
    (∃ (s : State) (bits : Bits) (e : Env), s.chain = some ch2 ∧ chainWf ch2 = true ∧ 0 < ch2.length ∧
      s.tapKnown = true ∧ s.tap = .idle ∧ irResolvable ch2 0 2 = true ∧
      s.exchange (irScanPlan (buildIR ch2 0 2)) = .cut bits e ∧ bits.length = 14) ∧
    ∃ (s : State) (p : Part) (bits : Bits) (e : Env), s.chain = some ch1 ∧ ch1[0]? = some p ∧ s.tapKnown = true ∧
      s.tap = .idle ∧ (1 : Nat) ≤ 1 ∧ targetWidthFits p 1 = true ∧ othersWidthKnown ch1 0 = true ∧
      s.exchange (drScanPlan (buildDR ch1 0 (outBits s 1))) = .cut bits e ∧ bits.length = 5 :=
  ⟨⟨idleState [partC] (timeoutAfter 0), [], .script [], by decide, rfl⟩,
    ⟨idleState [partC] (timeoutAfter 0), [], .script [], rfl, by decide⟩,
    ⟨idleState [partA, partB] (timeoutAfter 14), constBits false 14, .script [], rfl, by decide +kernel, by decide, rfl, rfl,
      by decide, by decide +kernel, rfl⟩,
    idleState [partC] (timeoutAfter 5), configuredPart partC, constBits false 5, .script [], rfl, rfl, rfl, rfl, by decide,
      by decide, by decide, by decide +kernel, rfl⟩

/-- The last pulse of phase 1 times out, and the first of phase 2. -/
theorem witness_TimeoutEndsDiscovery :
    (∃ (s : State) (bits : Bits) (e : Env), Config.wf s.cfg = true ∧
      s.exchange (discoverPlan s.cfg.irFlushLen s.cfg.drCaptureLen) = .cut bits e ∧ bits.length = 4) ∧
    ∃ (s : State) (bits : Bits) (e : Env), Config.wf s.cfg = true ∧
      s.exchange (discoverPlan s.cfg.irFlushLen s.cfg.drCaptureLen) = .cut bits e ∧ bits.length = 5 :=
  ⟨⟨idleState [partC] (timeoutAfter 4), constBits false 4, .script [], by decide +kernel, by decide +kernel, rfl⟩,
    idleState [partC] (timeoutAfter 5), constBits false 5, .script [], by decide +kernel, by decide +kernel, rfl⟩

theorem witness_UnknownTapBlocksUntilReset : ∃ (s : State) (ps : List Part) (t : Nat), s.tapKnown = false ∧
    s.chain = some ps ∧ t < ps.length :=
  ⟨{ idleState [partA, partB] (zerosAnswered 0) with tapKnown := false }, ch2, 1, rfl, rfl, by decide⟩

theorem witness_OnlyResetMakesTheTapKnown :
    (∃ s u : State, Config.wf s.cfg = true ∧ exec .resetTap s = .next u ∧ s.tapKnown = false ∧ u.tapKnown = true) ∧
    ∃ s u : State, Config.wf s.cfg = true ∧ exec .discoverChain s = .next u ∧ s.tapKnown = false ∧ u.tapKnown = true :=
  ⟨⟨{ idleState [partC] (zerosAnswered 5) with tapKnown := false }, _, by decide +kernel, rfl, rfl, by decide⟩,
    { streamState (constBits false 33) with tapKnown := false }, _, by decide +kernel, rfl, rfl, by decide +kernel⟩

theorem witness_OnlyAnExchangeWritesInbuf : ∃ s u : State, exec (.exchangeData 0 1) s = .next u ∧ u.inLen ≠ s.inLen :=
  ⟨idleState [partC] (zerosAnswered 6), _, rfl, by decide⟩

/-- A record that changes. -/
theorem witness_StaticFieldsOfTheChainStay : ∃ s u : State, exec (.setInstruction 0 2) s = .next u ∧
    Instr.setInstruction 0 2 ≠ .discoverChain ∧ Instr.setInstruction 0 2 ≠ .resetTap ∧
    ∃ ps qs p r, s.chain = some ps ∧ u.chain = some qs ∧ ps[0]? = some p ∧ qs[0]? = some r ∧ p.current ≠ r.current :=
  ⟨idleState [partA, partB] (devices2 .idle []), _, rfl, by decide, by decide, ch2, [{ configuredPart partA with current := some 2 }, configuredPart partB], configuredPart partA,
    { configuredPart partA with current := some 2 }, rfl, by decide +kernel, rfl, rfl, by decide⟩

theorem witness_PinTraceOnlyGrows :
    (∃ s u : State, exec .resetTap s = .next u) ∧ ∃ s u : State, exec (.stateIdle true) s = .next u ∧
      isCommand (.stateIdle true) = false :=
  ⟨⟨idleState [partC] (zerosAnswered 5), _, rfl⟩, idleState [partC] (zerosAnswered 5), _, rfl, rfl⟩

/-- A block in Idle with RESET_TAP at its port. -/
def resetOffered : State := { idleState [partC] (zerosAnswered 5) with port := [.offer (.command 0x10000000#32)] }

/-- A step that delivers a response, in a run without a refused word. -/
theorem witness_ResponsesOnlyGrow : ∃ s u : State, step s = .next u ∧ u.clean ∧ u.responses ≠ s.responses := by
  have h : nextHas (step resetOffered) (fun u => u.responses == [0#32]) = true := by decide +kernel
  obtain ⟨u, hu, hr⟩ := next_of_nextHas h
  have hr' : u.responses = [0#32] := by simpa using hr
  refine ⟨resetOffered, u, hu, fun w hw => ?_, by rw [hr']; decide +kernel⟩
  rw [hr', List.mem_singleton] at hw
  rw [hw]
  decide

/-- A step and an instruction that move the TAP. -/
theorem witness_ParametersAndTrstStay :
    (∃ s u : State, step s = .next u ∧ u.tap ≠ s.tap) ∧ ∃ s u : State, exec .resetTap s = .next u ∧ u.tap ≠ s.tap :=
  ⟨⟨resetOffered, _, rfl, by decide +kernel⟩, resetOffered, _, rfl, by decide +kernel⟩

theorem witness_StatusRegistersShowTheState : ∃ (s : State) (reg : Nat) (v : Word) (rest : List HostItem),
    s.port = .writeStatus reg v :: rest :=
  ⟨{ idleState [partC] (zerosAnswered 0) with port := [.writeStatus 4 1#32] }, 4, 1#32, [], rfl⟩

theorem witness_HostReadsTableAndInbuf :
    (∃ (s : State) (ps : List Part), s.chain = some ps) ∧ (∃ s : State, s.chain = none) ∧
    ∃ (s : State) (k j : Nat), s.busy = false ∧ k < 2048 ∧ k = 2047 ∧ j < 32 :=
  ⟨⟨idleState [partC] (zerosAnswered 0), ch1, rfl⟩, ⟨State.powerOn (configOf none) (zerosAnswered 0), rfl⟩,
    idleState [partC] (zerosAnswered 0), 2047, 31, rfl, by decide, rfl, by decide⟩

theorem witness_TrackedTapIsTheDevicesTap : ∃ (i : Instr) (s u : State) (τ : TapState),
    (∀ τ, s.env.physTap = some τ → s.tapKnown = true → τ = s.tap) ∧ exec i s = .next u ∧ u.env.physTap = some τ ∧
      u.tapKnown = true :=
  ⟨.setInstruction 0 2, idleState [partA, partB] (devices2 .idle []), _, .idle, by rintro _ ⟨⟩ _; rfl, rfl,
    by decide +kernel, by decide +kernel⟩

/-- The descriptors of CH2 are all known; part A as the table has it, with USER undeclared, is not. -/
theorem witness_SynthChainStartsInReset : (∃ c, synthChain [(deviceA, some 1), (partB, some 1)] = some c) ∧
    synthChain [(partA, some 1)] = none := ⟨⟨_, rfl⟩, rfl⟩

theorem describes_ch2 (t : TapState) (k : List Nat) (c : SynthChain) (h : devices2 t k = .synth c k) :
    describes ch2 c := by
  cases h
  exact .cons ⟨rfl, rfl, rfl, rfl⟩ (.cons ⟨rfl, rfl, rfl, rfl⟩ .nil)

theorem witness_IrRoundTrip : ∃ (s u : State) (ps : List Part) (t : Nat) (name : NameId) (c : SynthChain) (k : List Nat),
    s.chain = some ps ∧ chainWf ps = true ∧ t < ps.length ∧ s.env = .synth c k ∧ c.tau = s.tap ∧ describes ps c ∧
    (∀ d ∈ c.parts, opcodesApart d.desc = true) ∧ exec (.setInstruction t name) s = .next u ∧ u.lastStatus = 0#4 :=
  ⟨idleState [partA, partB] (devices2 .idle []), _, ch2, 0, 2, _, [], rfl, by decide +kernel, by decide, rfl, rfl,
    describes_ch2 .idle [] _ rfl, by decide, rfl, by decide +kernel⟩

/-- The hypotheses of the DR round trip can be met with n bits and the given declared width of the target. -/
def drRoundTripMet (n : Nat) (width : Option Nat) : Prop :=
  ∃ (s u w : State) (ps : List Part) (t : Nat) (p : Part) (d : SynthPart) (name : NameId)
    (c : SynthChain) (k : List Nat) (m : Memory),
    s.chain = some ps ∧ ps[t]? = some p ∧ s.env = .synth c k ∧ c.tau = s.tap ∧ c.parts.length = ps.length ∧
    Coherent s t ∧ c.parts[t]? = some d ∧ d.irLatch = some name ∧ drWidth p name = width ∧
    d.irLatch ≠ d.desc.bypassInstruction ∧ d.irLatch ≠ d.idcodeInstruction ∧ (synthStored d name).length = n ∧
    (∀ (q : Nat) (r : Part) (g : SynthPart), ps[q]? = some r → c.parts[q]? = some g → q ≠ t →
      g.irLatch.bind (drWidth r) = some (synthCaptureDR g).drCells.length) ∧
    n ≤ 65535 ∧ Memory.wf s.inbuf = true ∧
    exec (.exchangeData t n) s = .next u ∧ u.lastStatus = 0#4 ∧
    exec (.exchangeData t n) { u with outbuf := m } = .next w ∧ w.lastStatus = 0#4

/-- CH2 with part 0 and its device at a name, part 1 in bypass. -/
def dataState (name : NameId) : State :=
  { withRecords (idleState [partA, partB] (withLatches (devices2 .idle []) [some name, some 0])) [some name, some 0] with
    outbuf := writeWord [] 0 0x3C#32 }

theorem dataState_coherent (name : NameId) : Coherent (dataState name) 0 := by
  rintro _ ⟨⟩
  refine ⟨?_, by rintro p ⟨⟩; rfl⟩
  intro q p h
  match q, h with
  | 0, h => cases h; rfl
  | 1, h => cases h; rfl
  | q + 2, h => cases h

/-- Part 1, in bypass, has the device's width. -/
theorem dataState_bypassed (ps : List Part) (c : SynthChain) (h : ps[1]? = (dataState 0).chain.bind (·[1]?))
    (hc : c.parts[1]? = match (dataState 0).env with | .synth c _ => c.parts[1]? | .script _ => none)
    (hp : ps.length = 2) (q : Nat) (r : Part) (g : SynthPart) (hr : ps[q]? = some r) (hg : c.parts[q]? = some g)
    (hq : q ≠ 0) : g.irLatch.bind (drWidth r) = some (synthCaptureDR g).drCells.length := by
  obtain rfl : q = 1 := by have := (List.getElem?_eq_some_iff.1 hr).1; omega
  rw [h] at hr; rw [hc] at hg
  cases hr; cases hg; decide

/-- SAMPLE of A, whose 8 bits the table declares; USER of A, whose 5 bits it does not. -/
theorem witness_DrRoundTrip : drRoundTripMet 8 (some 8) ∧ drRoundTripMet 5 none :=
  ⟨⟨dataState 2, _, _, _, 0, _, _, 2, _, [], [], rfl, rfl, rfl, rfl, rfl, dataState_coherent 2, rfl, rfl, rfl, by decide,
      by decide, by decide, dataState_bypassed _ _ rfl rfl rfl, by decide, rfl, rfl, by decide +kernel, rfl,
      by decide +kernel⟩,
    dataState 4, _, _, _, 0, _, _, 4, _, [], [], rfl, rfl, rfl, rfl, rfl, dataState_coherent 4, rfl, rfl, rfl, by decide,
    by decide, by decide, dataState_bypassed _ _ rfl rfl rfl, by decide, rfl, rfl, by decide +kernel, rfl,
    by decide +kernel⟩

/-- `SELECT_ONLY p0, SAMPLE` on CH2 (program P1, lines 2 and 3). -/
theorem witness_SelectOnlyMakesRecordsAndDevicesAgree :
    ∃ (s u : State) (ps : List Part) (t : Nat) (name : NameId) (c : SynthChain) (k : List Nat), s.chain = some ps ∧
      chainWf ps = true ∧ t < ps.length ∧ runWhileOk (selectOnlyProgram ps t name) s = .next u ∧ u.lastStatus = 0#4 ∧
      s.env = .synth c k ∧ c.tau = s.tap ∧ describes ps c ∧ ∀ d ∈ c.parts, opcodesApart d.desc = true := by
  have h : nextHas (runWhileOk (selectOnlyProgram ch2 0 2) (idleState [partA, partB] (devices2 .idle [])))
      (fun u => u.lastStatus == 0#4) = true := by decide +kernel
  obtain ⟨u, hu, hs⟩ := next_of_nextHas h
  exact ⟨idleState [partA, partB] (devices2 .idle []), u, ch2, 0, 2, _, [], rfl, by decide +kernel, by decide, hu,
    by simpa using hs, rfl, rfl, describes_ch2 .idle [] _ rfl, by decide⟩

end Sys2Proof.Tests
end

section
/-! O8: every accepted command word is answered by one response word (R42, R105).  A command is the answer to its body;
the body keeps `responses`, raises no `OK`, and fixes the length where it completes. -/

namespace Sys2Proof.Machine

/-- The length field of an `OK` answer (R105), and `in_len` after an EXCHANGE_DATA (R41). -/
def OkAnswer (i : Instr) (u : State) (len : Nat) : Prop :=
  match i with
  | .exchangeData _ n => len = n ∧ u.inLen = BitVec.ofNat 16 n
  | .discoverChain => ∃ ps, u.chain = some ps ∧ len = ps.length
  | _ => len = 0

/-- R42, R105: `u` is `s` after one response of status `st` and length `len`. -/
structure Answered (s u : State) (st : Status) (len : Nat) : Prop where
  responses : u.responses = s.responses ++ [responseWord st len]
  lastStatus : u.lastStatus = st.code
  busy : u.busy = false
  len_ok : len ≠ 0 → st = .ok

/-- The word at the port of an idle block is the one the step runs. -/
theorem step_command {s : State} {cw : Word} {rest : List HostItem} (hp : s.port = .offer (.command cw) :: rest)
    (hb : s.busy = false) : step s = runWord (.command cw) (s.withPort rest) := by
  simp [step, hp, accepts, hb]

/-- Only commands are spelled by command words (R107). -/
theorem isCommand_of_decode {cw : Word} {i : Instr} (h : decode (.command cw) = .ok i) : isCommand i = true := by
  change decodeCommand cw = .ok i at h
  rcases decodeCommand_cases cw with ⟨-, hd⟩ | ⟨-, hd⟩ | ⟨-, hd⟩ | ⟨-, hd⟩ | ⟨-, hd⟩ | ⟨⟨r, hd⟩, -⟩ <;>
    rw [hd] at h <;> cases h <;> rfl

/-- A completed EXCHANGE_DATA leaves its length in `in_len` (R175, R176). -/
theorem exchangeData_done_inLen {t n len : Nat} {s v : State} (h : bodyOf (.exchangeData t n) s = .done len v) :
    v.inLen = BitVec.ofNat 16 n := by
  have hend := bodyOf_end (i := .exchangeData t n) rfl s
  rw [h] at hend
  cases hend with
  | empty => rfl
  | exchangeData _ _ _ _ _ _ _ _ _ _ _ _ _ _ hl => exact congrArg (BitVec.ofNat 16) hl

theorem okAnswer_of_done {i : Instr} {s v : State} {len : Nat} (h : bodyOf i s = .done len v) :
    OkAnswer i (v.respond .ok len) len := by
  have hlen := bodyOf_len h
  cases i with
  | exchangeData t n => exact ⟨hlen, (v.respond_inLen .ok len).trans (exchangeData_done_inLen h)⟩
  | _ => exact hlen

/-- A response to a state that has kept the responses so far is the only new one. -/
theorem Kept.answered_respond {s v : State} {st : Status} {len : Nat} (h : Kept s.accept v)
    (hl : len ≠ 0 → st = .ok) : Answered s (v.respond st len) st len :=
  ⟨congrArg (· ++ [responseWord st len]) h.responses, rfl, rfl, hl⟩

theorem refuseWord_answered (s : State) : Answered s (refuseWord s) .refused 0 :=
  (Kept.refl s.accept).answered_respond (absurd rfl)

/-- Every command is answered once, whatever became of its pulses. -/
theorem exec_answered {i : Instr} (hi : isCommand i = true) (s : State) :
    ∃ u st len, exec i s = .next u ∧ Answered s u st len ∧ (st = .ok → OkAnswer i u len) := by
  have hkept := bodyOf_kept i s.accept
  rw [exec_command hi]
  cases hb : bodyOf i s.accept with
  | done len v =>
    rw [hb] at hkept
    exact ⟨_, .ok, len, rfl, hkept.answered_respond fun _ => rfl, fun _ => okAnswer_of_done hb⟩
  | raised k v =>
    rw [hb] at hkept
    exact ⟨_, k, 0, rfl, hkept.answered_respond (absurd rfl), fun hk => absurd hk (bodyOf_raises i _ k v hb)⟩

/-- Every command word is answered once; with `OK` only if it spells a command. -/
theorem runWord_answered (cw : Word) (s : State) :
    ∃ u st len, runWord (.command cw) s = .next u ∧ Answered s u st len ∧
      (st = .ok → ∃ i, decode (.command cw) = .ok i ∧ OkAnswer i u len) := by
  unfold runWord
  cases hd : decode (.command cw) with
  | ok i =>
    obtain ⟨u, st, len, hu, ha, hok⟩ := exec_answered (isCommand_of_decode hd) s
    exact ⟨u, st, len, hu, ha, fun h => ⟨i, rfl, hok h⟩⟩
  | error r => exact ⟨_, .refused, 0, rfl, refuseWord_answered s, nofun⟩

/-- Settles O8: the step runs the word at the port, and every command word is answered once. -/
theorem everyCommandAnswersOnce : Obligations.EveryCommandAnswersOnce := by
  intro s cw rest hp hb
  obtain ⟨u, st, len, hu, ha, hok⟩ := runWord_answered cw (s.withPort rest)
  exact ⟨u, st, len, (step_command hp hb).trans hu, ha.responses, ha.lastStatus, ha.busy, ha.len_ok, hok⟩

end Sys2Proof.Machine
end

section
/-! O3: the decoder is match and mask (R103).  The law of the decoder speaks of the number of the word, so the matches
and masks of the statement are brought to that number first. -/

namespace Sys2Proof

/-- Settles O3: each answer of the decoder comes with what it says of the number of the word, and that excludes the
matches of the other five. -/
theorem commandWordsAreThoseOfMatchAndMask : Obligations.CommandWordsAreThoseOfMatchAndMask := by
  intro cw
  have mask3 : cw &&& 0xF0000000#32 = 0x30000000#32 ↔ cw.toNat / 2^28 = 3 := and_mask cw 3 (by decide)
  have mask4 : cw &&& 0xF0000000#32 = 0x40000000#32 ↔ cw.toNat / 2^28 = 4 := and_mask cw 4 (by decide)
  simp only [decode, ne_eq, mask3, mask4, BitVec.toNat_eq, BitVec.toNat_ofNat, Nat.reducePow, Nat.reduceMod]
  rcases decodeCommand_cases cw with ⟨h, hd⟩ | ⟨h, hd⟩ | ⟨h, hd⟩ | ⟨h, hd⟩ | ⟨h, hd⟩ | ⟨⟨r, hd⟩, h⟩
  -- The known answer settles every decoding in the statement; what is left is about the number `cw.toNat` alone.
  all_goals
    simp [hd]
    omega

end Sys2Proof
end

section
/-! O52: the codes are those of the tables (R106 to R108). -/

namespace Sys2Proof.Machine

/-- Settles O52: the codes read off the three tables. -/
theorem codesAreThoseOfTheTables : Obligations.CodesAreThoseOfTheTables :=
  ⟨rfl, rfl, rfl⟩

end Sys2Proof.Machine
end

section
/-! O25: the empty exchange (R176).  EXCHANGE_DATA on a part of the chain has three ends before any pulse: the Idle test
fails, the widths do not fit (for any length), or both tests pass and there is nothing to exchange. -/

namespace Sys2Proof.Machine

/-- A raised error, with nothing written since the command was accepted, leaves only its answer (R239). -/
theorem answer_raised_accept (s : State) (k : Status) : answer (.raised k s.accept) = s.answered k 0 := rfl

/-- EXCHANGE_DATA on a part of the chain is its body and the answer to it (R175). -/
theorem exec_exchangeData {t : Nat} {s : State} {ps : List Part} {p : Part} (hc : s.chain = some ps)
    (hp : ps[t]? = some p) (n : Nat) :
    exec (.exchangeData t n) s = .next (answer (exchangeDataBody t n ps p s.accept)) := by
  rw [exec_command rfl, bodyOf, onPart_some (s := s.accept) hc hp]

/-- R233: the Idle test comes first. -/
theorem exec_exchangeData_not_idle {t : Nat} {s : State} {ps : List Part} {p : Part} (hc : s.chain = some ps)
    (hp : ps[t]? = some p) (n : Nat) (hi : ¬(s.tapKnown = true ∧ s.tap = .idle)) :
    exec (.exchangeData t n) s = .next (s.answered .invalidChainState 0) := by
  have hk : ¬s.accept.idleKnown = true := mt s.accept.idleKnown_iff.1 hi
  rw [exec_exchangeData hc hp, exchangeDataBody, if_neg hk, answer_raised_accept]

/-- R232: the width tests come second. -/
theorem exec_exchangeData_mismatch {t : Nat} {s : State} {ps : List Part} {p : Part} (hc : s.chain = some ps)
    (hp : ps[t]? = some p) (n : Nat) (hi : s.tapKnown = true ∧ s.tap = .idle)
    (hw : ¬(targetWidthFits p n && othersWidthKnown ps t) = true) :
    exec (.exchangeData t n) s = .next (s.answered .dataRegisterLengthMismatch 0) := by
  have hk : s.accept.idleKnown = true := s.accept.idleKnown_iff.2 hi
  rw [exec_exchangeData hc hp, exchangeDataBody, if_pos hk, if_neg hw, answer_raised_accept]

/-- R176: past both tests the empty exchange stores the empty result, which reaches no word of INBUF. -/
theorem exec_exchangeData_empty {t : Nat} {s : State} {ps : List Part} {p : Part} (hc : s.chain = some ps)
    (hp : ps[t]? = some p) (hi : s.tapKnown = true ∧ s.tap = .idle)
    (hw : (targetWidthFits p 0 && othersWidthKnown ps t) = true) :
    exec (.exchangeData t 0) s = .next { s.answered .ok 0 with inLen := 0#16 } := by
  have hk : s.accept.idleKnown = true := s.accept.idleKnown_iff.2 hi
  rw [exec_exchangeData hc hp, exchangeDataBody, if_pos hk, if_pos hw, if_pos rfl]
  rfl

/-- A declared width other than `n` does not fit (R175). -/
theorem targetWidthFits_eq_false_of_declared {p : Part} {c : NameId} {k n : Nat} (hc : p.current = some c)
    (hk : drWidth p c = some k) (hne : k ≠ n) : targetWidthFits p n = false := by
  simp [targetWidthFits, hc, hk, hne]

/-- Settles O25: each clause of the statement is one of the three ends, its widths told by the two tests. -/
theorem emptyExchangeDoesNothing : Obligations.EmptyExchangeDoesNothing := by
  intro s ps t p hc hp
  refine ⟨exec_exchangeData_not_idle hc hp 0, ?mismatch, ?empty⟩
  case mismatch =>
    intro hk ht c k hcur hw hne
    exact exec_exchangeData_mismatch hc hp 0 ⟨hk, ht⟩ (by simp [targetWidthFits_eq_false_of_declared hcur hw hne])
  case empty =>
    intro hk ht hw ho
    have hfit : targetWidthFits p 0 = true := (targetWidthFits_iff p 0).2 hw
    have hothers : othersWidthKnown ps t = true := (othersWidthKnown_iff ps t).2 ho
    exact exec_exchangeData_empty hc hp ⟨hk, ht⟩ (by rw [hfit, hothers, Bool.and_self])

end Sys2Proof.Machine
end

section
/-! O34: the label DISCOVER_CHAIN gives (R208), and what of the old chain stays when it gives none (R210). -/

namespace Sys2Proof.Machine

/-- What no record holds: the static fields and the identity of every part, in chain order (R34, R210). -/
def staticTable (c : Option (List Part)) : Option (List (Descriptor × Identity)) :=
  c.map (List.map fun p => (p.desc, p.identity))

@[simp] theorem staticTable_resetRecords (c : Option (List Part)) : staticTable (resetRecords c) = staticTable c := by
  simp [staticTable, resetRecords, resetRecord, Function.comp_def]

/-- R206: a part entry is of a known family exactly if its fragment is. -/
@[simp] theorem fragmentPart_isKnown (ids : List KnownId) (f : Fragment) :
    (fragmentPart ids f).isKnown = f.isKnown := by
  cases f <;> rfl

/-- R208, told of the chain instead of the fragments. -/
theorem fragmentStatus_eq (ids : List KnownId) (frags : List Fragment) :
    fragmentStatus frags =
      if (fragmentChain ids frags).all Part.isKnown then .verified else .partiallyIdentified := by
  have h : (fragmentChain ids frags).all Part.isKnown = frags.all Fragment.isKnown := by
    simp [fragmentChain, Function.comp_def]
  rw [h, fragmentStatus]

/-- R208, R210: a DISCOVER_CHAIN that completes installs a chain with the label of its parts. -/
theorem discoverChain_done {s v : State} {len : Nat} (h : bodyOf .discoverChain s = .done len v) :
    ∃ ps, v.chain = some ps ∧
      v.chainStatus = if ps.all Part.isKnown then .verified else .partiallyIdentified := by
  have hend := bodyOf_end (i := .discoverChain) rfl s
  rw [h] at hend
  cases hend with
  | discover => exact ⟨_, State.install_chain .., fragmentStatus_eq ..⟩

/-- R210, R234: a DISCOVER_CHAIN that raises leaves all of the table but its records, wherever it raised. -/
theorem discoverChain_raised {s v : State} {k : Status} (h : bodyOf .discoverChain s = .raised k v) :
    v.chainStatus = s.chainStatus ∧ staticTable v.chain = staticTable s.chain := by
  have hend := bodyOf_end (i := .discoverChain) rfl s
  rw [h] at hend
  cases hend with
  | early => exact ⟨rfl, rfl⟩
  | cut => exact ⟨State.cutAt_chainStatus .., congrArg staticTable (State.cutAt_chain ..)⟩
  | discoverCut =>
    rw [State.cutAt_chainStatus, State.cutAt_chain]
    exact ⟨rfl, staticTable_resetRecords s.chain⟩
  | discoverNone => exact ⟨rfl, staticTable_resetRecords s.chain⟩

/-- Settles O34: the status is `OK` exactly if the body completed, and each way the body ends says what the chain is. -/
theorem discoveryLabelsTheChain : Obligations.DiscoveryLabelsTheChain := by
  intro s u h
  rw [exec_command rfl] at h
  cases h
  cases hb : bodyOf .discoverChain s.accept with
  | done len v =>
    obtain ⟨ps, hps, hlabel⟩ := discoverChain_done hb
    refine ⟨fun _ => ⟨ps, hps, fun hall => ?verified, fun ⟨p, hp, hk⟩ => ?partly⟩, fun hne => absurd rfl hne⟩
    case verified => exact hlabel.trans (if_pos (List.all_eq_true.2 hall))
    case partly =>
      have hnot : ¬ps.all Part.isKnown = true := fun hall => by simp [List.all_eq_true.1 hall p hp] at hk
      exact hlabel.trans (if_neg hnot)
  | raised k v =>
    have hk : k ≠ .ok := bodyOf_raises _ _ k v hb
    obtain ⟨hlabel, htable⟩ := discoverChain_raised hb
    exact ⟨fun h0 => absurd (code_ok h0) hk, fun _ => ⟨hlabel, htable⟩⟩

end Sys2Proof.Machine
end

section
/-! O23: the tests of SET_INSTRUCTION (R231, R233).  On a part of the chain it has two ends before any pulse: the Idle
test fails, or the instruction is not resolvable (R171). -/

namespace Sys2Proof.Machine

/-- SET_INSTRUCTION on a part of the chain is its body and the answer to it (R172). -/
theorem exec_setInstruction {t : Nat} {s : State} {ps : List Part} {p : Part} (hc : s.chain = some ps)
    (hp : ps[t]? = some p) (name : NameId) :
    exec (.setInstruction t name) s = .next (answer (setInstructionBody t name ps p s.accept)) := by
  rw [exec_command rfl, bodyOf, onPart_some (s := s.accept) hc hp]

/-- R233: the Idle test comes first. -/
theorem exec_setInstruction_not_idle {t : Nat} {s : State} {ps : List Part} {p : Part} (hc : s.chain = some ps)
    (hp : ps[t]? = some p) (name : NameId) (hi : ¬(s.tapKnown = true ∧ s.tap = .idle)) :
    exec (.setInstruction t name) s = .next (s.answered .invalidChainState 0) := by
  have hk : ¬s.accept.idleKnown = true := mt s.accept.idleKnown_iff.1 hi
  rw [exec_setInstruction hc hp, setInstructionBody, if_neg hk, answer_raised_accept]

/-- R231: resolvability comes second. -/
theorem exec_setInstruction_unresolvable {t : Nat} {s : State} {ps : List Part} {p : Part} (hc : s.chain = some ps)
    (hp : ps[t]? = some p) (name : NameId) (hi : s.tapKnown = true ∧ s.tap = .idle)
    (hr : ¬irResolvable ps t name = true) :
    exec (.setInstruction t name) s = .next (s.answered .unknownInstruction 0) := by
  have hk : s.accept.idleKnown = true := s.accept.idleKnown_iff.2 hi
  rw [exec_setInstruction hc hp, setInstructionBody, if_pos hk, if_neg hr, answer_raised_accept]

theorem targetHasName_iff (ps : List Part) (t : Nat) (name : NameId) :
    targetHasName ps t name = true ↔ ∃ p, ps[t]? = some p ∧ (resolve p name).isSome = true := by
  unfold targetHasName
  cases ps[t]? <;> simp [isKey, resolve]

theorem allIrKnown_iff (ps : List Part) : allIrKnown ps = true ↔ ∀ p ∈ ps, p.desc.irLength ≠ none := by
  simp [allIrKnown, Option.isSome_iff_ne_none]

theorem othersHaveBypass_iff (ps : List Part) (t : Nat) :
    othersHaveBypass ps t = true ↔
      ∀ (q : Nat) (p : Part), ps[q]? = some p → q ≠ t → p.desc.bypassInstruction ≠ none := by
  simp only [othersHaveBypass, List.all_eq_true, Prod.forall, List.mem_zipIdx_iff_getElem?, Bool.or_eq_true,
    beq_iff_eq, Option.isSome_iff_ne_none, or_iff_not_imp_left]
  exact forall_comm

/-- R171, told of the parts. -/
theorem irResolvable_iff (ps : List Part) (t : Nat) (name : NameId) :
    irResolvable ps t name = true ↔
      (∃ p, ps[t]? = some p ∧ (resolve p name).isSome = true) ∧ (∀ p ∈ ps, p.desc.irLength ≠ none) ∧
        ∀ (q : Nat) (p : Part), ps[q]? = some p → q ≠ t → p.desc.bypassInstruction ≠ none := by
  rw [irResolvable, Bool.and_eq_true, Bool.and_eq_true, targetHasName_iff, allIrKnown_iff, othersHaveBypass_iff,
    and_assoc]

/-- Settles O23: each clause of the statement is one of the two ends. -/
theorem setInstructionTestsInOrder : Obligations.SetInstructionTestsInOrder := by
  intro s ps t name hc ht
  have hp : ps[t]? = some ps[t] := List.getElem?_eq_getElem ht
  refine ⟨exec_setInstruction_not_idle hc hp name, fun hk hidle hr => ?_⟩
  exact exec_setInstruction_unresolvable hc hp name ⟨hk, hidle⟩ (mt (irResolvable_iff ps t name).1 hr)

end Sys2Proof.Machine
end

section
/-! O26: the tests of EXCHANGE_DATA (R232, R233).  Its two ends before any pulse, for any length, are those of O25; here
each cause of R232 is a failing width test. -/

namespace Sys2Proof.Machine

/-- R232: each of the three causes fails one of the two width tests of R175. -/
theorem widths_not_fit {ps : List Part} {t n : Nat} {p : Part}
    (h : p.current = none ∨ (∃ c k, p.current = some c ∧ drWidth p c = some k ∧ k ≠ n) ∨
      ∃ (q : Nat) (r : Part), ps[q]? = some r ∧ q ≠ t ∧ recordWidth r = none) :
    ¬(targetWidthFits p n && othersWidthKnown ps t) = true := by
  rw [Bool.and_eq_true, not_and]
  intro hfit hothers
  rcases h with hnone | ⟨c, k, hcur, hw, hne⟩ | ⟨q, r, hq, hqt, hnone⟩
  · obtain ⟨c, hcur, -⟩ := (targetWidthFits_iff p n).1 hfit
    simp [hnone] at hcur
  · simp [targetWidthFits_eq_false_of_declared hcur hw hne] at hfit
  · exact (othersWidthKnown_iff ps t).1 hothers q r hq hqt hnone

/-- Settles O26: each clause of the statement is one of the two ends. -/
theorem exchangeDataTestsInOrder : Obligations.ExchangeDataTestsInOrder := by
  intro s ps t p n hc hp
  refine ⟨exec_exchangeData_not_idle hc hp n, fun hk hidle hw => ?_⟩
  exact exec_exchangeData_mismatch hc hp n ⟨hk, hidle⟩ (widths_not_fit hw)

end Sys2Proof.Machine
end

section
/-! O31: DISCOVER_CHAIN whose stream gives no chain (R235, R236).  Its reset and its scans are one list of pulses, so the
body is `installStream` on the captured stream, in the state all the pulses leave. -/

namespace Sys2Proof.Machine

/-! ## All the pulses of DISCOVER_CHAIN -/

/-- Completed pulses in two groups. -/
theorem State.delivered_append (s : State) {ps qs : List (Bool × Bool)} {a b : Bits} (h : a.length = ps.length)
    (e1 e : Env) : (s.delivered ps a e1).delivered qs b e = s.delivered (ps ++ qs) (a ++ b) e := by
  simp [State.delivered, advanceAll_append, pinsAfter_append, deliveredEvents_append h, Nat.add_assoc]

/-- The captured stream among the samples after the reset (R211). -/
theorem capturedStream_append (c : Config) {a b : Bits} (h : a.length = 5) :
    capturedStream c (a ++ b) = window b (c.irFlushLen + 13) c.drCaptureLen := by
  have hdrop : c.irFlushLen + 18 = a.length + (c.irFlushLen + 13) := by omega
  rw [capturedStream, window, window, hdrop, List.drop_length_add_append]

/-- R200: DISCOVER_CHAIN with all its pulses answered comes to phases 4 and 5, in the state the pulses leave. -/
theorem discoverChainBody_all {s : State} {bits : Bits} {e : Env} (hf : 1 ≤ s.cfg.irFlushLen)
    (hm : 1 ≤ s.cfg.drCaptureLen)
    (h : s.exchange (discoverPlan s.cfg.irFlushLen s.cfg.drCaptureLen) = .all bits e) :
    discoverChainBody s = installStream (capturedStream s.cfg bits)
      (s.delivered (discoverPlan s.cfg.irFlushLen s.cfg.drCaptureLen) bits e).knowTap.resetRecords := by
  rw [discoverPlan_eq hf hm] at h ⊢
  obtain ⟨a, b, e1, hreset, hscan, rfl⟩ := State.exchange_append_all h
  have ha : a.length = resetPlan.length := exchange_all_length hreset
  have hscan' : ((s.delivered resetPlan a e1).knowTap.resetRecords).exchange
      (scanPlan s.cfg.irFlushLen s.cfg.drCaptureLen) = .all b e := hscan
  rw [discoverChainBody_spec, hreset]
  simp only [hscan']
  rw [capturedStream_append s.cfg ha, ← State.delivered_append s ha e1 e]
  rfl

/-- R211, R152: from any state the pulses of DISCOVER_CHAIN end in Idle, the pins at rest. -/
theorem State.delivered_discoverPlan (s : State) {f m : Nat} (hf : 1 ≤ f) (hm : 1 ≤ m) (bits : Bits) (e : Env) :
    s.delivered (discoverPlan f m) bits e =
      { s with
        tap := .idle
        pins := { s.pins with tck := false, tms := false, tdi := false }
        trace := s.trace ++ deliveredEvents (discoverPlan f m) bits
        env := e
        pulseNo := s.pulseNo + (f + m + 20) } := by
  have htap : advanceAll s.tap (tmsOf (discoverPlan f m)) = .idle := by
    rw [discoverPlan_eq hf hm, tmsOf_append, advanceAll_append, show advanceAll s.tap (tmsOf resetPlan) = .reset from
      advanceAll_five s.tap, scanPlan_tap hf hm]
  have hpins : pinsAfter s.pins (discoverPlan f m) = { s.pins with tck := false, tms := false, tdi := false } := by
    rw [discoverPlan_eq hf hm, pinsAfter_append, scanPlan_pins, pinsAfter_trst]
  rw [State.delivered, htap, hpins, discoverPlan_length hf hm]

/-! ## A stream without a chain -/

/-- R235, R236: the error kind of a stream that gives no chain. -/
theorem partition_error {ids : List KnownId} {v : Bits} {st : Status}
    (h : hasOne v = false ∧ st = .noDevicesDetected ∨
      hasOne v = true ∧ st = .ambiguousChainTopology ∧ ∀ frags, partition ids v ≠ .ok frags) :
    partition ids v = .error st := by
  rcases h with ⟨hzero, rfl⟩ | ⟨hone, rfl, hno⟩
  · exact if_neg (by simp [hzero])
  · rcases partition_cases ids v with ⟨hzero, -⟩ | ⟨-, hp⟩ | ⟨frags, -, -, -, hp⟩
    · simp [hone] at hzero
    · exact hp
    · exact absurd hp (hno frags)

theorem installStream_error {v : Bits} {s : State} {st : Status} (h : partition s.cfg.knownIds v = .error st) :
    installStream v s = .raised st s := by
  rw [installStream, h]

/-- Settles O31: the stream raises its error in the state all the pulses leave, the records at their defaults. -/
theorem discoverChainWithoutResult : Obligations.DiscoverChainWithoutResult := by
  intro s bits e st hcfg hpulses hstream
  obtain ⟨hf, hm, -⟩ := configWf_lens hcfg
  have herr : partition s.cfg.knownIds (capturedStream s.cfg bits) = .error st := partition_error hstream
  have hbody : discoverChainBody s.accept = .raised st (s.accept.delivered (discoverPlan s.cfg.irFlushLen
      s.cfg.drCaptureLen) bits e).knowTap.resetRecords :=
    (discoverChainBody_all (s := s.accept) hf hm hpulses).trans (installStream_error herr)
  rw [exec_command rfl, bodyOf, hbody, answer_raised, State.delivered_discoverPlan _ hf hm, ← recordsAtDefault_eq]
  rfl

end Sys2Proof.Machine
end

section
/-! O1: decode of encode (R100 to R104, R107).  A command word gives back the three fields it was put together from, and
a state row its code. -/

namespace Sys2Proof

/-- R100: the fields of a command word are those it was put together from. -/
theorem fields_commandWord (op : BitVec 4) {part arg : Nat} (hp : part < 2 ^ 12) (ha : arg < 2 ^ 16) :
    opField (commandWord op part arg) = op ∧ partField (commandWord op part arg) = part ∧
      argField (commandWord op part arg) = arg := by
  have hword := commandWord_toNat op part arg hp ha
  have hop := op.isLt
  refine ⟨BitVec.eq_of_toNat_eq ?_, ?_, ?_⟩
  · rw [opField_toNat]; omega
  · rw [partField_eq]; omega
  · rw [argField_eq]; omega

theorem decodeCommand_setInstruction {part name : Nat} (hp : part < 2 ^ 12) (ha : name < 2 ^ 16) :
    decodeCommand (commandWord 3 part name) = .ok (.setInstruction part name) := by
  obtain ⟨hop, hpart, harg⟩ := fields_commandWord 3 hp ha
  rw [decodeCommand, hop, hpart, harg]
  rfl

theorem decodeCommand_exchangeData {part n : Nat} (hp : part < 2 ^ 12) (ha : n < 2 ^ 16) :
    decodeCommand (commandWord 4 part n) = .ok (.exchangeData part n) := by
  obtain ⟨hop, hpart, harg⟩ := fields_commandWord 4 hp ha
  rw [decodeCommand, hop, hpart, harg]
  rfl

/-- Settles O1: the two format-P commands by the fields of their word, the others by their one word or code. -/
theorem decodeOfEncodeIsTheInstruction : Obligations.DecodeOfEncodeIsTheInstruction := by
  intro i hwf
  cases i with
  | setInstruction part name =>
    simp only [Instr.wellFormed, partFits, argFits, Bool.and_eq_true, decide_eq_true_eq] at hwf
    exact decodeCommand_setInstruction hwf.1 hwf.2
  | exchangeData part n =>
    simp only [Instr.wellFormed, partFits, argFits, Bool.and_eq_true, decide_eq_true_eq] at hwf
    exact decodeCommand_exchangeData hwf.1 hwf.2
  | _ => rfl

end Sys2Proof
end

section
/-! O2: encode of decode (R100 to R104, R107).  A command word that decodes is the word of its own three fields. -/

namespace Sys2Proof

/-- R104: the two operand fields fit. -/
theorem partField_lt (cw : Word) : partField cw < 2 ^ 12 := by rw [partField_eq]; omega

theorem argField_lt (cw : Word) : argField cw < 2 ^ 16 := by rw [argField_eq]; omega

/-- R100: a word with the number of `op` in its top four bits is put together from `op` and its operand fields. -/
theorem commandWord_fields {cw : Word} {op : BitVec 4} (h : cw.toNat / 2 ^ 28 = op.toNat) :
    commandWord op (partField cw) (argField cw) = cw := by
  apply BitVec.eq_of_toNat_eq
  rw [commandWord_toNat op _ _ (partField_lt cw) (argField_lt cw), partField_eq, argField_eq]
  omega

/-- R101: a format-Z word is the word of its `op` and zeros. -/
theorem commandWord_formatZ {cw : Word} {op : BitVec 4} (h : cw.toNat = op.toNat * 2 ^ 28) :
    commandWord op 0 0 = cw := by
  apply BitVec.eq_of_toNat_eq
  rw [commandWord_toNat op 0 0 (by decide) (by decide), h]
  omega

theorem formatP_wellFormed (cw : Word) : (partFits (partField cw) && argFits (argField cw)) = true := by
  rw [partFits, argFits, decide_eq_true (partField_lt cw), decide_eq_true (argField_lt cw), Bool.and_self]

theorem encode_of_decodeCommand {cw : Word} {i : Instr} (h : decodeCommand cw = .ok i) :
    encode i = .command cw ∧ i.wellFormed = true := by
  rcases decodeCommand_cases cw with ⟨hn, hd⟩ | ⟨hn, hd⟩ | ⟨hn, hd⟩ | ⟨hn, hd⟩ | ⟨hn, hd⟩ | ⟨⟨r, hd⟩, -⟩ <;>
    rw [hd] at h <;> cases h
  · exact ⟨congrArg _ (commandWord_formatZ (op := 1) hn), rfl⟩
  · exact ⟨congrArg _ (commandWord_formatZ (op := 2) hn), rfl⟩
  · exact ⟨congrArg _ (commandWord_fields (op := 3) hn), formatP_wellFormed cw⟩
  · exact ⟨congrArg _ (commandWord_fields (op := 4) hn), formatP_wellFormed cw⟩
  · exact ⟨congrArg _ (commandWord_formatZ (op := 5) hn), rfl⟩

/-- R107: each of the sixteen codes names the row that has it. -/
theorem encode_decodeRow : ∀ (code : BitVec 4) (tms : Bool),
    encode (decodeRow code tms) = .row code tms ∧ (decodeRow code tms).wellFormed = true := by
  decide

/-- Settles O2: by the shape of the word. -/
theorem encodeOfDecodeIsTheWord : Obligations.EncodeOfDecodeIsTheWord := by
  intro w i h
  cases w with
  | command cw => exact encode_of_decodeCommand h
  | row code tms =>
    cases h
    exact encode_decodeRow code tms

end Sys2Proof
end

section
/-! O4 and O5: the operands of a decoded word (R104), and words of the spec. -/

namespace Sys2Proof.Machine

/-- R104: the operands of a decoded format-P word are its fields. -/
theorem operands_of_decodeCommand {cw : Word} {p n : Nat}
    (h : decodeCommand cw = .ok (.setInstruction p n) ∨ decodeCommand cw = .ok (.exchangeData p n)) :
    p = partField cw ∧ n = argField cw := by
  rcases decodeCommand_cases cw with ⟨-, hd⟩ | ⟨-, hd⟩ | ⟨-, hd⟩ | ⟨-, hd⟩ | ⟨-, hd⟩ | ⟨⟨r, hd⟩, -⟩ <;>
    rw [hd] at h <;> rcases h with h | h <;> cases h <;> exact ⟨rfl, rfl⟩

/-- Settles O4: the fields as numbers, and a word of the buffer bit by bit. -/
theorem operandsComeFromTheirFields : Obligations.OperandsComeFromTheirFields := by
  refine ⟨fun cw p n h => ?fields, fun s n i hi => ?bits⟩
  case fields =>
    rw [← partField_eq, ← argField_eq]
    exact operands_of_decodeCommand h
  case bits =>
    rw [readWord_getLsbD _ _ _ (Nat.mod_lt i (by decide)), Nat.div_add_mod]
    simp [outBits, bufferBits, hi]

/-- Settles O5: the decoder evaluated at the six words. -/
theorem wordsOfTheSpecDecode : Obligations.WordsOfTheSpecDecode :=
  ⟨rfl, rfl, rfl, rfl, rfl, rfl⟩

end Sys2Proof.Machine
end

section
/-! O9 to O12: the transition table and its distances to Reset and to Idle (R131 to R149). -/

namespace Sys2Proof.Machine

/-- Settles O9: the 32 values evaluated. -/
theorem advanceIsTheTransitionTable : Obligations.AdvanceIsTheTransitionTable := by
  unfold Obligations.AdvanceIsTheTransitionTable
  decide

/-- Settles O10: state by state, with the entry of the list for it. -/
theorem fiveOnesReachReset : Obligations.FiveOnesReachReset := by
  intro s k hk
  refine ⟨advanceAll_five s, ?_⟩
  cases s <;> cases hk <;> decide

/-- Settles O11: five ones reach Reset (R147), and Reset is held by the others. -/
theorem fiveOrMoreOnesReachReset : Obligations.FiveOrMoreOnesReachReset := by
  refine ⟨rfl, fun s k hk => ?_⟩
  have hsplit : constBits true k = constBits true 5 ++ constBits true (k - 5) := by
    rw [constBits, constBits, constBits, List.replicate_append_replicate, Nat.add_sub_cancel' hk]
  calc advanceAll s (constBits true k)
      = advanceAll (advanceAll s (constBits true 5)) (constBits true (k - 5)) := by rw [hsplit, advanceAll_append]
    _ = advanceAll .reset (constBits true (k - 5)) := congrArg (advanceAll · _) (advanceAll_five s)
    _ = .reset := advanceAll_reset_ones _

/-- The TMS string R149 names for each state; none for Idle itself. -/
def shortestToIdle : TapState → Bits
  | .idle => []
  | .reset | .updateDR | .updateIR => [false]
  | .exit1DR | .exit2DR | .exit1IR | .exit2IR | .selectIR => [true, false]
  | .selectDR | .captureDR | .shiftDR | .pauseDR | .captureIR | .shiftIR | .pauseIR => [true, true, false]

/-- One pulse comes nearer to Idle by one at most. -/
theorem shortestToIdle_length_le_succ (s : TapState) (b : Bool) :
    (shortestToIdle s).length ≤ (shortestToIdle (advance s b)).length + 1 := by
  cases s <;> cases b <;> decide

theorem shortestToIdle_length_le {s : TapState} {v : Bits} (h : advanceAll s v = .idle) :
    (shortestToIdle s).length ≤ v.length := by
  induction v generalizing s with
  | nil => cases h; exact Nat.zero_le 0
  | cons b v ih => exact (shortestToIdle_length_le_succ s b).trans (Nat.succ_le_succ (ih h))

/-- Settles O12: R149's strings, none shorter since each pulse comes nearer by one at most. -/
theorem idleIsAtMostThreeStepsAway : Obligations.IdleIsAtMostThreeStepsAway := by
  refine ⟨fun s => ?_, fun s => ?_, shortestToIdle, by decide, by decide, by decide, fun s => ⟨?_, ?_, fun v =>
    shortestToIdle_length_le⟩⟩
  · cases s <;> decide
  · cases s <;> decide
  · cases s <;> decide
  · cases s <;> rfl

end Sys2Proof.Machine
end

section
/-! O6, O7 and O13: what a step runs (R78, R111), the refusal of a part that is not there (R111), and the state rows
(R130). -/

namespace Sys2Proof.Machine

theorem runWord_ok {w : InstrWord} {i : Instr} (h : decode w = .ok i) (s : State) : runWord w s = exec i s := by
  rw [runWord, h]

theorem runWord_error {w : InstrWord} {r : Reject} (h : decode w = .error r) (s : State) :
    runWord w s = .next (refuseWord s) := by
  rw [runWord, h]

/-- A word the port accepts is run with the word taken. -/
theorem step_accepted {s : State} {w : InstrWord} {rest : List HostItem} (hp : s.port = .offer w :: rest)
    (ha : accepts w s = true) : step s = runWord w (s.withPort rest) := by
  simp only [step, hp, ha, if_true]

/-- The port accepts a word that is no command, and a command while `busy` is 0. -/
theorem accepts_of_decode {w : InstrWord} {i : Instr} {s : State} (hd : decode w = .ok i)
    (hb : isCommand i = true → s.busy = false) : accepts w s = true := by
  cases w with
  | command cw => simp [accepts, hb (isCommand_of_decode hd)]
  | row code tms => rfl

/-- A command waits while `busy` is 1 (log 9). -/
theorem step_waiting {s : State} {cw : Word} {rest : List HostItem} (hp : s.port = .offer (.command cw) :: rest)
    (hb : s.busy = true) : step s = .next s := by
  simp [step, hp, accepts, hb]

theorem step_nothing_offered {s : State} (hp : s.port = []) : step s = .next s := by
  simp only [step, hp]

/-- Settles O6: the word at the port is run, refused, left waiting, or not there. -/
theorem stepRunsTheDecodedInstruction : Obligations.StepRunsTheDecodedInstruction := by
  refine ⟨fun s w rest i hp hd hb => ?_, fun s cw rest r hp hd hb => ?_, fun s cw rest => step_waiting,
    fun s => step_nothing_offered⟩
  · rw [step_accepted hp (accepts_of_decode hd hb), runWord_ok hd]
    rfl
  · rw [step_command hp hb, runWord_error hd]
    rfl

/-- R111 (c), (d): a format-P command of a part the chain does not have. -/
theorem onPart_absent {s : State} {t : Nat} (h : ∀ ps, s.chain = some ps → ps.length ≤ t)
    (body : List Part → Part → State → Ran Nat) : onPart t s body = .raised .refused s := by
  rcases onPart_spec t s body with ⟨ps, p, hc, hp, -⟩ | ⟨-, hb⟩
  · rw [List.getElem?_eq_none (h ps hc)] at hp
    cases hp
  · exact hb

/-- Settles O7: neither body is entered. -/
theorem commandOnAbsentPartIsRefused : Obligations.CommandOnAbsentPartIsRefused := by
  intro s t a h
  have habsent := onPart_absent (s := s.accept) h
  constructor
  · rw [exec_command rfl, bodyOf, habsent, answer_raised_accept]
  · rw [exec_command rfl, bodyOf, habsent, answer_raised_accept]

/-- Settles O13: each row hands out its value of `advance`. -/
theorem stateRowsAnswerTheirSuccessor : Obligations.StateRowsAnswerTheirSuccessor := fun _ _ =>
  ⟨rfl, rfl, rfl, rfl, rfl, rfl, rfl, rfl, rfl, rfl, rfl, rfl, rfl, rfl, rfl, rfl⟩

end Sys2Proof.Machine
end

section
/-! O14: one pulse and its tracking (R150). -/

namespace Sys2Proof.Machine

/-- R150: a pulse that is answered. -/
theorem stepTap_bit {s : State} {tms tdi b : Bool} {e : Env} (h : s.env.answer s.pulseNo tms tdi = (.bit b, e)) :
    stepTap tms tdi s = .done b ((s.pulsed tms tdi b e).track tms) := by
  rw [stepTap, h]

/-- R150, R234: a pulse that times out. -/
theorem stepTap_timeout {s : State} {tms tdi : Bool} {e : Env} (h : s.env.answer s.pulseNo tms tdi = (.timeout, e)) :
    stepTap tms tdi s = .raised .busTimeout (s.pulseLost tms tdi e).loseTap := by
  rw [stepTap, h]

/-- U6: after a timeout each of TMS and TDI is at its old or its new level. -/
theorem Pins.afterTimeout_bound (p : Pins) (left : PinsLeft) (tms tdi : Bool) :
    ((p.afterTimeout left tms tdi).tms = p.tms ∨ (p.afterTimeout left tms tdi).tms = tms) ∧
      ((p.afterTimeout left tms tdi).tdi = p.tdi ∨ (p.afterTimeout left tms tdi).tdi = tdi) ∧
      (p.afterTimeout left tms tdi).trst = p.trst := by
  refine ⟨?_, ?_, rfl⟩
  · cases h : left.tmsDriven <;> simp [Pins.afterTimeout, h]
  · cases h : left.tdiDriven <;> simp [Pins.afterTimeout, h]

/-- Settles O14: the two answers of the environment. -/
theorem stepTracksTheTap : Obligations.StepTracksTheTap := by
  intro s tms tdi
  refine ⟨fun b e h => stepTap_bit h, fun e h => ⟨_, stepTap_timeout h, rfl, ?_⟩⟩
  exact s.pins.afterTimeout_bound (Config.freePinsLeft s.pulseNo) tms tdi

end Sys2Proof.Machine
end

section
/-! O15, O16 and O18: power-on (R48) and the reset input (R260). -/

namespace Sys2Proof.Machine

/-- R48: the chain at power-on is CHAIN_CFG, every identity Configured and every record at its default. -/
theorem powerOnChain_descs (c : Config) : (powerOnChain c).map (List.map Part.desc) = c.chainCfg := by
  simp [powerOnChain, configuredPart, Function.comp_def]

theorem powerOnChain_parts {c : Config} {ps : List Part} (h : powerOnChain c = some ps) {p : Part} (hp : p ∈ ps) :
    p.identity = .configured ∧ p.current = p.desc.defaultInstruction := by
  obtain ⟨ds, -, rfl⟩ := Option.map_eq_some_iff.1 h
  obtain ⟨d, -, rfl⟩ := List.mem_map.1 hp
  exact ⟨rfl, rfl⟩

/-- R36: the chain a well-formed parameter set installs is well formed. -/
theorem powerOnChain_wf {c : Config} (hc : Config.wf c = true) {ps : List Part} (h : powerOnChain c = some ps) :
    chainWf ps = true := by
  obtain ⟨ds, hds, rfl⟩ := Option.map_eq_some_iff.1 h
  simp only [Config.wf, hds, Bool.and_eq_true] at hc
  exact hc.2

/-- R38: the label at power-on is `Absent` exactly without a chain. -/
theorem powerOnStatus_absent_iff (c : Config) : powerOnStatus c = .absent ↔ powerOnChain c = none := by
  cases h : c.chainCfg <;> simp [powerOnStatus, powerOnChain, h]

/-- Settles O15: the fields of the power-on state. -/
theorem powerOnValues : Obligations.PowerOnValues := by
  refine ⟨fun c e => ⟨rfl, rfl, rfl, powerOnChain_descs c, fun ps h p hp => powerOnChain_parts h hp, ?_, ?_, ?_,
    rfl, rfl, rfl, rfl⟩, boardConfig, boardConfig_wf, rfl⟩
  · cases h : c.chainCfg <;> simp [State.powerOn, powerOnStatus, h]
  · intro i; exact BitVec.getLsbD_zero
  · intro i; exact BitVec.getLsbD_zero

theorem State.powerOn_inv {c : Config} (hc : Config.wf c = true) (e : Env) : (State.powerOn c e).Inv where
  cfgWf := hc
  notBusy := rfl
  restState _ := .inl rfl
  chainOk _ h := powerOnChain_wf hc h
  statusOk := powerOnStatus_absent_iff c
  outbufWf := rfl
  inbufWf := rfl
  statusCode := ⟨.ok, rfl⟩
  tckLow _ := rfl
  trstOff := rfl

/-- Settles O16: every field of the power-on state meets its clause. -/
theorem powerOnMeetsTheInvariant : Obligations.PowerOnMeetsTheInvariant :=
  ⟨fun _ e hc => State.powerOn_inv hc e, State.powerOn_inv boardConfig_wf _⟩

/-- Settles O18: the reset input tests the parameters and powers on. -/
theorem resetInputIsPowerOn : Obligations.ResetInputIsPowerOn := by
  intro s rest hp
  have hstep : step s = hostReset (s.withPort rest) := by simp only [step, hp]
  refine ⟨fun hwf => ?_, fun hwf => ?_⟩
  · rw [hstep, hostReset, State.withPort_cfg, if_pos hwf]
    rfl
  · rw [hstep, hostReset, State.withPort_cfg, if_neg (by simp [hwf])]

end Sys2Proof.Machine
end

section
/-! Everything an instruction and a step can do, said once; the invariants and frames below are case analyses of it. -/

namespace Sys2Proof.Machine

/-- The state after an answer is that of the body's end, answered. -/
theorem answer_eq_respond (r : Ran Nat) : ∃ st len, answer r = r.final.respond st len := by
  cases r with
  | done n v => exact ⟨_, _, rfl⟩
  | raised k v => exact ⟨_, _, rfl⟩

/-- An instruction that answers a next state is a command, whose body has ended in one of its ways, or a row. -/
theorem exec_cases {i : Instr} {s u : State} (h : exec i s = .next u) :
    (isCommand i = true ∧ ∃ r, BodyEnd s.accept i r ∧ Kept s.accept r.final ∧ u = answer r) ∨
      (isCommand i = false ∧ ∃ t, u = s.recordAdvance t) := by
  cases hi : isCommand i with
  | true =>
    rw [exec_command hi] at h
    cases h
    exact .inl ⟨rfl, _, bodyOf_end hi s.accept, bodyOf_kept i s.accept, rfl⟩
  | false =>
    obtain ⟨t, ht⟩ := exec_row hi s
    rw [ht] at h
    cases h
    exact .inr ⟨rfl, t, rfl⟩

/-- The next states a step can answer. -/
inductive StepEnd (s : State) : State → Prop where
  /-- Nothing is offered, or a command waits (R248, R44). -/
  | rest : StepEnd s s
  /-- The word at the port is run (R78). -/
  | ran (w : InstrWord) (i : Instr) (items : List HostItem) (u : State) (hd : decode w = .ok i)
    (hx : exec i (s.withPort items) = .next u) : StepEnd s u
  /-- The word at the port spells no command (R111). -/
  | refused (items : List HostItem) : StepEnd s (refuseWord (s.withPort items))
  /-- A host write of OUTBUF (R40). -/
  | wroteOutbuf (k : Nat) (v : Word) (items : List HostItem) (hb : s.busy = false) (hk : k < bufferWords) :
    StepEnd s { s.withPort items with outbuf := writeWord s.outbuf k (outbufWord k v) }
  /-- A write to a status register (R46). -/
  | wroteStatus (items : List HostItem) : StepEnd s (s.withPort items)
  /-- The reset input (R260). -/
  | reset (items : List HostItem) (hwf : Config.wf s.cfg = true) : StepEnd s (s.withPort items).powerCycle

theorem runWord_end {s u : State} {w : InstrWord} {items : List HostItem} (h : runWord w (s.withPort items) = .next u) :
    StepEnd s u := by
  cases hd : decode w with
  | ok i => exact .ran w i items u hd (by rwa [runWord_ok hd] at h)
  | error r =>
    rw [runWord_error hd] at h
    cases h
    exact .refused items

theorem hostWriteOutbuf_end {s u : State} {k : Nat} {v : Word} {items : List HostItem}
    (h : hostWriteOutbuf (s.withPort items) k v = .next u) : StepEnd s u := by
  unfold hostWriteOutbuf at h
  split at h
  · cases h
  · next hb =>
    split at h
    · next hk =>
      cases h
      exact .wroteOutbuf k v items (by simpa using hb) hk
    · cases h

theorem hostReset_end {s u : State} {items : List HostItem} (h : hostReset (s.withPort items) = .next u) :
    StepEnd s u := by
  unfold hostReset at h
  split at h
  · next hwf => cases h; exact .reset items hwf
  · cases h

/-- Every step that answers a next state is one of these, by what stands first at the port. -/
theorem step_end {s u : State} (h : step s = .next u) : StepEnd s u := by
  unfold step at h
  split at h
  · cases h; exact .rest
  · split at h
    · exact runWord_end h
    · cases h; exact .rest
  · exact hostWriteOutbuf_end h
  · cases h; exact .wroteStatus _
  · exact hostReset_end h

end Sys2Proof.Machine
end

section
/-! O17: every step keeps the invariant of the resting block.  What the invariant says of a state inside a command is
`Sound`; each way a command can end (`BodyEnd`) keeps it, and the answer restores the rest. -/

namespace Sys2Proof.Machine

/-- The invariant but for `busy` and `last_status`, which the answer to a command writes (R44, R42). -/
structure State.Sound (s : State) : Prop where
  cfgWf : Config.wf s.cfg = true
  rest : s.tapKnown = true → (s.tap = .reset ∨ s.tap = .idle) ∧ s.pins.tck = false
  chainOk : ∀ ps, s.chain = some ps → chainWf ps = true
  statusOk : s.chainStatus = .absent ↔ s.chain = none
  outbufWf : Memory.wf s.outbuf = true
  inbufWf : Memory.wf s.inbuf = true
  trstOff : s.pins.trst = false

theorem State.Inv.accept {s : State} (h : s.Inv) : s.accept.Sound :=
  ⟨h.cfgWf, fun hk => ⟨h.restState hk, h.tckLow hk⟩, h.chainOk, h.statusOk, h.outbufWf, h.inbufWf, h.trstOff⟩

theorem State.Sound.respond {s : State} (h : s.Sound) (st : Status) (len : Nat) : (s.respond st len).Inv :=
  ⟨h.cfgWf, rfl, fun hk => (h.rest hk).1, h.chainOk, h.statusOk, h.outbufWf, h.inbufWf, ⟨st, rfl⟩,
    fun hk => (h.rest hk).2, h.trstOff⟩

/-! ## What keeps it -/

/-- Everything but the TAP, the chain table and INBUF is kept by every command body. -/
theorem State.Sound.of_kept {s v : State} (h : s.Sound) (hk : Kept s v)
    (rest : v.tapKnown = true → (v.tap = .reset ∨ v.tap = .idle) ∧ v.pins.tck = false)
    (chainOk : ∀ ps, v.chain = some ps → chainWf ps = true) (statusOk : v.chainStatus = .absent ↔ v.chain = none)
    (inbufWf : Memory.wf v.inbuf = true) : v.Sound :=
  ⟨hk.cfg ▸ h.cfgWf, rest, chainOk, statusOk, hk.outbuf ▸ h.outbufWf, inbufWf, hk.trst.trans h.trstOff⟩

theorem State.cutAt_kept {s : State} {plan : List (Bool × Bool)} {bs : Bits} {e : Env}
    (h : s.exchange plan = .cut bs e) : Kept s (s.cutAt plan bs e) := by
  have hk := drive_kept plan s
  rwa [drive_spec, h] at hk

theorem State.delivered_kept {s : State} {plan : List (Bool × Bool)} {bs : Bits} {e : Env}
    (h : s.exchange plan = .all bs e) : Kept s (s.delivered plan bs e) := by
  have hk := drive_kept plan s
  rwa [drive_spec, h] at hk

/-- A timeout leaves the TAP unknown, and of it nothing is claimed then (R32, R234). -/
theorem State.Sound.cutAt {s : State} (h : s.Sound) {plan : List (Bool × Bool)} {bs : Bits} {e : Env}
    (hx : s.exchange plan = .cut bs e) : (s.cutAt plan bs e).Sound := by
  refine h.of_kept (State.cutAt_kept hx) (fun hk => ?_) ?_ ?_ ?_
  · rw [State.cutAt_tapKnown (exchange_cut_length hx)] at hk
    cases hk
  · rw [State.cutAt_chain]; exact h.chainOk
  · rw [State.cutAt_chain, State.cutAt_chainStatus]; exact h.statusOk
  · rw [State.cutAt_inbuf]; exact h.inbufWf

/-- Completed pulses that end in Reset or Idle (R33). -/
theorem State.Sound.delivered {s : State} (h : s.Sound) {plan : List (Bool × Bool)} {bs : Bits} {e : Env}
    (hx : s.exchange plan = .all bs e)
    (htap : advanceAll s.tap (tmsOf plan) = .reset ∨ advanceAll s.tap (tmsOf plan) = .idle)
    (htck : (pinsAfter s.pins plan).tck = false) : (s.delivered plan bs e).Sound :=
  h.of_kept (State.delivered_kept hx) (fun _ => ⟨htap, htck⟩) h.chainOk h.statusOk h.inbufWf

/-- R153: the records at their defaults keep the table well formed. -/
theorem State.Sound.resetRecords {s : State} (h : s.Sound) : s.resetRecords.Sound := by
  refine h.of_kept s.resetRecords_kept h.rest (fun qs hqs => ?_) ?_ h.inbufWf
  · obtain ⟨ps, hps, rfl⟩ := Option.map_eq_some_iff.1 hqs
    exact resetRecords_chainWf (h.chainOk ps hps)
  · exact h.statusOk.trans Option.map_eq_none_iff.symm

/-- R153: the five-pulse reset, from any state, leaves a known TAP in Reset. -/
theorem State.Sound.afterReset {s : State} (h : s.Sound) {bs : Bits} {e : Env} (hx : s.exchange resetPlan = .all bs e) :
    (s.afterReset bs e).Sound := by
  have hd : (s.delivered resetPlan bs e).Sound := h.delivered hx (.inl (advanceAll_five s.tap)) rfl
  exact State.Sound.resetRecords ⟨hd.cfgWf, fun _ => ⟨.inl (resetPlan_tap s bs e), rfl⟩, hd.chainOk, hd.statusOk,
    hd.outbufWf, hd.inbufWf, hd.trstOff⟩

/-- R172, R181: SET_INSTRUCTION writes a key of the target's map into its record. -/
theorem State.Sound.setRecord {s : State} (h : s.Sound) {ps : List Part} {t : Nat} {p : Part} {name : NameId}
    (hc : s.chain = some ps) (hp : ps[t]? = some p) (hr : irResolvable ps t name = true) :
    (s.setRecord ps t name).Sound := by
  have hkey : isKey p.desc name = true := by
    simp only [irResolvable, targetHasName, hp, Bool.and_eq_true] at hr
    exact hr.1.1
  refine h.of_kept (s.setRecord_kept ps t name) h.rest (fun qs hqs => ?_) ?_ h.inbufWf
  · cases hqs
    exact setRecord_chainWf (h.chainOk ps hc) hp hkey
  · exact h.statusOk.trans (by simp [hc])

/-- R175: a result of at most `MAX_VEC` bits, or any other that fits the buffer. -/
theorem State.Sound.storeResult {s : State} (h : s.Sound) {r : Bits} (hr : r.length ≤ 32 * bufferWords) :
    (s.storeResult r).Sound :=
  h.of_kept (s.storeResult_kept r) h.rest h.chainOk h.statusOk (wf_writeVector h.inbufWf hr)

/-- R210: the chain of a partition is well formed and labelled. -/
theorem State.Sound.install {s : State} (h : s.Sound) {v : Bits} {frags : List Fragment}
    (hp : partition s.cfg.knownIds v = .ok frags) :
    (s.install (fragmentChain s.cfg.knownIds frags) (fragmentStatus frags)).Sound := by
  obtain ⟨-, -, hids⟩ := configWf_lens h.cfgWf
  refine h.of_kept (s.install_kept _ _) h.rest (fun qs hqs => ?_) ?_ h.inbufWf
  · cases hqs
    exact fragmentChain_wf hids hp
  · unfold State.install fragmentStatus
    split <;> simp

/-! ## The five commands -/

theorem irPulses_eq_plan {v : Bits} (h : v ≠ []) : irPulses v = irScanPlan v := (irScanPlan_eq h).symm

/-- R172, R152: the pulses of SET_INSTRUCTION go from Idle to Idle. -/
theorem State.Sound.irPulses {s : State} (h : s.Sound) {v : Bits} (hv : v ≠ []) (ht : s.tap = .idle) {bs : Bits}
    {e : Env} (hx : s.exchange (irPulses v) = .all bs e) : (s.delivered (Machine.irPulses v) bs e).Sound := by
  refine h.delivered hx (.inr ?_) ?_
  · rw [irPulses_eq_plan hv, ht]; exact irScanPlan_tap hv
  · rw [irPulses_eq_plan hv, irScanPlan_pins hv]

/-- R175, R152: so do those of EXCHANGE_DATA. -/
theorem State.Sound.drScan {s : State} (h : s.Sound) {v : Bits} (hv : v ≠ []) (ht : s.tap = .idle) {bs : Bits}
    {e : Env} (hx : s.exchange (drScanPlan v) = .all bs e) : (s.delivered (drScanPlan v) bs e).Sound := by
  refine h.delivered hx (.inr ?_) ?_
  · rw [ht]; exact drScanPlan_tap hv
  · rw [drScanPlan_pins hv]

/-- R202, R203: the scans of DISCOVER_CHAIN go from Reset to Idle. -/
theorem State.Sound.scans {s : State} (h : s.Sound) (ht : s.tap = .reset) {bs : Bits} {e : Env}
    (hx : s.exchange (scanPlan s.cfg.irFlushLen s.cfg.drCaptureLen) = .all bs e) :
    (s.delivered (scanPlan s.cfg.irFlushLen s.cfg.drCaptureLen) bs e).Sound := by
  obtain ⟨hf, hm, -⟩ := configWf_lens h.cfgWf
  refine h.delivered hx (.inr ?_) ?_
  · rw [ht]; exact scanPlan_tap hf hm
  · rw [scanPlan_pins]

@[simp] theorem State.afterReset_tap (s : State) (bs : Bits) (e : Env) : (s.afterReset bs e).tap = .reset :=
  resetPlan_tap s bs e

/-- However the body of a command that a word can spell ends, what it leaves is sound. -/
theorem BodyEnd.sound {s : State} {i : Instr} {r : Ran Nat} (hend : BodyEnd s i r) (h : s.Sound)
    (hwf : i.wellFormed = true) : r.final.Sound := by
  cases hend with
  | early => exact h
  | cut _ _ _ _ hx => exact h.cutAt hx
  | reset _ _ hx => exact h.afterReset hx
  | idle _ _ hk hx =>
    have htap : advance s.tap false = .idle := by
      rcases (h.rest hk).1 with ht | ht <;> rw [ht] <;> rfl
    exact h.delivered hx (.inr htap) rfl
  | setInstruction t name ps p _ _ hc hp _ ht hr hx =>
    have hv := buildIR_ne_nil (t := t) (name := name) (h.chainOk ps hc) (irResolvable_known hr)
    exact (h.irPulses hv ht hx).setRecord hc hp hr
  | empty => exact h.storeResult (by decide)
  | exchangeData t n ps p _ _ hc hp _ ht hn _ _ hx hl =>
    have hv : buildDR ps t (outBits s n) ≠ [] := buildDR_ne_nil hp (by rw [outBits_length]; exact hn)
    simp only [Instr.wellFormed, argFits, Bool.and_eq_true, decide_eq_true_eq] at hwf
    refine (h.drScan hv ht hx).storeResult ?_
    rw [hl]
    exact Nat.le_of_lt hwf.2
  | discoverCut _ _ _ _ hx hx2 => exact (h.afterReset hx).cutAt hx2
  | discoverNone _ _ _ _ _ hx hx2 => exact (h.afterReset hx).scans (State.afterReset_tap ..) hx2
  | discover _ _ _ _ _ hx hx2 hp => exact ((h.afterReset hx).scans (State.afterReset_tap ..) hx2).install hp

/-- Every instruction that a word can spell keeps the invariant. -/
theorem exec_inv {i : Instr} {s u : State} (h : s.Inv) (hwf : i.wellFormed = true) (hx : exec i s = .next u) :
    u.Inv := by
  rcases exec_cases hx with ⟨-, r, hend, -, rfl⟩ | ⟨-, t, rfl⟩
  · obtain ⟨st, len, ha⟩ := answer_eq_respond r
    rw [ha]
    exact (hend.sound h.accept hwf).respond st len
  · exact ⟨h.cfgWf, h.notBusy, h.restState, h.chainOk, h.statusOk, h.outbufWf, h.inbufWf, h.statusCode, h.tckLow,
      h.trstOff⟩

theorem State.Inv.withPort {s : State} (h : s.Inv) (items : List HostItem) : (s.withPort items).Inv :=
  ⟨h.cfgWf, h.notBusy, h.restState, h.chainOk, h.statusOk, h.outbufWf, h.inbufWf, h.statusCode, h.tckLow, h.trstOff⟩

/-- A host write of OUTBUF keeps its canonical form (R40). -/
theorem State.Inv.withOutbuf {s : State} (h : s.Inv) {m : Memory} (hm : Memory.wf m = true) :
    ({ s with outbuf := m } : State).Inv :=
  ⟨h.cfgWf, h.notBusy, h.restState, h.chainOk, h.statusOk, hm, h.inbufWf, h.statusCode, h.tckLow, h.trstOff⟩

/-- The reset input powers on with the same parameters (R260). -/
theorem State.powerCycle_inv {s : State} (hwf : Config.wf s.cfg = true) : s.powerCycle.Inv :=
  let h := State.powerOn_inv hwf s.env
  ⟨h.cfgWf, h.notBusy, h.restState, h.chainOk, h.statusOk, h.outbufWf, h.inbufWf, h.statusCode, h.tckLow, h.trstOff⟩

/-- Settles O17: a word that decodes is one a word can spell, so its instruction keeps the invariant; the rest of what a
step can do is the host's. -/
theorem everyStepKeepsTheInvariant : Obligations.EveryStepKeepsTheInvariant := by
  intro s u h hx
  cases step_end hx with
  | rest => exact h
  | ran w i items _ hd hx => exact exec_inv (h.withPort items) (encodeOfDecodeIsTheWord w i hd).2 hx
  | refused items => exact (h.withPort items).accept.respond .refused 0
  | wroteOutbuf k v items _ hk => exact (h.withPort items).withOutbuf (wf_writeWord h.outbufWf hk _)
  | wroteStatus items => exact h.withPort items
  | reset items hwf => exact State.powerCycle_inv hwf

end Sys2Proof.Machine
end

section
/-! O53: the tracked TAP is the devices' (R45).  The devices follow `advance` as `tap` does; a timeout makes the TAP
unknown, and what makes it known again is the five-pulse reset, after which both are in Reset. -/

namespace Sys2Proof.Machine

/-- R45: the devices are in the state `tap` whenever it is known. -/
def State.Tracked (s : State) : Prop := ∀ τ, s.env.physTap = some τ → s.tapKnown = true → τ = s.tap

/-- One answered pulse moves the devices by `advance` (R84). -/
theorem Env.answer_physTap {e e' : Env} {k : Nat} {tms tdi b : Bool} (h : e.answer k tms tdi = (.bit b, e')) :
    e'.physTap = e.physTap.map (advance · tms) := by
  cases e with
  | script l =>
    cases l with
    | nil => cases congrArg Prod.snd h; rfl
    | cons a l => cases congrArg Prod.snd h; rfl
  | synth c ts =>
    simp only [Env.answer] at h
    split at h
    · cases h
    · cases h
      exact congrArg some (synthPulse_tau c tms tdi)

/-- Answered pulses move the devices as they move `tap`. -/
theorem exchange_physTap {ps : List (Bool × Bool)} {k : Nat} {e e' : Env} {bs : Bits}
    (h : exchange ps k e = .all bs e') : e'.physTap = e.physTap.map (advanceAll · (tmsOf ps)) := by
  induction ps generalizing k e bs with
  | nil => cases h; exact Option.map_id'.symm
  | cons p ps ih =>
    unfold exchange at h
    split at h
    · next b e1 ha =>
      cases hx : exchange ps (k + 1) e1 with
      | cut cs e2 => rw [hx] at h; cases h
      | all cs e2 =>
        rw [hx] at h
        cases h
        rw [ih hx, Env.answer_physTap ha, Option.map_map]
        rfl
    · cases h

theorem State.Tracked.delivered {s : State} (h : s.Tracked) {plan : List (Bool × Bool)} {bs : Bits} {e : Env}
    (hx : s.exchange plan = .all bs e) : (s.delivered plan bs e).Tracked := by
  intro τ hτ hk
  obtain ⟨τ₀, hτ₀, rfl⟩ := Option.map_eq_some_iff.1 ((exchange_physTap hx).symm.trans hτ)
  exact congrArg (advanceAll · (tmsOf plan)) (h τ₀ hτ₀ hk)

theorem State.tracked_cutAt {s : State} {plan : List (Bool × Bool)} {bs : Bits} {e : Env}
    (hx : s.exchange plan = .cut bs e) : (s.cutAt plan bs e).Tracked := by
  intro τ _ hk
  rw [State.cutAt_tapKnown (exchange_cut_length hx)] at hk
  cases hk

/-- R242: after the five-pulse reset `tap` and the devices are in Reset, wherever they were. -/
theorem State.tracked_afterReset {s : State} {bs : Bits} {e : Env} (hx : s.exchange resetPlan = .all bs e) :
    (s.afterReset bs e).Tracked := by
  intro τ hτ _
  obtain ⟨τ₀, -, rfl⟩ := Option.map_eq_some_iff.1 ((exchange_physTap hx).symm.trans hτ)
  exact (advanceAll_five τ₀).trans (State.afterReset_tap s bs e).symm

theorem BodyEnd.tracked {s : State} {i : Instr} {r : Ran Nat} (hend : BodyEnd s i r) (h : s.Tracked) :
    r.final.Tracked := by
  cases hend with
  | early => exact h
  | cut _ _ _ _ hx => exact State.tracked_cutAt hx
  | reset _ _ hx => exact State.tracked_afterReset hx
  | idle _ _ _ hx => exact h.delivered hx
  | setInstruction _ _ _ _ _ _ _ _ _ _ _ hx => exact h.delivered hx
  | empty => exact h
  | exchangeData _ _ _ _ _ _ _ _ _ _ _ _ _ hx => exact h.delivered hx
  | discoverCut _ _ _ _ _ hx2 => exact State.tracked_cutAt hx2
  | discoverNone _ _ _ _ _ hx hx2 => exact (State.tracked_afterReset hx).delivered hx2
  | discover _ _ _ _ _ hx hx2 => exact (State.tracked_afterReset hx).delivered hx2

/-- Settles O53: the answer and a row touch neither the TAP nor the devices. -/
theorem trackedTapIsTheDevicesTap : Obligations.TrackedTapIsTheDevicesTap := by
  intro i s u h hx
  rcases exec_cases hx with ⟨-, r, hend, -, rfl⟩ | ⟨-, t, rfl⟩
  · obtain ⟨st, len, ha⟩ := answer_eq_respond r
    rw [ha]
    exact hend.tracked (s := s.accept) h
  · exact h

end Sys2Proof.Machine
end

section
/-! O44 to O49: what instructions and steps leave unchanged. -/

namespace Sys2Proof.Machine

/-! ## The TAP (R32) -/

/-- Only the five-pulse reset makes an unknown TAP known. -/
theorem BodyEnd.tapKnown {s : State} {i : Instr} {r : Ran Nat} (hend : BodyEnd s i r) (hcfg : Config.wf s.cfg = true)
    (h0 : s.tapKnown = false) (h1 : r.final.tapKnown = true) :
    (i = .resetTap ∧ r.final.tap = .reset) ∨ (i = .discoverChain ∧ r.final.tap = .idle) := by
  obtain ⟨hf, hm, -⟩ := configWf_lens hcfg
  have hscan : ∀ (bs cs : Bits) (e e2 : Env), ((s.afterReset bs e).delivered
      (scanPlan s.cfg.irFlushLen s.cfg.drCaptureLen) cs e2).tap = .idle := fun bs cs e e2 => by
    rw [State.delivered, State.afterReset_tap]
    exact scanPlan_tap hf hm
  have habsurd : s.tapKnown ≠ true := by simp [h0]
  cases hend with
  | early => exact absurd h1 habsurd
  | cut _ _ _ _ hx => exact absurd h1 (by simp [Ran.final, State.cutAt_tapKnown (exchange_cut_length hx)])
  | reset => exact .inl ⟨rfl, State.afterReset_tap ..⟩
  | idle => exact absurd h1 habsurd
  | setInstruction => exact absurd h1 habsurd
  | empty => exact absurd h1 habsurd
  | exchangeData => exact absurd h1 habsurd
  | discoverCut _ _ _ _ _ hx => exact absurd h1 (by simp [Ran.final, State.cutAt_tapKnown (exchange_cut_length hx)])
  | discoverNone => exact .inr ⟨rfl, hscan ..⟩
  | discover bs e cs e2 => exact .inr ⟨rfl, hscan bs cs e e2⟩

/-- Settles O44: a row keeps `tap_known`, and a command's answer does. -/
theorem onlyResetMakesTheTapKnown : Obligations.OnlyResetMakesTheTapKnown := by
  intro i s u hcfg hx h0 h1
  rcases exec_cases hx with ⟨-, r, hend, -, rfl⟩ | ⟨-, t, rfl⟩
  · obtain ⟨st, len, ha⟩ := answer_eq_respond r
    rw [ha] at h1 ⊢
    exact hend.tapKnown (s := s.accept) hcfg h0 h1
  · exact absurd h1 (by simp [h0])

/-! ## The buffers (R40, R41) -/

/-- INBUF and `in_len` are written by a completed EXCHANGE_DATA alone. -/
theorem BodyEnd.inbuf {s : State} {i : Instr} {r : Ran Nat} (hend : BodyEnd s i r) :
    (r.final.inbuf = s.inbuf ∧ r.final.inLen = s.inLen) ∨
      ∃ t n v, i = .exchangeData t n ∧ r = .done n v ∧ v.inLen = BitVec.ofNat 16 n := by
  cases hend with
  | cut => exact .inl ⟨State.cutAt_inbuf .., State.cutAt_inLen ..⟩
  | discoverCut => exact .inl ⟨State.cutAt_inbuf .., State.cutAt_inLen ..⟩
  | empty t => exact .inr ⟨t, 0, _, rfl, rfl, rfl⟩
  | exchangeData t n _ _ _ _ _ _ _ _ _ _ _ _ hl => exact .inr ⟨t, n, _, rfl, rfl, congrArg (BitVec.ofNat 16) hl⟩
  | early | reset | idle | setInstruction | discoverNone | discover => exact .inl ⟨rfl, rfl⟩

/-- Settles O45: OUTBUF is kept by every body, INBUF by every end but that of a completed exchange, which answers OK. -/
theorem onlyAnExchangeWritesInbuf : Obligations.OnlyAnExchangeWritesInbuf := by
  intro i s u hx
  rcases exec_cases hx with ⟨-, r, hend, hkept, rfl⟩ | ⟨-, t, rfl⟩
  · obtain ⟨st, len, ha⟩ := answer_eq_respond r
    refine ⟨by rw [ha]; exact hkept.outbuf, ?_⟩
    rcases hend.inbuf with hsame | ⟨t, n, v, rfl, rfl, hlen⟩
    · rw [ha]; exact .inl hsame
    · exact .inr ⟨t, n, rfl, rfl, hlen⟩
  · exact ⟨rfl, .inl ⟨rfl, rfl⟩⟩

/-! ## The chain table (R34, R35) -/

theorem staticTable_setRecord (ps : List Part) (t : Nat) (name : NameId) :
    staticTable (some (setRecord ps t name)) = staticTable (some ps) := by
  refine congrArg some (List.ext_getElem? fun q => ?_)
  rw [List.getElem?_map, List.getElem?_map, setRecord_get, Option.map_map]
  congr 1
  funext p
  simp only [Function.comp_apply]
  split <;> rfl

/-- What a command but DISCOVER_CHAIN can have done to the chain table: nothing, or the records are at their defaults
(RESET_TAP), or one record is written (SET_INSTRUCTION). -/
theorem BodyEnd.chain {s : State} {i : Instr} {r : Ran Nat} (hend : BodyEnd s i r) (hi : i ≠ .discoverChain) :
    r.final.chainStatus = s.chainStatus ∧
      (r.final.chain = s.chain ∨ (i = .resetTap ∧ r.final.chain = resetRecords s.chain) ∨
        ∃ t name ps, i = .setInstruction t name ∧ s.chain = some ps ∧ r.final.chain = some (setRecord ps t name)) := by
  cases hend with
  | early | idle | empty | exchangeData => exact ⟨rfl, .inl rfl⟩
  | cut => exact ⟨State.cutAt_chainStatus .., .inl (State.cutAt_chain ..)⟩
  | reset => exact ⟨rfl, .inr (.inl ⟨rfl, rfl⟩)⟩
  | setInstruction t name ps _ _ _ hc => exact ⟨rfl, .inr (.inr ⟨t, name, ps, rfl, hc, rfl⟩)⟩
  | discoverCut | discoverNone | discover => exact absurd rfl hi

/-- A record that SET_INSTRUCTION changed is the target's, and it is at the name (R172). -/
theorem setRecord_changed {ps : List Part} {t q : Nat} {name : NameId} {p r : Part} (hp : ps[q]? = some p)
    (hr : (setRecord ps t name)[q]? = some r) (hne : p.current ≠ r.current) : q = t ∧ r.current = some name := by
  rw [setRecord_get, hp] at hr
  cases hr
  by_cases hq : q = t
  · simp [hq]
  · simp [hq] at hne

/-- Settles O46: by the three things a command but DISCOVER_CHAIN can have done to the table. -/
theorem staticFieldsOfTheChainStay : Obligations.StaticFieldsOfTheChainStay := by
  intro i s u hx hi
  have hsame : u.chain = s.chain → ∀ ps qs, s.chain = some ps → u.chain = some qs →
      ∀ (q : Nat) (p r : Part), ps[q]? = some p → qs[q]? = some r → p.current ≠ r.current →
        ∃ name, i = .setInstruction q name ∧ r.current = some name := by
    intro hchain ps qs hps hqs q p r hp hr hne
    cases hps.symm.trans (hchain.symm.trans hqs)
    cases hp.symm.trans hr
    exact absurd rfl hne
  rcases exec_cases hx with ⟨-, r, hend, -, rfl⟩ | ⟨-, t, rfl⟩
  · obtain ⟨st, len, ha⟩ := answer_eq_respond r
    rw [ha] at hsame ⊢
    obtain ⟨hstatus, hchain | ⟨rfl, hchain⟩ | ⟨t, name, ps, rfl, hc, hchain⟩⟩ := hend.chain hi
    · exact ⟨hstatus, congrArg staticTable hchain, fun _ => hsame hchain⟩
    · exact ⟨hstatus, (congrArg staticTable hchain).trans (staticTable_resetRecords _), fun hne => absurd rfl hne⟩
    · refine ⟨hstatus, ?_, fun _ ps' qs hps hqs q p r hp hr hne => ?_⟩
      · exact (congrArg staticTable hchain).trans ((staticTable_setRecord ..).trans (congrArg staticTable hc.symm))
      · cases hc.symm.trans hps
        cases hchain.symm.trans hqs
        obtain ⟨rfl, hcur⟩ := setRecord_changed hp hr hne
        exact ⟨name, rfl, hcur⟩
  · exact ⟨rfl, rfl, fun _ => hsame rfl⟩

/-! ## The trace, the responses and the parameters -/

/-- Settles O47: a command's body adds one entry per pulse, a row none. -/
theorem pinTraceOnlyGrows : Obligations.PinTraceOnlyGrows := by
  intro i s u hx
  rcases exec_cases hx with ⟨hi, r, -, hkept, rfl⟩ | ⟨-, t, rfl⟩
  · obtain ⟨st, len, ha⟩ := answer_eq_respond r
    obtain ⟨new, htrace, hno⟩ := hkept.trace
    rw [ha]
    exact ⟨new, htrace, hno, by simp [hi]⟩
  · exact ⟨[], (List.append_nil _).symm, rfl, fun _ => rfl⟩

/-- R105: the fields of a response word. -/
theorem responseWord_fields (st : Status) (len : Nat) :
    (responseWord st len).extractLsb' 28 4 = st.code ∧ (responseWord st len).extractLsb' 16 12 = 0#12 := by
  constructor
  · apply BitVec.eq_of_getLsbD_eq
    intro i hi
    rw [BitVec.getLsbD_extractLsb', responseWord, append_high _ _ _ (by omega), append_high _ _ _ (by omega)]
    simp [hi, show 28 + i - 16 - 12 = i by omega]
  · apply BitVec.eq_of_getLsbD_eq
    intro i hi
    rw [BitVec.getLsbD_extractLsb', responseWord, append_high _ _ _ (by omega), append_low _ _ _ (by omega)]
    simp

/-- What O48 says of the responses before and after a step. -/
def Delivers (s u : State) : Prop :=
  ∃ new, u.responses = s.responses ++ new ∧ new.length ≤ 1 ∧
    (∀ rw ∈ new, rw.extractLsb' 28 4 = u.lastStatus ∧ rw.extractLsb' 16 12 = 0#12) ∧ (u.clean → s.clean)

/-- Responses are only added, so a refused word among them stays (R237). -/
theorem State.clean_of_append {s u : State} {new : List Word} (h : u.responses = s.responses ++ new) (hu : u.clean) :
    s.clean :=
  fun rw hrw => hu rw (h ▸ List.mem_append_left new hrw)

theorem delivers_none {s u : State} (h : u.responses = s.responses) : Delivers s u :=
  ⟨[], by rw [h, List.append_nil], Nat.zero_le 1, nofun, State.clean_of_append (new := []) (by rw [h, List.append_nil])⟩

theorem Kept.delivers {s v : State} (h : Kept s v) (st : Status) (len : Nat) : Delivers s (v.respond st len) := by
  have hresp : (v.respond st len).responses = s.responses ++ [responseWord st len] := by
    rw [State.respond_responses, h.responses]
  refine ⟨_, hresp, le_refl 1, fun rw hrw => ?_, State.clean_of_append hresp⟩
  rw [List.mem_singleton.1 hrw]
  exact responseWord_fields st len

theorem exec_delivers {i : Instr} {s u : State} (hx : exec i s = .next u) : Delivers s u := by
  rcases exec_cases hx with ⟨-, r, -, hkept, rfl⟩ | ⟨-, t, rfl⟩
  · obtain ⟨st, len, ha⟩ := answer_eq_respond r
    rw [ha]
    exact hkept.delivers st len
  · exact delivers_none rfl

/-- Settles O48: only the answer to a command word adds a response. -/
theorem responsesOnlyGrow : Obligations.ResponsesOnlyGrow := by
  intro s u hx
  cases step_end hx with
  | ran w i items _ _ hx => exact exec_delivers (s := s.withPort items) hx
  | refused items => exact (Kept.refl (s.withPort items).accept).delivers .refused 0
  | rest | wroteOutbuf | wroteStatus | reset => exact delivers_none rfl

theorem exec_cfg_trst {i : Instr} {s u : State} (hx : exec i s = .next u) :
    u.cfg = s.cfg ∧ u.pins.trst = s.pins.trst := by
  rcases exec_cases hx with ⟨-, r, -, hkept, rfl⟩ | ⟨-, t, rfl⟩
  · obtain ⟨st, len, ha⟩ := answer_eq_respond r
    rw [ha]
    exact ⟨hkept.cfg, hkept.trst⟩
  · exact ⟨rfl, rfl⟩

/-- Settles O49: every command body keeps both, and no other thing a step can do writes the parameters. -/
theorem parametersAndTrstStay : Obligations.ParametersAndTrstStay := by
  refine ⟨fun s u hx => ?_, fun i s u hx => (exec_cfg_trst hx).2⟩
  cases step_end hx with
  | ran w i items _ _ hx => exact (exec_cfg_trst hx).1
  | rest | refused | wroteOutbuf | wroteStatus | reset => rfl

end Sys2Proof.Machine
end

section
/-! O19 to O24 and O30: the commands with all their pulses answered (R153, R154, R172, R175, R200).  Each plan has one
lemma that says what its pulses leave; the command's effect is added to that. -/

namespace Sys2Proof.Machine

/-! ## What the pulses of a plan leave -/

/-- R153: five pulses end in Reset. -/
theorem State.delivered_resetPlan (s : State) (bits : Bits) (e : Env) :
    s.delivered resetPlan bits e =
      { s with
        tap := .reset
        pins := { s.pins with tck := false, tms := true, tdi := false }
        trace := s.trace ++ deliveredEvents resetPlan bits
        env := e
        pulseNo := s.pulseNo + 5 } := by
  rw [State.delivered, show advanceAll s.tap (tmsOf resetPlan) = .reset from advanceAll_five s.tap]
  rfl

/-- R154: one pulse with TMS 0 leads from Reset or Idle to Idle. -/
theorem State.delivered_idlePlan {s : State} (ht : s.tap = .reset ∨ s.tap = .idle) (b : Bool) (e : Env) :
    s.delivered idlePlan [b] e =
      { s with
        tap := .idle
        pins := { s.pins with tck := false, tms := false, tdi := false }
        trace := s.trace ++ [⟨false, false, .bit b⟩]
        env := e
        pulseNo := s.pulseNo + 1 } := by
  have htap : advanceAll s.tap (tmsOf idlePlan) = .idle := by
    rcases ht with ht | ht <;> rw [ht] <;> rfl
  rw [State.delivered, htap]
  rfl

/-- R172: an IR scan from Idle ends in Idle, the pins at rest. -/
theorem State.delivered_irScanPlan {s : State} (ht : s.tap = .idle) {v : Bits} (hv : v ≠ []) (bits : Bits) (e : Env) :
    s.delivered (irScanPlan v) bits e =
      { s with
        pins := { s.pins with tck := false, tms := false, tdi := false }
        trace := s.trace ++ deliveredEvents (irScanPlan v) bits
        env := e
        pulseNo := s.pulseNo + (v.length + 6) } := by
  have htap : advanceAll s.tap (tmsOf (irScanPlan v)) = s.tap := by rw [ht, irScanPlan_tap hv]
  rw [State.delivered, htap, irScanPlan_pins hv, irScanPlan_length hv]

/-- R175: so does a DR scan. -/
theorem State.delivered_drScanPlan {s : State} (ht : s.tap = .idle) {v : Bits} (hv : v ≠ []) (bits : Bits) (e : Env) :
    s.delivered (drScanPlan v) bits e =
      { s with
        pins := { s.pins with tck := false, tms := false, tdi := false }
        trace := s.trace ++ deliveredEvents (drScanPlan v) bits
        env := e
        pulseNo := s.pulseNo + (v.length + 5) } := by
  have htap : advanceAll s.tap (tmsOf (drScanPlan v)) = s.tap := by rw [ht, drScanPlan_tap hv]
  rw [State.delivered, htap, drScanPlan_pins hv, drScanPlan_length hv]

/-! ## RESET_TAP, ENTER_IDLE and RECOVER -/

/-- R153: RESET_TAP, its pulses answered, is the five-pulse reset and its answer. -/
theorem exec_resetTap_all {s : State} {bits : Bits} {e : Env} (h : s.exchange resetPlan = .all bits e) :
    exec .resetTap s = .next ((s.accept.afterReset bits e).respond .ok 0) := by
  rw [exec_command rfl, bodyOf, resetTapBody, fiveReset_spec, State.exchange_accept, h]
  rfl

/-- R154: ENTER_IDLE from a known TAP, its pulse answered, is that pulse and its answer. -/
theorem exec_enterIdle_all {s : State} {bits : Bits} {e : Env} (hk : s.tapKnown = true)
    (h : s.exchange idlePlan = .all bits e) :
    exec .enterIdle s = .next ((s.accept.delivered idlePlan bits e).respond .ok 0) := by
  rw [exec_command rfl, bodyOf, enterIdleBody, if_pos (c := s.accept.tapKnown = true) hk, walk,
    show walkPulses resetToIdle = idlePlan from rfl, drive_spec, State.exchange_accept, h]
  rfl

/-- Settles O19: the five pulses, then the TAP is known and the records are at their defaults. -/
theorem resetTapCompletes : Obligations.ResetTapCompletes := by
  intro s bits e h
  rw [exec_resetTap_all h, State.afterReset, State.delivered_resetPlan, ← recordsAtDefault_eq]
  rfl

/-- Settles O20: its one pulse. -/
theorem enterIdleCompletes : Obligations.EnterIdleCompletes := by
  intro s b e hk ht h
  rw [exec_enterIdle_all hk h, State.delivered_idlePlan (s := s.accept) ht]
  rfl

/-- Settles O21: RESET_TAP completes, and ENTER_IDLE from where it leaves the block. -/
theorem recoverReachesIdle : Obligations.RecoverReachesIdle := by
  intro s bits e h
  obtain ⟨a, b, e1, hreset, hidle, rfl⟩ := State.exchange_append_all h
  have hx1 := exec_resetTap_all hreset
  have hx2 := exec_enterIdle_all (s := (s.accept.afterReset a e1).respond .ok 0) rfl hidle
  refine ⟨_, (runWhileOk_cons hx1 rfl).trans ((runWhileOk_cons hx2 rfl).trans rfl), ?tap, rfl, rfl,
    recordsAtDefault_eq s.chain, rfl, rfl, rfl, rfl, ?trace⟩
  case tap => exact congrArg (advanceAll · (tmsOf idlePlan)) (State.afterReset_tap s.accept a e1)
  case trace =>
    rw [deliveredEvents_append (exchange_all_length hreset), ← List.append_assoc]
    rfl

/-! ## SET_INSTRUCTION and EXCHANGE_DATA -/

/-- Past its tests SET_INSTRUCTION issues its pulses (R172, R238). -/
theorem exec_setInstruction_pulses {t : Nat} {s : State} {ps : List Part} {p : Part} {name : NameId}
    (hc : s.chain = some ps) (hp : ps[t]? = some p) (hi : s.tapKnown = true ∧ s.tap = .idle)
    (hr : irResolvable ps t name = true) :
    exec (.setInstruction t name) s = .next (answer (setInstructionPulses t name ps s.accept)) := by
  have hk : s.accept.idleKnown = true := s.accept.idleKnown_iff.2 hi
  rw [exec_setInstruction hc hp, setInstructionBody, if_pos hk, if_pos hr]

/-- Past its tests EXCHANGE_DATA of at least one bit issues its pulses (R175, R238). -/
theorem exec_exchangeData_pulses {t n : Nat} {s : State} {ps : List Part} {p : Part} (hc : s.chain = some ps)
    (hp : ps[t]? = some p) (hi : s.tapKnown = true ∧ s.tap = .idle) (hn : 1 ≤ n)
    (hw : targetWidthFits p n = true) (ho : othersWidthKnown ps t = true) :
    exec (.exchangeData t n) s = .next (answer (exchangeDataPulses t n ps s.accept)) := by
  have hk : s.accept.idleKnown = true := s.accept.idleKnown_iff.2 hi
  rw [exec_exchangeData hc hp, exchangeDataBody, if_pos hk, if_pos (by rw [hw, ho, Bool.and_self]),
    if_neg (Nat.ne_of_gt hn)]

theorem setRecord_eq_set {ps : List Part} {t : Nat} {p : Part} (hp : ps[t]? = some p) (name : NameId) :
    setRecord ps t name = ps.set t { p with current := some name } := by
  rw [setRecord, List.modify_eq_set_getElem?, hp]
  rfl

/-- Settles O22: one IR scan, then the record. -/
theorem setInstructionCompletes : Obligations.SetInstructionCompletes := by
  intro s ps t p name bits e hc hwf hp hk ht hr hx
  have hv := buildIR_ne_nil (t := t) (name := name) hwf (irResolvable_known hr)
  rw [exec_setInstruction_pulses hc hp ⟨hk, ht⟩ hr, setInstructionPulses_spec _ hv, State.exchange_accept, hx,
    ← setRecord_eq_set hp]
  simp only [State.delivered_irScanPlan (s := s.accept) ht hv]
  rw [buildIR_length]
  rfl

/-- Settles O24: one DR scan, then the result. -/
theorem exchangeDataCompletes : Obligations.ExchangeDataCompletes := by
  intro s ps t p n bits e hc hp hk ht hn hw ho hx
  have hlen := outBits_length s n
  have hv : buildDR ps t (outBits s n) ≠ [] := buildDR_ne_nil hp (by rwa [hlen])
  have hwin := drWindow_fits ps t n hp
  have hsum : (buildDR ps t (outBits s n)).length = (drWidths ps t n).sum := by rw [buildDR_length, hlen]
  have hres : (window bits (3 + windowLo (drWidths ps t n) t) n).length = n := by
    rw [window_length, exchange_all_length hx, drScanPlan_length hv]
    omega
  have hx' : s.accept.exchange (drScanPlan (buildDR ps t (outBits s.accept n))) = .all bits e := hx
  rw [exec_exchangeData_pulses hc hp ⟨hk, ht⟩ hn ((targetWidthFits_iff p n).2 hw) ((othersWidthKnown_iff ps t).2 ho),
    exchangeDataPulses_spec _ hp hn, hx']
  simp only [State.delivered_drScanPlan (s := s.accept) ht (v := buildDR ps t (outBits s.accept n)) hv,
    State.storeResult, hres]
  rw [show (buildDR ps t (outBits s.accept n)).length = _ from hsum]
  rfl

/-! ## DISCOVER_CHAIN -/

theorem installStream_ok {v : Bits} {s : State} {frags : List Fragment} (h : partition s.cfg.knownIds v = .ok frags) :
    installStream v s =
      .done frags.length (s.install (fragmentChain s.cfg.knownIds frags) (fragmentStatus frags)) := by
  rw [installStream, h]

/-- Settles O30: the fragments of the stream are installed in the state all the pulses leave. -/
theorem discoverChainInstallsTheChain : Obligations.DiscoverChainInstallsTheChain := by
  intro s bits e frags hcfg hpulses hstream
  obtain ⟨hf, hm, -⟩ := configWf_lens hcfg
  have hbody : discoverChainBody s.accept = .done frags.length
      ((s.accept.delivered (discoverPlan s.cfg.irFlushLen s.cfg.drCaptureLen) bits e).knowTap.resetRecords.install
        (fragmentChain s.cfg.knownIds frags) (fragmentStatus frags)) :=
    (discoverChainBody_all (s := s.accept) hf hm hpulses).trans (installStream_ok hstream)
  rw [exec_command rfl, bodyOf, hbody, answer_done, State.delivered_discoverPlan _ hf hm]
  rfl

end Sys2Proof.Machine
end

section
/-! O38 and O43: the tests of the data commands on a chain that no test accepts (R206, R264) and without a known TAP
(R240). -/

namespace Sys2Proof.Machine

/-- R206: where some `ir_length` is not known, no SET_INSTRUCTION is resolvable. -/
theorem not_irResolvable_of_bare {ps : List Part} {r : Part} (hr : r ∈ ps) (hbare : r.desc.irLength = none) (t : Nat)
    (name : NameId) : ¬irResolvable ps t name = true :=
  fun h => ((irResolvable_iff ps t name).1 h).2.1 r hr hbare

/-- R206: and no EXCHANGE_DATA has all its widths, since that part has no record. -/
theorem widths_not_fit_of_bare {ps : List Part} (hwf : chainWf ps = true) {r : Part} (hr : r ∈ ps)
    (hbare : r.desc.irLength = none) {t : Nat} {p : Part} (hp : ps[t]? = some p) (n : Nat) :
    ¬(targetWidthFits p n && othersWidthKnown ps t) = true := by
  obtain ⟨q, hq⟩ := List.mem_iff_getElem?.1 hr
  obtain ⟨hnone, -⟩ := Part.wf_bare (chainWf_part hwf hq) hbare
  by_cases hqt : q = t
  · subst hqt
    cases hq.symm.trans hp
    exact widths_not_fit (.inl hnone)
  · exact widths_not_fit (.inr (.inr ⟨q, r, hq, hqt, by rw [recordWidth, hnone]; rfl⟩))

/-- Settles O38: the part of unknown `ir_length` fails the second test of each. -/
theorem partialChainTakesNoDataCommand : Obligations.PartialChainTakesNoDataCommand := by
  rintro s ps t a hc hwf ht ⟨r, hr, hbare⟩ hk hidle
  have hp : ps[t]? = some ps[t] := List.getElem?_eq_getElem ht
  exact ⟨exec_setInstruction_unresolvable hc hp a ⟨hk, hidle⟩ (not_irResolvable_of_bare hr hbare t a),
    exec_exchangeData_mismatch hc hp a ⟨hk, hidle⟩ (widths_not_fit_of_bare hwf hr hbare hp a)⟩

/-- Settles O43: each of the three tests `tap_known` first. -/
theorem unknownTapBlocksUntilReset : Obligations.UnknownTapBlocksUntilReset := by
  intro s ps t a hk
  have hnot : ¬s.tapKnown = true := by simp [hk]
  refine ⟨?_, fun hc ht => ?_⟩
  · rw [exec_command rfl, bodyOf, enterIdleBody, if_neg (c := s.accept.tapKnown = true) hnot, answer_raised_accept]
  · have hp : ps[t]? = some ps[t] := List.getElem?_eq_getElem ht
    have hidle : ¬(s.tapKnown = true ∧ s.tap = .idle) := mt And.left hnot
    exact ⟨exec_setInstruction_not_idle hc hp a hidle, exec_exchangeData_not_idle hc hp a hidle⟩

end Sys2Proof.Machine
end

section
/-! O41 and O42: a pulse that times out ends the command (R234). -/

namespace Sys2Proof.Machine

/-- R239: a command that times out leaves the state of its pulses, answered. -/
theorem answer_cutAt_accept (s : State) (plan : List (Bool × Bool)) (bits : Bits) (e : Env) :
    answer (.raised .busTimeout (s.accept.cutAt plan bits e)) = (s.cutAt plan bits e).answered .busTimeout 0 := by
  unfold State.cutAt
  split <;> rfl

/-- Settles O41: each of the four commands raises `BusTimeout` where its plan is cut. -/
theorem timeoutEndsTheCommand : Obligations.TimeoutEndsTheCommand := by
  intro s bits e
  refine ⟨fun hx => ?reset, fun hk hx => ?idle, fun ps t name hc hwf hlt hk ht hr hx => ?setInstruction,
    fun ps t p n hc hp hk ht hn hw ho hx => ?exchangeData⟩
  case reset =>
    rw [exec_command rfl, bodyOf, resetTapBody, fiveReset_spec, State.exchange_accept, hx]
    exact congrArg _ (answer_cutAt_accept ..)
  case idle =>
    rw [exec_command rfl, bodyOf, enterIdleBody, if_pos (c := s.accept.tapKnown = true) hk, walk,
      show walkPulses resetToIdle = idlePlan from rfl, drive_spec, State.exchange_accept, hx]
    exact congrArg _ (answer_cutAt_accept ..)
  case setInstruction =>
    have hp : ps[t]? = some ps[t] := List.getElem?_eq_getElem hlt
    have hv := buildIR_ne_nil (t := t) (name := name) hwf (irResolvable_known hr)
    rw [exec_setInstruction_pulses hc hp ⟨hk, ht⟩ hr, setInstructionPulses_spec _ hv, State.exchange_accept, hx]
    exact congrArg _ (answer_cutAt_accept ..)
  case exchangeData =>
    have hx' : s.accept.exchange (drScanPlan (buildDR ps t (outBits s.accept n))) = .cut bits e := hx
    rw [exec_exchangeData_pulses hc hp ⟨hk, ht⟩ hn hw ho, exchangeDataPulses_spec _ hp hn, hx']
    exact congrArg _ (answer_cutAt_accept ..)

/-! ## DISCOVER_CHAIN -/

/-- A timeout in the first of two groups of pulses is one in all of them. -/
theorem State.cutAt_append_left (s : State) {ps qs : List (Bool × Bool)} {bits : Bits} (h : bits.length < ps.length)
    (e : Env) : s.cutAt (ps ++ qs) bits e = s.cutAt ps bits e := by
  simp only [State.cutAt, List.getElem?_append_left h, List.take_append_of_le_length (Nat.le_of_lt h)]

/-- A timeout in the second group, the first being delivered. -/
theorem State.cutAt_append_right (s : State) {ps qs : List (Bool × Bool)} {a b : Bits} (ha : a.length = ps.length)
    (hb : b.length < qs.length) (e1 e : Env) :
    (s.delivered ps a e1).cutAt qs b e = s.cutAt (ps ++ qs) (a ++ b) e := by
  have hlen : (a ++ b).length = ps.length + b.length := by rw [List.length_append, ha]
  have hget : (ps ++ qs)[ps.length + b.length]? = some qs[b.length] := by
    rw [List.getElem?_append_right (Nat.le_add_right ..), Nat.add_sub_cancel_left, List.getElem?_eq_getElem hb]
  have htake : (ps ++ qs).take (ps.length + b.length) = ps ++ qs.take b.length :=
    List.take_length_add_append b.length
  simp only [State.cutAt, hlen, hget, htake, List.getElem?_eq_getElem hb, State.delivered, tmsOf_append,
    advanceAll_append, pinsAfter_append, deliveredEvents_append ha,
    List.append_assoc, List.length_append, Nat.add_assoc]

/-- Of what a completed reset has done, a later timeout leaves the records. -/
theorem State.cutAt_knowTap_resetRecords (s : State) {ps : List (Bool × Bool)} {bits : Bits}
    (h : bits.length < ps.length) (e : Env) :
    s.knowTap.resetRecords.cutAt ps bits e = { s.cutAt ps bits e with chain := Machine.resetRecords s.chain } := by
  simp only [State.cutAt, List.getElem?_eq_getElem h]
  rfl

/-- R234: DISCOVER_CHAIN cut in its reset. -/
theorem discoverChainBody_cut_reset {s : State} {bits : Bits} {e : Env} (h : s.exchange resetPlan = .cut bits e) :
    discoverChainBody s = .raised .busTimeout (s.cutAt resetPlan bits e) := by
  rw [discoverChainBody_spec, h]

/-- R234, R201: DISCOVER_CHAIN cut in its scans. -/
theorem discoverChainBody_cut_scans {s : State} {a b : Bits} {e1 e : Env} (h : s.exchange resetPlan = .all a e1)
    (h2 : Machine.exchange (scanPlan s.cfg.irFlushLen s.cfg.drCaptureLen) (s.pulseNo + resetPlan.length) e1 =
      .cut b e) :
    discoverChainBody s = .raised .busTimeout
      { s.cutAt (resetPlan ++ scanPlan s.cfg.irFlushLen s.cfg.drCaptureLen) (a ++ b) e with
        chain := Machine.resetRecords s.chain } := by
  have h2' : ((s.delivered resetPlan a e1).knowTap.resetRecords).exchange
      (scanPlan s.cfg.irFlushLen s.cfg.drCaptureLen) = .cut b e := h2
  rw [discoverChainBody_spec, h]
  simp only [h2']
  rw [State.cutAt_knowTap_resetRecords _ (exchange_cut_length h2),
    State.cutAt_append_right s (exchange_all_length h) (exchange_cut_length h2)]
  rfl

/-- Settles O42: by whether the five pulses of the reset are among the completed ones. -/
theorem timeoutEndsDiscovery : Obligations.TimeoutEndsDiscovery := by
  intro s bits e hcfg hx
  obtain ⟨hf, hm, -⟩ := configWf_lens hcfg
  rw [discoverPlan_eq hf hm] at hx ⊢
  rw [exec_command rfl, bodyOf]
  rcases State.exchange_append_cut hx with ⟨hreset, hlen⟩ | ⟨a, b, e1, hreset, hscan, rfl, ha, -⟩
  · rw [discoverChainBody_cut_reset (s := s.accept) hreset, answer_cutAt_accept, State.cutAt_append_left s hlen,
      if_pos (show bits.length < 5 from hlen), ← State.cutAt_chain s resetPlan bits e]
    rfl
  · have hnot : ¬(a ++ b).length < 5 := by
      rw [List.length_append, ha]
      exact Nat.not_lt.2 (Nat.le_add_right 5 b.length)
    rw [discoverChainBody_cut_scans (s := s.accept) hreset hscan, if_neg hnot, ← recordsAtDefault_eq]
    exact congrArg (fun u : State => Host.Outcome.next { u with chain := Machine.resetRecords s.chain })
      (answer_cutAt_accept s (resetPlan ++ scanPlan s.cfg.irFlushLen s.cfg.drCaptureLen) (a ++ b) e)

end Sys2Proof.Machine
end

section
/-! O27 to O29: the buffers (R40, R41, R68) and the assembler line that loads OUTBUF (R113). -/

namespace Sys2Proof.Machine

theorem bufferWords_eq : bufferWords = 2048 := rfl

/-- Settles O27: a bit of the buffer after the store is one of the vector, a zero, or as before. -/
theorem storedVectorReadsBack : Obligations.StoredVectorReadsBack := by
  intro m v hm hv
  have hfit : v.length ≤ 32 * bufferWords := by rw [bufferWords_eq]; omega
  refine ⟨wf_writeVector hm hfit, bufferBits_writeVector hm hfit, fun i => ⟨fun h1 h2 => ?_, fun h => ?_⟩⟩
  · rw [bufferBit_writeVector hm hfit, if_pos (by omega), List.getD_eq_default _ _ h1]
  · rw [bufferBit_writeVector hm hfit, if_neg (by omega)]

/-! ## A host write of one word -/

theorem step_writeOutbuf {s : State} {k : Nat} {v : Word} {rest : List HostItem}
    (hp : s.port = .writeOutbuf k v :: rest) : step s = hostWriteOutbuf (s.withPort rest) k v := by
  simp only [step, hp]

/-- A write of a word of the buffer goes through while `busy` is 0. -/
theorem step_writeOutbuf_next {s : State} {k : Nat} {v : Word} {rest : List HostItem}
    (hp : s.port = .writeOutbuf k v :: rest) (hb : s.busy = false) (hk : k < bufferWords) :
    step s = .next { s with port := rest, outbuf := writeWord s.outbuf k (outbufWord k v) } := by
  have hnot : ¬(s.withPort rest).busy = true := by simp [hb]
  rw [step_writeOutbuf hp, hostWriteOutbuf, if_neg hnot, if_pos hk]
  rfl

/-- The mask of `outbufWord` is all but bit 31. -/
theorem outbufMask_getLsbD : ∀ j < 32, (0x7FFFFFFF#32).getLsbD j = decide (j ≠ 31) := by decide

/-- Of the last word bit 31, which is bit 65535 of the vector, is not stored (log 10); every other bit is. -/
theorem outbufWord_getLsbD (k : Nat) (v : Word) {j : Nat} (hj : j < 32) :
    (outbufWord k v).getLsbD j = (v.getLsbD j && decide ¬(k = 2047 ∧ j = 31)) := by
  unfold outbufWord
  by_cases hk : k = 2047
  · rw [if_pos (by rw [hk]; rfl), BitVec.getLsbD_and, outbufMask_getLsbD j hj]
    simp [hk]
  · rw [if_neg (by rw [bufferWords_eq]; omega)]
    simp [hk]

theorem bufferBit_outbufWord {m : Memory} (hm : Memory.wf m = true) {k : Nat} (hk : k < 2048) (v : Word) (i : Nat) :
    bufferBit (writeWord m k (outbufWord k v)) i =
      if i / 32 = k then v.getLsbD (i % 32) && decide (i ≠ 65535) else bufferBit m i := by
  rw [bufferBit_writeWord hm hk]
  by_cases hi : i / 32 = k
  · have hlast : (k = 2047 ∧ i % 32 = 31) ↔ i = 65535 := by omega
    rw [if_pos hi, if_pos hi, outbufWord_getLsbD k v (Nat.mod_lt i (by decide)), decide_eq_decide.2 (not_congr hlast)]
  · rw [if_neg hi, if_neg hi]

/-- Settles O28: the two tests of the write, then the bits of the word written. -/
theorem hostWritesOutbufWord : Obligations.HostWritesOutbufWord := by
  intro s k v rest hp hwf
  refine ⟨fun hb => ?busy, fun hb hk => ?beyond,
    fun hb hk => ⟨_, step_writeOutbuf_next hp hb hk, wf_writeWord hwf hk _, ?_⟩⟩
  case busy => rw [step_writeOutbuf hp, hostWriteOutbuf, if_pos (c := (s.withPort rest).busy = true) hb]
  case beyond =>
    have hnot : ¬(s.withPort rest).busy = true := by simp [hb]
    rw [step_writeOutbuf hp, hostWriteOutbuf, if_neg hnot, if_neg (c := k < bufferWords) (Nat.not_lt.2 hk)]
  · simp only [bufferBit_outbufWord hwf hk]
    refine ⟨fun i hi => ?_, fun h => ?_, fun h => ?_⟩
    · rw [decide_eq_true hi, Bool.and_true]
    · rw [if_pos h.symm]
      exact Bool.and_false _
    · rw [if_neg (Ne.symm h)]

/-! ## The assembler line -/

/-- R113: the host writes that load a vector, one a step.  `words` is the number of words the vector fills from word `k`
on. -/
theorem runSteps_outbufWrites {rest : List HostItem} (words : Nat) : ∀ (k : Nat) (v : Bits) (s : State),
    s.port = outbufWrites k v words ++ rest → s.busy = false → words = (v.length + 31) / 32 →
    (0 < words → 32 * k + v.length ≤ 65535) →
      runSteps words s = .next { s with port := rest, outbuf := writeVectorFrom s.outbuf k v words } := by
  induction words with
  | zero =>
    intro k v s hp _ _ _
    simp only [outbufWrites, List.nil_append] at hp
    rw [runSteps, writeVectorFrom, ← hp]
  | succ words ih =>
    intro k v s hp hb hlen hfit
    have hk : k < bufferWords := by rw [bufferWords_eq]; omega
    have hstep := step_writeOutbuf_next hp hb hk
    rw [outbufWord_id k v (hfit (Nat.succ_pos words))] at hstep
    rw [runSteps, hstep]
    exact ih (k + 1) (v.drop 32) _ rfl hb (by rw [List.length_drop]; omega) (by rw [List.length_drop]; omega)

/-- Settles O29: the writes of the line store the vector as INBUF's are stored (O27). -/
theorem assemblerLineLoadsTheOperand : Obligations.AssemblerLineLoadsTheOperand := by
  intro s part v rest hp hb hwf hv
  rw [AsmLine.items, List.append_assoc] at hp
  obtain ⟨hwf', hread, hbits⟩ := storedVectorReadsBack s.outbuf v hwf hv
  exact ⟨writeVector s.outbuf v, runSteps_outbufWrites _ 0 v s hp hb rfl (by omega), hwf', hread, fun i => (hbits i).2⟩

end Sys2Proof.Machine
end

section
/-! O50 and O51: what the host reads (R46, R68).  Each register is told by its fields. -/

namespace Sys2Proof.Machine

theorem tapStateRegister_fields (s : State) :
    (tapStateRegister s).extractLsb' 0 4 = s.tap.code ∧ (tapStateRegister s).getLsbD 4 = s.tapKnown ∧
      (tapStateRegister s).extractLsb' 5 27 = 0#27 := by
  refine ⟨BitVec.extractLsb'_append_eq_right, ?_, ?_⟩
  · rw [tapStateRegister, append_high _ _ _ (by decide), append_low _ _ _ (by decide)]
    cases s.tapKnown <;> rfl
  · rw [tapStateRegister, BitVec.extractLsb'_append_eq_of_le (by decide), BitVec.extractLsb'_append_eq_left]

theorem statusRegister_fields (s : State) :
    (statusRegister s).getLsbD 0 = s.busy ∧ (statusRegister s).extractLsb' 1 3 = 0#3 ∧
      (statusRegister s).extractLsb' 4 4 = s.lastStatus ∧ (statusRegister s).extractLsb' 8 24 = 0#24 := by
  refine ⟨?_, ?_, ?_, ?_⟩
  · rw [statusRegister, append_low _ _ _ (by decide)]
    cases s.busy <;> rfl
  · rw [statusRegister, BitVec.extractLsb'_append_eq_of_le (by decide), BitVec.extractLsb'_append_eq_right]
  · rw [statusRegister, BitVec.extractLsb'_append_eq_of_le (by decide), BitVec.extractLsb'_append_eq_of_le (by decide),
      BitVec.extractLsb'_append_eq_right]
  · rw [statusRegister, BitVec.extractLsb'_append_eq_of_le (by decide), BitVec.extractLsb'_append_eq_of_le (by decide),
      BitVec.extractLsb'_append_eq_left]

theorem chainStatusRegister_fields (s : State) :
    (chainStatusRegister s).extractLsb' 0 2 = s.chainStatus.code ∧ (chainStatusRegister s).extractLsb' 2 2 = 0#2 ∧
      (chainStatusRegister s).extractLsb' 16 16 = 0#16 ∧
      (chainStatusRegister s).extractLsb' 4 12 = BitVec.ofNat 12 ((s.chain.map List.length).getD 1 - 1) := by
  refine ⟨BitVec.extractLsb'_append_eq_right, ?_, ?_, ?_⟩
  · rw [chainStatusRegister, BitVec.extractLsb'_append_eq_of_le (by decide), BitVec.extractLsb'_append_eq_right]
  · rw [chainStatusRegister, BitVec.extractLsb'_append_eq_of_le (by decide),
      BitVec.extractLsb'_append_eq_of_le (by decide), BitVec.extractLsb'_append_eq_left]
  · rw [chainStatusRegister, BitVec.extractLsb'_append_eq_of_le (by decide),
      BitVec.extractLsb'_append_eq_of_le (by decide), BitVec.extractLsb'_append_eq_right]
    cases s.chain <;> rfl

theorem totalIrLenRegister_fields (s : State) :
    (totalIrLenRegister s).getLsbD 31 = (s.chain.bind totalIrLength).isSome ∧
      (totalIrLenRegister s).extractLsb' 28 3 = 0#3 ∧
      (totalIrLenRegister s).extractLsb' 0 28 = BitVec.ofNat 28 ((s.chain.bind totalIrLength).getD 0) := by
  unfold totalIrLenRegister
  cases s.chain.bind totalIrLength with
  | none => exact ⟨rfl, rfl, rfl⟩
  | some n =>
    refine ⟨?_, ?_, BitVec.extractLsb'_append_eq_right⟩
    · simp only [append_high (1#1 ++ 0#3) (BitVec.ofNat 28 n) 31 (by decide)]
      rfl
    · simp only [BitVec.extractLsb'_append_eq_of_le (xhi := 1#1 ++ 0#3) (xlo := BitVec.ofNat 28 n) (start := 28)
        (len := 3) (by decide)]
      rfl

theorem inLenRegister_fields (s : State) :
    (inLenRegister s).extractLsb' 0 16 = s.inLen ∧ (inLenRegister s).extractLsb' 16 16 = 0#16 :=
  ⟨BitVec.extractLsb'_append_eq_right, BitVec.extractLsb'_append_eq_left⟩

/-- Settles O50: the fields of the five registers; at power-on three are evaluated; a write takes the item alone. -/
theorem statusRegistersShowTheState : Obligations.StatusRegistersShowTheState := by
  refine ⟨fun s => ?_, fun c e => ⟨?tap, ?status, ?inLen⟩, fun s reg v rest hp => ?_⟩
  case tap => exact congrArg some (by decide : 0#27 ++ BitVec.ofBool true ++ TapState.reset.code = 0x10#32)
  case status => exact congrArg some (by decide : 0#24 ++ 0#4 ++ 0#3 ++ BitVec.ofBool false = 0#32)
  case inLen => exact congrArg some (by decide : 0#16 ++ 0#16 = 0#32)
  · obtain ⟨a1, a2, a3⟩ := tapStateRegister_fields s
    obtain ⟨b1, b2, b3, b4⟩ := statusRegister_fields s
    obtain ⟨c1, c2, c3, c4⟩ := chainStatusRegister_fields s
    obtain ⟨d1, d2, d3⟩ := totalIrLenRegister_fields s
    obtain ⟨e1, e2⟩ := inLenRegister_fields s
    exact ⟨_, _, _, _, _, rfl, a1, a2, a3, b1, b2, b3, b4, c1, c2, c3, c4, d1, d2, d3, e1, e2⟩
  · simp only [step, hp]
    rfl

/-- Settles O51: the table port indexes the chain, and the buffer port reads a word of INBUF. -/
theorem hostReadsTableAndInbuf : Obligations.HostReadsTableAndInbuf := by
  refine ⟨fun s ps p hc => ?_, fun s p hc => ?_,
    fun s k hb hk => ⟨_, if_pos ⟨hb, hk⟩, fun j => readWord_getLsbD s.inbuf k j⟩⟩
  · rw [readTable, hc]; rfl
  · rw [readTable, hc]; rfl

end Sys2Proof.Machine
end

section
/-! O32: `Partition` answers the fragments that tile the stream (R204).  The law of the scan goes from a tiling to the
answer; here is the way back, by the scan's own recursion over the stream. -/

namespace Sys2Proof.Machine

/-- Fragments tile a stream from position `pos` on (R204). -/
def tilesFrom (ids : List KnownId) (s : Bits) (pos : Nat) (frags : List Fragment) : Prop :=
  ∀ (i : Nat) (f : Fragment), frags[i]? = some f → f.pos = pos + tiledLen ids (frags.take i) ∧ f.cutFrom ids s

theorem tiles_iff_tilesFrom (ids : List KnownId) (s : Bits) (frags : List Fragment) :
    tiles ids s frags ↔ tilesFrom ids s 0 frags := by
  simp only [tiles, tilesFrom, Nat.zero_add]

theorem tiledLen_cons (ids : List KnownId) (f : Fragment) (fs : List Fragment) :
    tiledLen ids (f :: fs) = f.len ids + tiledLen ids fs := rfl

theorem tilesFrom_nil (ids : List KnownId) (s : Bits) (pos : Nat) : tilesFrom ids s pos [] := nofun

theorem tilesFrom_cons {ids : List KnownId} {s : Bits} {pos : Nat} {f : Fragment} {fs : List Fragment}
    (hpos : f.pos = pos) (hcut : f.cutFrom ids s) (hfs : tilesFrom ids s (pos + f.len ids) fs) :
    tilesFrom ids s pos (f :: fs) := by
  intro i g hg
  cases i with
  | zero => cases hg; exact ⟨hpos, hcut⟩
  | succ i =>
    obtain ⟨hgpos, hgcut⟩ := hfs i g hg
    exact ⟨by rw [hgpos, List.take_succ_cons, tiledLen_cons, Nat.add_assoc], hgcut⟩

/-- What `partitionFrom` has cut: fragments that tile the stream from where it stands, and no 1 after them. -/
theorem tilesFrom_of_partitionFrom {ids : List KnownId} (hwf : knownIdsWf ids = true) {s rest : Bits} {pos skip : Nat}
    {frags : List Fragment} (hd : s.drop pos = rest) (hp : partitionFrom ids pos skip rest = some frags) :
    tilesFrom ids s (pos + skip) frags ∧ hasOne (s.drop (pos + skip + tiledLen ids frags)) = false := by
  induction rest generalizing pos skip frags with
  | nil =>
    cases hp
    refine ⟨tilesFrom_nil _ _ _, ?_⟩
    rw [Nat.add_assoc, ← List.drop_drop, hd, List.drop_nil]
    rfl
  | cons b rest ih =>
    have hd' : s.drop (pos + 1) = rest := by rw [← List.drop_drop, hd]; rfl
    cases skip with
    | succ k =>
      have hpos : pos + (k + 1) = pos + 1 + k := by omega
      rw [hpos]
      exact ih hd' hp
    | zero =>
      rw [Nat.add_zero]
      rw [partitionFrom] at hp
      split at hp
      · next hone =>
        split at hp
        · next hb =>
          subst hb
          split at hp
          · cases hp
          · next f len hf =>
            obtain ⟨fs, hfs, rfl⟩ := Option.map_eq_some_iff.1 hp
            obtain ⟨hfpos, hflen, hcut, hlen⟩ := marker_cut hwf hd hf
            obtain ⟨htiles, hrest⟩ := ih hd' hfs
            have hnext : pos + 1 + (len - 1) = pos + f.len ids := by omega
            rw [hnext] at htiles hrest
            exact ⟨tilesFrom_cons hfpos hcut htiles, by rwa [tiledLen_cons, ← Nat.add_assoc]⟩
        · next hb =>
          obtain ⟨fs, hfs, rfl⟩ := Option.map_eq_some_iff.1 hp
          obtain ⟨htiles, hrest⟩ := ih hd' hfs
          have hbit : s[pos]? = some false := by
            rw [← Bool.eq_false_iff.2 hb, ← List.head?_drop, hd]
            rfl
          have hcut : (Fragment.bypass pos).cutFrom ids s := ⟨hbit, by rwa [hd]⟩
          exact ⟨tilesFrom_cons rfl hcut htiles, by rwa [tiledLen_cons, ← Nat.add_assoc]⟩
      · next hone =>
        cases hp
        refine ⟨tilesFrom_nil _ _ _, ?_⟩
        rw [tiledLen, List.map_nil, List.sum_nil, Nat.add_zero, hd]
        exact Bool.eq_false_iff.2 hone

theorem knownIdsWf_len {ids : List KnownId} (hwf : knownIdsWf ids = true) : ∀ e ∈ ids, 1 ≤ e.len := by
  intro e he
  obtain ⟨k, hk⟩ := List.getElem?_of_mem he
  exact KnownId.wf_len (knownIdsWf_get hwf hk)

/-- Where fragments tile a stream up to a rest without a 1, the scan cuts them. -/
theorem partitionFrom_of_tiles {ids : List KnownId} (hwf : knownIdsWf ids = true) {s : Bits} {frags : List Fragment}
    (ht : tiles ids s frags) (hrest : hasOne (s.drop (tiledLen ids frags)) = false) :
    partitionFrom ids 0 0 s = some frags := by
  obtain ⟨gs, hgs, hsame⟩ :=
    partitionFrom_tiles (knownIdsWf_len hwf) frags 0 ((tiles_iff_tilesFrom ids s frags).1 ht)
  rw [Nat.zero_add, partitionFrom_noOne hrest, hsame hwf] at hgs
  simpa using hgs

/-- `Partition` answers what the scan cuts, if that is at least one fragment and not too many (R204). -/
theorem partition_of_partitionFrom {ids : List KnownId} {s : Bits} {frags : List Fragment}
    (hp : partitionFrom ids 0 0 s = some frags) (h1 : 1 ≤ frags.length) (hmax : frags.length ≤ maxParts) :
    partition ids s = .ok frags := by
  have hone : hasOne s = true := by
    cases h : hasOne s with
    | true => rfl
    | false =>
      cases hp.symm.trans (partitionFrom_noOne h)
      cases h1
  rw [partition, if_pos hone, hp]
  exact if_neg (Nat.not_lt.2 hmax)

/-- Settles O32: the scan and the tiling say the same. -/
theorem partitionTilesTheStream : Obligations.PartitionTilesTheStream := by
  intro ids s frags hwf
  constructor
  · intro hp
    rcases partition_cases ids s with ⟨-, hq⟩ | ⟨-, hq⟩ | ⟨fs, hone, hfs, hmax, hq⟩ <;> cases hp.symm.trans hq
    obtain ⟨htiles, hrest⟩ := tilesFrom_of_partitionFrom hwf List.drop_zero hfs
    rw [Nat.add_zero, Nat.zero_add] at hrest
    have hne := partitionFrom_ne_nil hone hfs
    exact ⟨List.length_pos_iff.2 hne, hmax, (tiles_iff_tilesFrom ids s frags).2 htiles, hrest⟩
  · rintro ⟨h1, hmax, htiles, hrest⟩
    exact partition_of_partitionFrom (partitionFrom_of_tiles hwf htiles hrest) h1 hmax

end Sys2Proof.Machine
end

section
/-! O33, O35, O36 and O37: fragments and the parts they become (R206, R207), determinism and ambiguity (R213). -/

namespace Sys2Proof.Machine

/-- Settles O33: the entry of the table is the one the fragment names. -/
theorem fragmentsBecomePartEntries : Obligations.FragmentsBecomePartEntries := by
  refine ⟨fun ids k pos v e hk => ?_, fun _ _ _ => rfl, fun _ _ => rfl⟩
  have he : ids.getD k default = e := by rw [List.getD_eq_getElem?_getD, hk]; rfl
  rw [fragmentPart, he]
  rfl

/-- Settles O37: the chain is the list of fragments turned round. -/
theorem firstFragmentIsTheHighestPart : Obligations.FirstFragmentIsTheHighestPart := by
  intro ids frags i f hi
  obtain ⟨hlt, -⟩ := List.getElem?_eq_some_iff.1 hi
  refine ⟨by simp [fragmentChain], ?_⟩
  have hj : frags.length - 1 - (frags.length - 1 - i) = i := by omega
  rw [fragmentChain, List.getElem?_reverse (by rw [List.length_map]; omega), List.length_map, hj, List.getElem?_map, hi]
  rfl

/-! ## Determinism -/

theorem KnownId.wf_odd {e : KnownId} (h : KnownId.wf e = true) : e.value % 2 = 1 ∧ e.mask % 2 = 1 := by
  simp only [KnownId.wf, Bool.and_eq_true, beq_iff_eq] at h
  exact ⟨h.1.1.1.1.2, h.1.1.1.2⟩

/-- A code of 32 bits that matches an entry of a well-formed table of 32-bit families is cut as a fragment of that entry
(R204). -/
theorem partitionFrom_code {ids : List KnownId} (hwf : knownIdsWf ids = true) (hlens : ∀ f ∈ ids, f.len = 32) {k : Nat}
    {e : KnownId} (hk : ids[k]? = some e) {code : Nat} (hcode : code < 2 ^ 32)
    (hmatch : code &&& e.mask = e.value &&& e.mask) (pos : Nat) (rest : Bits) :
    partitionFrom ids pos 0 (bitsOfNat 32 code ++ rest) =
      (partitionFrom ids (pos + 32) 0 rest).map (fun fs => .known k pos code :: fs) := by
  have hlen : e.len = 32 := hlens e (List.mem_of_getElem? hk)
  obtain ⟨hvalue, hmask⟩ := KnownId.wf_odd (knownIdsWf_get hwf hk)
  have hm : e.matches (bitsOfNat 32 code ++ rest) = true := (matches_32 hlen hcode).2 hmatch
  obtain ⟨k', e', hread, hlen', hsame⟩ := readMarker_one hk hm fun f hf _ => (hlens f hf).trans hlen.symm
  cases hsame hwf
  exact partitionFrom_marker hread (hlen'.trans hlen) (mask_odd hmatch hvalue hmask) hcode

/-- A 0 with a 1 somewhere after it is a part that is bypassed (R204). -/
theorem partitionFrom_zero {ids : List KnownId} {rest : Bits} (h : hasOne rest = true) (pos : Nat) :
    partitionFrom ids pos 0 (false :: rest) =
      (partitionFrom ids (pos + 1) 0 rest).map (fun fs => .bypass pos :: fs) := by
  rw [partitionFrom, if_pos (by simpa using h), if_neg Bool.false_ne_true]

theorem hasOne_bitsOfNat_odd {n k : Nat} (h : k % 2 = 1) : hasOne (bitsOfNat (n + 1) k) = true := by
  rw [bitsOfNat_odd h, hasOne_cons, Bool.true_or]

/-- Settles O35: the 0, then the two codes, then nothing more. -/
theorem threePartStreamIsPartitioned : Obligations.ThreePartStreamIsPartitioned := by
  intro a b idA idB k hwf ha hb hidA hidB hmA hmB
  have hlens : ∀ f ∈ [a, b], f.len = 32 := by simp [ha, hb]
  obtain ⟨hvalue, hmask⟩ := KnownId.wf_odd (knownIdsWf_get (k := 1) hwf rfl)
  have hone : hasOne (bitsOfNat 32 idB ++ (bitsOfNat 32 idA ++ constBits false k)) = true := by
    rw [hasOne_append, hasOne_bitsOfNat_odd (mask_odd hmB hvalue hmask), Bool.true_or]
  have hscan : partitionFrom [a, b] 0 0 (false :: (bitsOfNat 32 idB ++ (bitsOfNat 32 idA ++ constBits false k))) =
      some [.bypass 0, .known 1 1 idB, .known 0 33 idA] := by
    rw [partitionFrom_zero hone, partitionFrom_code (k := 1) hwf hlens rfl hidB hmB,
      partitionFrom_code (k := 0) hwf hlens rfl hidA hmA, partitionFrom_zeros]
    rfl
  refine ⟨_, ?_, rfl, rfl, ?_⟩
  · rw [List.cons_append, List.cons_append, List.append_assoc]
    exact partition_of_partitionFrom hscan (Nat.le_add_left 1 2) (Nat.le_add_left 3 4093)
  · simp [fragmentChain, fragmentPart, knownPart, bareDescriptor, ha, hb]

/-! ## Ambiguity -/

/-- R204: the scan fails at a marker where two lengths match. -/
theorem partitionFrom_ambiguous {ids : List KnownId} {e f : KnownId} {rest : Bits} (he : e ∈ ids) (hf : f ∈ ids)
    (hlen : e.len ≠ f.len) (hhead : rest.head? = some true) (hme : KnownId.matches e rest = true)
    (hmf : KnownId.matches f rest = true) (pos : Nat) : partitionFrom ids pos 0 rest = none := by
  have hread := readMarker_two he hf hlen hme hmf
  obtain ⟨tail, rfl⟩ := List.head?_eq_some_iff.1 hhead
  have hfield : markerField ids pos (true :: tail) = none := by rw [markerField, hread]
  rw [partitionFrom, hasOne_cons, Bool.true_or, if_pos rfl, if_pos rfl, hfield]

/-- A scan that fails fails after any zeros before it. -/
theorem partitionFrom_zeros_append {ids : List KnownId} {rest : Bits} (hone : hasOne rest = true)
    (hnone : ∀ pos, partitionFrom ids pos 0 rest = none) (n pos : Nat) :
    partitionFrom ids pos 0 (constBits false n ++ rest) = none := by
  induction n generalizing pos with
  | zero => exact hnone pos
  | succ n ih =>
    have hrest : hasOne (constBits false n ++ rest) = true := by rw [hasOne_append, hone, Bool.or_true]
    rw [show constBits false (n + 1) ++ rest = false :: (constBits false n ++ rest) from rfl,
      partitionFrom_zero hrest, ih]
    rfl

theorem partition_of_scan_fails {ids : List KnownId} {s : Bits} (hone : hasOne s = true)
    (hnone : partitionFrom ids 0 0 s = none) : partition ids s = .error .ambiguousChainTopology := by
  rw [partition, if_pos hone, hnone]

/-- Settles O36: the scan comes to the marker over the zeros or over the tiling, and fails there. -/
theorem twoMatchingLengthsAreAmbiguous : Obligations.TwoMatchingLengthsAreAmbiguous := by
  intro ids e f rest he hf hlen hhead hme hmf
  have hone : hasOne rest = true := by
    obtain ⟨tail, rfl⟩ := List.head?_eq_some_iff.1 hhead
    rw [hasOne_cons, Bool.true_or]
  have hnone := partitionFrom_ambiguous he hf hlen hhead hme hmf
  refine ⟨fun n => partition_of_scan_fails ?_ (partitionFrom_zeros_append hone hnone n 0),
    fun hlens before frags ht hend => partition_of_scan_fails ?_ ?_⟩
  · rw [hasOne_append, hone, Bool.or_true]
  · rw [hasOne_append, hone, Bool.or_true]
  · obtain ⟨gs, hgs, -⟩ := partitionFrom_tiles hlens frags 0 ((tiles_iff_tilesFrom ids (before ++ rest) frags).1 ht)
    rw [Nat.zero_add, hend, List.drop_left, hnone] at hgs
    exact hgs

end Sys2Proof.Machine
end

section
/-! O39 and O40: the vectors of the data commands hold each part's field in its window (R71 to R73). -/

namespace Sys2Proof.Machine

theorem irWindow_eq (ps : List Part) (q : Nat) : ((ps.drop (q + 1)).map irWidth).sum = windowLo (irWidths ps) q := by
  rw [windowLo, irWidths, List.map_drop]

/-- Settles O39: each window holds its part's field, and that of a resolvable instruction is an opcode that fits. -/
theorem irVectorPlacesEveryOpcode : Obligations.IrVectorPlacesEveryOpcode := by
  intro ps t name hwf hr
  have hknown := irResolvable_known hr
  refine ⟨by rw [totalIrLength_eq hknown, buildIR_length], by rw [buildIR_length]; exact irWidths_sum_pos hwf hknown,
    fun q p hq => ?_⟩
  obtain ⟨l, op, n, hl, hwidth, hfield, hop, hn⟩ := irField_cases hwf hr hq
  refine ⟨l, op, hl, opcode_fits (chainWf_part hwf hq) hl hop, ?_, ?_⟩
  · by_cases hqt : q = t
    · rw [if_pos hqt] at hn ⊢
      rwa [← hn]
    · rw [if_neg hqt] at hn ⊢
      exact ⟨n, hn, hop⟩
  · rw [irWindow_eq, ← hfield, ← hwidth]
    exact buildIR_window ps t name hq

/-- Settles O40: the window of the target holds the operand, any other its padding. -/
theorem drVectorPlacesTheOperand : Obligations.DrVectorPlacesTheOperand := by
  intro ps t p out hp
  refine ⟨buildDR_length ps t out, ?_, fun q r hq hqt => ?_⟩
  · simpa [activeWidth, drField] using buildDR_window ps t out hp
  · simpa [activeWidth, drField, hqt, padBit] using buildDR_window ps t out hq

end Sys2Proof.Machine
end

section
/-! O57: the reference environment at its start (R83). -/

namespace Sys2Proof.Machine

/-- R83: every field of the descriptor is known (log 8). -/
theorem synthDescribed_iff (d : Descriptor) :
    synthDescribed d = true ↔ d.irLength ≠ none ∧ d.bypassInstruction ≠ none ∧ d.defaultInstruction ≠ none ∧
      (d.idcode ≠ none ∨ d.idcodeLength = 0) ∧ ∀ b ∈ d.instructions, b.drWidth ≠ none := by
  simp only [synthDescribed, Descriptor.full, Bool.and_eq_true, Bool.or_eq_true, List.all_eq_true, beq_iff_eq,
    Option.isSome_iff_ne_none, and_assoc]

theorem synthChain_ne_none_iff (descs : List (Descriptor × Option NameId)) :
    synthChain descs ≠ none ↔ ∀ d ∈ descs, synthDescribed d.1 = true := by
  rw [← List.all_eq_true, synthChain]
  cases descs.all (fun d => synthDescribed d.1) <;> simp

theorem synthChain_eq_some {descs : List (Descriptor × Option NameId)} {c : SynthChain}
    (h : synthChain descs = some c) : (∀ d ∈ descs, synthDescribed d.1 = true) ∧
      c = { tau := .reset, parts := descs.map (fun d => synthPart d.1 d.2) } := by
  refine ⟨(synthChain_ne_none_iff descs).1 (by simp [h]), ?_⟩
  unfold synthChain at h
  split at h
  · cases h; rfl
  · cases h

/-- R83: a register of a part at the start holds all zeros of its declared width. -/
theorem synthStored_synthPart {d : Descriptor} {name : NameId} {b : Binding} {w : Nat} (hb : lookupName d name = some b)
    (hw : b.drWidth = some w) (idcode : Option NameId) : synthStored (synthPart d idcode) name = constBits false w := by
  have hwidth : synthWidth (synthPart d idcode) name = w := by simp [synthWidth, synthPart, hb, hw]
  rw [← hwidth]
  rfl

/-- Settles O57: the chain is made of the start of each part. -/
theorem synthChainStartsInReset : Obligations.SynthChainStartsInReset := by
  intro descs
  constructor
  · rw [synthChain_ne_none_iff]
    exact forall₂_congr fun d _ => (synthDescribed_iff d.1).symm
  · intro c hc
    obtain ⟨hdescribed, rfl⟩ := synthChain_eq_some hc
    refine ⟨rfl, List.length_map _, fun q d hq => ⟨synthPart d.1 d.2, by rw [List.getElem?_map, hq]; rfl, rfl, rfl, ?_,
      rfl, fun name b w hb hw => synthStored_synthPart hb hw d.2⟩⟩
    obtain ⟨hl, -⟩ := (synthDescribed_iff d.1).1 (hdescribed d (List.mem_of_getElem? hq))
    obtain ⟨l, hl⟩ := Option.ne_none_iff_exists'.1 hl
    simp [synthPart, hl]

end Sys2Proof.Machine
end

section
/-! O54: the IR round trip (R179).  A SET_INSTRUCTION that answers OK has run its scan; over a chain the table
describes, the devices are then the ones that have taken one field each (`irScanned`). -/

namespace Sys2Proof.Machine

/-- What a SET_INSTRUCTION that answers OK has done (R172). -/
structure SetRan (t : Nat) (name : NameId) (s u : State) (ps : List Part) (bs : Bits) (e : Env) : Prop where
  target : t < ps.length
  resolvable : irResolvable ps t name = true
  tap : s.tap = .idle
  pulses : s.exchange (irScanPlan (buildIR ps t name)) = .all bs e
  result : u = ((s.accept.delivered (irScanPlan (buildIR ps t name)) bs e).setRecord ps t name).respond .ok 0

theorem setInstruction_ok {t : Nat} {name : NameId} {s u : State} {ps : List Part} (hc : s.chain = some ps)
    (hwf : chainWf ps = true) (hx : exec (.setInstruction t name) s = .next u) (hs : u.lastStatus = 0#4) :
    ∃ bs e, SetRan t name s u ps bs e := by
  obtain ⟨len, v, hb, rfl⟩ := exec_ok rfl hx hs
  have hend := bodyOf_end (i := .setInstruction t name) rfl s.accept
  rw [hb] at hend
  cases hend with
  | setInstruction _ _ ps' p bs e hc' hp _ ht hr hpulses =>
    cases hc.symm.trans hc'
    have hv := buildIR_ne_nil (t := t) (name := name) hwf (irResolvable_known hr)
    rw [irPulses_eq_plan hv] at hpulses ⊢
    exact ⟨bs, e, (List.getElem?_eq_some_iff.1 hp).1, hr, ht, hpulses, rfl⟩

/-- R152: it ends in Idle. -/
theorem SetRan.idle {t : Nat} {name : NameId} {s u : State} {ps : List Part} {bs : Bits} {e : Env}
    (h : SetRan t name s u ps bs e) (hwf : chainWf ps = true) : u.tap = .idle := by
  have hv := buildIR_ne_nil (t := t) (name := name) hwf (irResolvable_known h.resolvable)
  rw [h.result]
  exact (congrArg (advanceAll · _) h.tap).trans (irScanPlan_tap hv)

/-! ## The devices -/

/-- The fields of the IR vector by part (R72). -/
def irFieldList (ps : List Part) (t : Nat) (name : NameId) : List Bits :=
  ps.zipIdx.map (fun e => irField t name e.2 e.1)

theorem irFieldList_get {ps : List Part} {q : Nat} {p : Part} (hp : ps[q]? = some p) (t : Nat) (name : NameId) :
    (irFieldList ps t name)[q]? = some (irField t name q p) := by
  simp [irFieldList, hp]

theorem buildIR_eq_pathOf (ps : List Part) (t : Nat) (name : NameId) :
    buildIR ps t name = pathOf (irFieldList ps t name) := rfl

/-- A synthetic chain after an IR scan: each part has its field in its cells and has latched it (R84). -/
def irScanned (ps : List Part) (t : Nat) (name : NameId) (c : SynthChain) : SynthChain :=
  { tau := .idle
    parts := List.zipWith (fun d f => synthUpdateIR { d with irCells := f }) c.parts (irFieldList ps t name) }

theorem describes_length {ps : List Part} {c : SynthChain} (hd : describes ps c) : ps.length = c.parts.length :=
  hd.length_eq

theorem irFieldList_length (ps : List Part) (t : Nat) (name : NameId) : (irFieldList ps t name).length = ps.length := by
  simp [irFieldList]

/-- R275: the fields of the vector are as long as the devices' instruction registers. -/
theorem irFieldList_lengths {ps : List Part} {c : SynthChain} (hd : describes ps c) (t : Nat) (name : NameId) :
    (irFieldList ps t name).map List.length = c.parts.map (fun d => d.desc.irLength.getD 0) := by
  have hlen := describes_length hd
  rw [irFieldList, buildIR_fields_length]
  refine List.ext_getElem (by simpa [irWidths] using hlen) fun q hq hq' => ?_
  simp only [irWidths, List.length_map] at hq hq'
  simp only [irWidths, List.getElem_map, irWidth]
  rw [describes_irLength hd q _ _ (List.getElem?_eq_getElem hq) (List.getElem?_eq_getElem hq')]

/-- The scan of a SET_INSTRUCTION, over a chain that the table describes (R84, R172). -/
theorem SetRan.devices {t : Nat} {name : NameId} {s u : State} {ps : List Part} {bs : Bits} {e : Env} {c : SynthChain}
    {k : List Nat} (h : SetRan t name s u ps bs e) (hwf : chainWf ps = true) (henv : s.env = .synth c k)
    (htau : c.tau = s.tap) (hd : describes ps c) : u.env = .synth (irScanned ps t name c) k := by
  have hv := buildIR_ne_nil (t := t) (name := name) hwf (irResolvable_known h.resolvable)
  have hpulses : exchange (irScanPlan (buildIR ps t name)) s.pulseNo (.synth c k) = .all bs e := henv ▸ h.pulses
  obtain ⟨-, rfl⟩ := exchange_synth hpulses
  rw [h.result]
  exact congrArg (Env.synth · k) (synthRun_irScan c (htau.trans h.tap) _ (irFieldList_lengths hd t name) hv)

theorem irScanned_get {ps : List Part} {c : SynthChain} {q : Nat} {p : Part} {d : SynthPart} (hp : ps[q]? = some p)
    (hdq : c.parts[q]? = some d) (t : Nat) (name : NameId) :
    (irScanned ps t name c).parts[q]? = some (synthUpdateIR { d with irCells := irField t name q p }) := by
  simp only [irScanned, List.getElem?_zipWith, hdq, irFieldList_get hp]

theorem irScanned_descs {ps : List Part} {c : SynthChain} (hd : describes ps c) (t : Nat) (name : NameId) :
    (irScanned ps t name c).parts.map SynthPart.desc = c.parts.map SynthPart.desc :=
  synthRun_irScan_descs (by rw [irFieldList_length, describes_length hd])

/-- R179: the cells in stream order are the vector. -/
theorem irFields_irScanned {ps : List Part} {c : SynthChain} (hd : describes ps c) (t : Nat) (name : NameId) :
    irFields (irScanned ps t name c) = irFieldList ps t name := by
  have hlen := describes_length hd
  rw [irFields, irScanned, List.map_zipWith]
  refine List.ext_getElem (by simp [irFieldList_length, hlen]) fun q hq hq' => ?_
  rw [List.getElem_zipWith]
  rfl

theorem describes_get {ps : List Part} {c : SynthChain} (hd : describes ps c) {q : Nat} {p : Part}
    (hp : ps[q]? = some p) : ∃ d, c.parts[q]? = some d ∧ describesPart p d := by
  obtain ⟨hq, rfl⟩ := List.getElem?_eq_some_iff.1 hp
  have hq' : q < c.parts.length := describes_length hd ▸ hq
  exact ⟨_, List.getElem?_eq_getElem hq', hd.get hq hq'⟩

/-- R84, R179: each device has latched the instruction whose opcode it got, the target the name and every other its
bypass instruction. -/
theorem irScanned_latch {ps : List Part} {c : SynthChain} {t : Nat} {name : NameId} (hwf : chainWf ps = true)
    (hr : irResolvable ps t name = true) (hd : describes ps c) (ha : ∀ d ∈ c.parts, opcodesApart d.desc = true)
    {q : Nat} {p : Part} (hp : ps[q]? = some p) (k : List Nat) :
    (Env.synth (irScanned ps t name c) k).physIr q = if q = t then some name else p.desc.bypassInstruction := by
  obtain ⟨d, hdq, hdesc⟩ := describes_get hd hp
  obtain ⟨l, op, n, hl, -, hfield, hop, hn⟩ := irField_cases hwf hr hp
  have hlatch := latched (chainWf_part hwf hp) hdesc (ha d (List.mem_of_getElem? hdq)) hl hop
  rw [← hfield] at hlatch
  simp only [Env.physIr, irScanned_get hp hdq, Option.bind_some, hlatch]
  by_cases hqt : q = t
  · rw [if_pos hqt] at hn ⊢
    rw [hn]
  · rw [if_neg hqt] at hn ⊢
    rw [hn]

/-- Settles O54: the devices after the scan, part by part. -/
theorem irRoundTrip : Obligations.IrRoundTrip := by
  intro s u ps t name c k hc hwf ht henv htau hd ha hx hs
  obtain ⟨bs, e, hran⟩ := setInstruction_ok hc hwf hx hs
  have henv' := hran.devices hwf henv htau hd
  have hlatch := fun q p => irScanned_latch (q := q) (p := p) hwf hran.resolvable hd ha
  refine ⟨irScanned ps t name c, henv', rfl, by rw [irFields_irScanned hd, buildIR_eq_pathOf], ?_, ?_, ?_⟩
  · intro q p d hp hdq
    obtain ⟨d0, hd0, -⟩ := describes_get hd hp
    cases hdq.symm.trans (irScanned_get hp hd0 t name)
    exact (buildIR_window ps t name hp).symm
  · rw [henv', hlatch t ps[t] (List.getElem?_eq_getElem ht), if_pos rfl]
  · intro q p hp hqt
    rw [henv', hlatch q p hp, if_neg hqt]

end Sys2Proof.Machine
end

section
/-! O56: SELECT_ONLY (R114, R271).  Each of its commands has answered OK, so each has written its record; the last one
also says what every device has latched. -/

namespace Sys2Proof.Machine

/-! ## A sequence of SET_INSTRUCTIONs -/

/-- A sequence that ends with `OK` has run its first command with `OK` (R114). -/
theorem runWhileOk_cons_ok {i : Instr} {is : List Instr} {s u : State} (hx : runWhileOk (i :: is) s = .next u)
    (hs : u.lastStatus = 0#4) : ∃ v, exec i s = .next v ∧ v.lastStatus = 0#4 ∧ runWhileOk is v = .next u := by
  unfold runWhileOk at hx
  split at hx
  · next v hv =>
    split at hx
    · next hok => exact ⟨v, hv, hok, hx⟩
    · next hok => cases hx; exact absurd hs hok
  · cases hx
  · cases hx

/-- The records of the listed parts, each set to the name that `g` gives it, in order (R172). -/
def setRecords (g : Nat → NameId) : List Nat → List Part → List Part
  | [], ps => ps
  | q :: l, ps => setRecords g l (setRecord ps q (g q))

theorem setRecords_get (g : Nat → NameId) (l : List Nat) (ps : List Part) (r : Nat) :
    (setRecords g l ps)[r]? = (ps[r]?).map (fun p => if r ∈ l then { p with current := some (g r) } else p) := by
  induction l generalizing ps with
  | nil => simp [setRecords]
  | cons q l ih =>
    rw [setRecords, ih, setRecord_get, Option.map_map]
    congr 1
    funext p
    by_cases hl : r ∈ l <;> by_cases hq : r = q <;> simp [hl, hq]

theorem setRecords_get_desc {ps : List Part} {r : Nat} {p : Part} (hp : ps[r]? = some p) (g : Nat → NameId)
    (l : List Nat) : ∃ p', (setRecords g l ps)[r]? = some p' ∧ p'.desc = p.desc := by
  rw [setRecords_get, hp]
  refine ⟨_, rfl, ?_⟩
  split <;> rfl

/-- A block in step with devices that its table describes truly (R45, R275). -/
structure InStep (s : State) (ps : List Part) (c : SynthChain) (k : List Nat) : Prop where
  env : s.env = .synth c k
  tau : c.tau = s.tap
  described : describes ps c
  apart : ∀ d ∈ c.parts, opcodesApart d.desc = true

/-- A SET_INSTRUCTION that answers OK keeps the block in step. -/
theorem SetRan.inStep {t : Nat} {name : NameId} {s u : State} {ps : List Part} {bs : Bits} {e : Env} {c : SynthChain}
    {k : List Nat} (h : SetRan t name s u ps bs e) (hwf : chainWf ps = true) (hin : InStep s ps c k) :
    InStep u (setRecord ps t name) (irScanned ps t name c) k where
  env := h.devices hwf hin.env hin.tau hin.described
  tau := (h.idle hwf).symm
  described := describes_desc hin.described (setRecord_descs ps t name) (irScanned_descs hin.described t name)
  apart := opcodesApart_desc hin.apart (irScanned_descs hin.described t name)

theorem SetRan.chain {t : Nat} {name : NameId} {s u : State} {ps : List Part} {bs : Bits} {e : Env}
    (h : SetRan t name s u ps bs e) : u.chain = some (setRecord ps t name) := by
  rw [h.result]; rfl

theorem SetRan.chainWf {t : Nat} {name : NameId} {s u : State} {ps : List Part} {bs : Bits} {e : Env}
    (h : SetRan t name s u ps bs e) (hwf : chainWf ps = true) : chainWf (setRecord ps t name) = true := by
  obtain ⟨⟨p, hp, hkey⟩, -, -⟩ := (irResolvable_iff ps t name).1 h.resolvable
  exact setRecord_chainWf hwf hp (by simpa [resolve, isKey] using hkey)

/-- What a sequence of SET_INSTRUCTIONs that ends with `OK` has done before its last command. -/
theorem runWhileOk_setInstructions {g : Nat → NameId} {t : Nat} {name : NameId} {u : State} (hs : u.lastStatus = 0#4)
    (l : List Nat) {s : State} {ps : List Part} (hc : s.chain = some ps) (hwf : chainWf ps = true)
    (hx : runWhileOk (l.map (fun q => .setInstruction q (g q)) ++ [.setInstruction t name]) s = .next u) :
    ∃ v bs e, SetRan t name v u (setRecords g l ps) bs e ∧ chainWf (setRecords g l ps) = true ∧
      ∀ c k, InStep s ps c k → ∃ c', InStep v (setRecords g l ps) c' k := by
  induction l generalizing s ps with
  | nil =>
    obtain ⟨v, hv, hok, hrest⟩ := runWhileOk_cons_ok hx hs
    cases hrest
    obtain ⟨bs, e, hran⟩ := setInstruction_ok hc hwf hv hok
    exact ⟨s, bs, e, hran, hwf, fun c k hin => ⟨c, hin⟩⟩
  | cons q l ih =>
    obtain ⟨v, hv, hok, hrest⟩ := runWhileOk_cons_ok hx hs
    obtain ⟨bs, e, hran⟩ := setInstruction_ok hc hwf hv hok
    obtain ⟨w, bs', e', hlast, hwf', hin'⟩ := ih hran.chain (hran.chainWf hwf) hrest
    exact ⟨w, bs', e', hlast, hwf', fun c k hin => hin' _ k (hran.inStep hwf hin)⟩

/-! ## SELECT_ONLY -/

/-- The name SELECT_ONLY offers for a part that is not the target (R114; log 18). -/
def bypassName (ps : List Part) (q : Nat) : NameId := ((ps[q]?).bind (fun p => p.desc.bypassInstruction)).getD 0

/-- The parts that are not the target, in increasing order of index (R114). -/
def otherParts (ps : List Part) (t : Nat) : List Nat := (ps.zipIdx.filter (fun e => e.2 != t)).map Prod.snd

theorem mem_otherParts {ps : List Part} {t q : Nat} (hq : q < ps.length) : q ∈ otherParts ps t ↔ q ≠ t := by
  simp only [otherParts, List.mem_map, List.mem_filter, Prod.exists, List.mem_zipIdx_iff_getElem?, bne_iff_ne]
  constructor
  · rintro ⟨p, i, ⟨-, hne⟩, rfl⟩
    exact hne
  · intro hne
    exact ⟨ps[q], q, ⟨List.getElem?_eq_getElem hq, hne⟩, rfl⟩

theorem bypassOthers_eq (ps : List Part) (t : Nat) :
    bypassOthers ps t = (otherParts ps t).map (fun q => .setInstruction q (bypassName ps q)) := by
  rw [bypassOthers, otherParts, List.map_map]
  refine List.map_congr_left fun e he => ?_
  have hget : ps[e.2]? = some e.1 := List.mem_zipIdx_iff_getElem?.1 (List.mem_filter.1 he).1
  simp [bypassName, hget]

/-- The records after SELECT_ONLY (R271). -/
theorem selectOnly_record {ps : List Part} {t : Nat} {name : NameId}
    (hr : irResolvable (setRecords (bypassName ps) (otherParts ps t) ps) t name = true) (q : Nat) :
    (setRecord (setRecords (bypassName ps) (otherParts ps t) ps) t name)[q]? = (ps[q]?).map (fun p =>
      { p with current := if q = t then some name else p.desc.bypassInstruction }) := by
  rw [setRecord_get, setRecords_get]
  cases hp : ps[q]? with
  | none => rfl
  | some p =>
    have hmem := mem_otherParts (t := t) (List.getElem?_eq_some_iff.1 hp).1
    by_cases hqt : q = t
    · have hnot : q ∉ otherParts ps t := fun h => hmem.1 h hqt
      simp only [Option.map_some, if_pos hqt, if_neg hnot]
    · have hget := setRecords_get (bypassName ps) (otherParts ps t) ps q
      rw [hp, Option.map_some, if_pos (hmem.2 hqt)] at hget
      obtain ⟨n, hn⟩ := Option.ne_none_iff_exists'.1 (((irResolvable_iff _ t name).1 hr).2.2 q _ hget hqt)
      have hname : bypassName ps q = n := by simp only [bypassName, hp, Option.bind_some]; rw [hn]; rfl
      simp only [Option.map_some, if_pos (hmem.2 hqt), if_neg hqt, hname]
      rw [← hn]

/-- Where each record is the instruction latched in its device, the records are coherent for every target (R270). -/
theorem coherent_of_records {u : State} (h : ∀ (qs : List Part) (q : Nat) (p : Part), u.chain = some qs →
    qs[q]? = some p → u.env.physIr q = p.current) (t : Nat) : Coherent u t :=
  fun qs hqs => ⟨fun q p hp => by rw [h qs q p hqs hp, recordWidth], fun p hp => (h qs t p hqs hp).symm⟩

/-- Settles O56: the records are those of all the commands, the latches those of the last one's scan. -/
theorem selectOnlyMakesRecordsAndDevicesAgree : Obligations.SelectOnlyMakesRecordsAndDevicesAgree := by
  intro s u ps t name hc hwf ht hx hs
  rw [selectOnlyProgram, bypassOthers_eq] at hx
  obtain ⟨v, bs, e, hran, hwf', hin⟩ := runWhileOk_setInstructions hs (otherParts ps t) hc hwf hx
  have hrec := selectOnly_record hran.resolvable
  refine ⟨?_, fun c k henv htau hd ha => ?_⟩
  · rw [hran.chain]
    refine congrArg some (List.ext_getElem? fun q => ?_)
    rw [hrec, List.getElem?_map, List.getElem?_zipIdx, Option.map_map, Nat.zero_add]
    rfl
  · obtain ⟨c', hv⟩ := hin c k ⟨henv, htau, hd, ha⟩
    have hagree : ∀ (qs : List Part) (q : Nat) (p : Part), u.chain = some qs → qs[q]? = some p →
        u.env.physIr q = p.current := by
      intro qs q p hqs hp
      cases hran.chain.symm.trans hqs
      rw [hrec] at hp
      obtain ⟨p0, hp0, rfl⟩ := Option.map_eq_some_iff.1 hp
      obtain ⟨p1, hp1, hdesc⟩ := setRecords_get_desc hp0 (bypassName ps) (otherParts ps t)
      rw [hran.devices hwf' hv.env hv.tau hv.described, irScanned_latch hwf' hran.resolvable hv.described hv.apart hp1,
        hdesc]
    exact ⟨hagree, coherent_of_records hagree⟩

end Sys2Proof.Machine
end

section
/-! O55: the DR round trip (R180).  What the statement asks of the block and its devices is `DrReady`; an exchange that
answers OK returns what the target's register held and leaves the block ready again, the operand now in the register. -/

namespace Sys2Proof.Machine

/-! ## The devices -/

/-- R84: an update leaves a device's instruction and description as they were. -/
theorem synthUpdateDR_keeps (g : SynthPart) : (synthUpdateDR g).irLatch = g.irLatch ∧ (synthUpdateDR g).desc = g.desc ∧
    (synthUpdateDR g).idcodeInstruction = g.idcodeInstruction := by
  unfold synthUpdateDR
  split
  · exact ⟨rfl, rfl, rfl⟩
  · split <;> exact ⟨rfl, rfl, rfl⟩

/-- R84: a latched instruction that is neither bypass nor IDCODE captures its register. -/
theorem synthCaptureDR_register {d : SynthPart} {name : NameId} (hl : d.irLatch = some name)
    (hb : d.irLatch ≠ d.desc.bypassInstruction) (hi : d.irLatch ≠ d.idcodeInstruction) :
    (synthCaptureDR d).drCells = synthStored d name := by
  rw [synthCaptureDR]
  simp only [if_neg hb, if_neg hi]
  rw [hl]

/-- R84: the update stores the cells in that register. -/
theorem synthStored_synthUpdateDR {d : SynthPart} {name : NameId} (hl : d.irLatch = some name)
    (hb : d.irLatch ≠ d.desc.bypassInstruction) (hi : d.irLatch ≠ d.idcodeInstruction) :
    synthStored (synthUpdateDR d) name = d.drCells := by
  rw [synthUpdateDR, if_neg (not_or.2 ⟨hb, hi⟩)]
  rw [hl]
  simp [synthStored]

/-- R84: a device without a selected register, or with one that keeps its value, is left as it was. -/
theorem synthUpdateDR_of_fixed {g : SynthPart}
    (h : g.irLatch = g.desc.bypassInstruction ∨ g.irLatch = g.idcodeInstruction ∨ g.irLatch = none) :
    synthUpdateDR g = g := by
  unfold synthUpdateDR
  split
  · rfl
  · next hne =>
    rcases h with h | h | h
    · exact absurd (.inl h) hne
    · exact absurd (.inr h) hne
    · rw [h]

/-- A device that took as many bits as it captures captures as many again. -/
theorem captured_length_synthUpdateDR {g : SynthPart} (hf : g.drCells.length = (synthCaptureDR g).drCells.length) :
    (synthCaptureDR (synthUpdateDR g)).drCells.length = (synthCaptureDR g).drCells.length := by
  by_cases hfixed : g.irLatch = g.desc.bypassInstruction ∨ g.irLatch = g.idcodeInstruction ∨ g.irLatch = none
  · rw [synthUpdateDR_of_fixed hfixed]
  · obtain ⟨hb, hi, hnone⟩ :
        g.irLatch ≠ g.desc.bypassInstruction ∧ g.irLatch ≠ g.idcodeInstruction ∧ g.irLatch ≠ none := by
      simpa only [not_or] using hfixed
    obtain ⟨name, hl⟩ := Option.ne_none_iff_exists'.1 hnone
    obtain ⟨kl, kd, ki⟩ := synthUpdateDR_keeps g
    rw [synthCaptureDR_register (kl.trans hl) (by rwa [kl, kd]) (by rwa [kl, ki]),
      synthStored_synthUpdateDR hl hb hi, hf]

/-! ## What an exchange has done -/

/-- The block and its devices are ready for an exchange of `n` bits with the register that `name` selects in device `t`
(R180, R270, R275). -/
structure DrReady (s : State) (ps : List Part) (t n : Nat) (c : SynthChain) (k : List Nat) (d : SynthPart)
    (name : NameId) : Prop where
  chain : s.chain = some ps
  env : s.env = .synth c k
  tau : c.tau = s.tap
  count : c.parts.length = ps.length
  device : c.parts[t]? = some d
  latch : d.irLatch = some name
  notBypass : d.irLatch ≠ d.desc.bypassInstruction
  notIdcode : d.irLatch ≠ d.idcodeInstruction
  width : (synthStored d name).length = n
  others : ∀ (q : Nat) (r : Part) (g : SynthPart), ps[q]? = some r → c.parts[q]? = some g → q ≠ t →
    recordWidth r = some (synthCaptureDR g).drCells.length
  inbufWf : Memory.wf s.inbuf = true

/-- The ends of an EXCHANGE_DATA that answers OK: the empty exchange, or a DR scan (R175, R176). -/
theorem exchangeData_ok {t n : Nat} {s u : State} {ps : List Part} (hc : s.chain = some ps)
    (hx : exec (.exchangeData t n) s = .next u) (hs : u.lastStatus = 0#4) :
    s.tap = .idle ∧ ((n = 0 ∧ u = (s.accept.storeResult []).respond .ok 0) ∨
      1 ≤ n ∧ ∃ bs e, s.exchange (drScanPlan (buildDR ps t (outBits s n))) = .all bs e ∧
        u = ((s.accept.delivered (drScanPlan (buildDR ps t (outBits s n))) bs e).storeResult
          (window bs (3 + windowLo (drWidths ps t n) t) n)).respond .ok n) := by
  obtain ⟨len, v, hb, rfl⟩ := exec_ok rfl hx hs
  have hend := bodyOf_end (i := .exchangeData t n) rfl s.accept
  rw [hb] at hend
  cases hend with
  | empty _ _ _ _ _ _ ht => exact ⟨ht, .inl ⟨rfl, rfl⟩⟩
  | exchangeData _ _ ps' p bs e hc' _ _ ht hn _ _ hpulses =>
    cases hc.symm.trans hc'
    exact ⟨ht, .inr ⟨hn, bs, e, hpulses, rfl⟩⟩

/-- The fields of the DR vector by part (R73). -/
def drFieldList (ps : List Part) (t : Nat) (out : Bits) : List Bits := ps.zipIdx.map (fun e => drField t out e.2 e.1)

theorem drFieldList_get {ps : List Part} {q : Nat} {p : Part} (hp : ps[q]? = some p) (t : Nat) (out : Bits) :
    (drFieldList ps t out)[q]? = some (drField t out q p) := by
  simp [drFieldList, hp]

/-- A synthetic chain after a DR scan: each part has its field in its cells and has stored it (R84). -/
def drScanned (ps : List Part) (t : Nat) (out : Bits) (c : SynthChain) : SynthChain :=
  { tau := .idle
    parts := List.zipWith (fun d f => synthUpdateDR { d with drCells := f }) c.parts (drFieldList ps t out) }

theorem drScanned_get {ps : List Part} {c : SynthChain} {q : Nat} {p : Part} {g : SynthPart} (hp : ps[q]? = some p)
    (hg : c.parts[q]? = some g) (t : Nat) (out : Bits) :
    (drScanned ps t out c).parts[q]? = some (synthUpdateDR { g with drCells := drField t out q p }) := by
  simp only [drScanned, List.getElem?_zipWith, hg, drFieldList_get hp]

section
variable {s : State} {ps : List Part} {t n : Nat} {c : SynthChain} {k : List Nat} {d : SynthPart} {name : NameId}

/-- The target's device captures its register. -/
theorem DrReady.captured (h : DrReady s ps t n c k d name) : (synthCaptureDR d).drCells = synthStored d name :=
  synthCaptureDR_register h.latch h.notBypass h.notIdcode

/-- Every field of the vector is as long as what its device captures. -/
theorem DrReady.field_length (h : DrReady s ps t n c k d name) {out : Bits} (hout : out.length = n) {q : Nat} {p : Part}
    {g : SynthPart} (hp : ps[q]? = some p) (hg : c.parts[q]? = some g) :
    (drField t out q p).length = (synthCaptureDR g).drCells.length := by
  by_cases hqt : q = t
  · subst hqt
    cases h.device.symm.trans hg
    rw [drField, if_pos rfl, hout, h.captured, h.width]
  · rw [drField, if_neg hqt, h.others q p g hp hg hqt, constBits_length]
    rfl

theorem DrReady.field_lengths (h : DrReady s ps t n c k d name) {out : Bits} (hout : out.length = n) :
    (drFieldList ps t out).map List.length = (capturedFields c).map List.length := by
  have hcount := h.count
  refine List.ext_getElem (by simp [drFieldList, capturedFields, hcount]) fun q hq hq' => ?_
  simp only [drFieldList, capturedFields, List.length_map, List.length_zipIdx] at hq hq'
  simp only [drFieldList, capturedFields, List.getElem_map, List.getElem_zipIdx, Nat.zero_add]
  exact h.field_length hout (List.getElem?_eq_getElem hq) (List.getElem?_eq_getElem hq')

/-- R177: the samples in the target's window are what its device captured. -/
theorem DrReady.window_captured (h : DrReady s ps t n c k d name) :
    window (pathOf (capturedFields c)) (windowLo (drWidths ps t n) t) n = synthStored d name := by
  have hfields := h.field_lengths (outBits_length s n)
  rw [drFieldList, buildDR_fields_length, outBits_length] at hfields
  have hget : (capturedFields c)[t]? = some (synthStored d name) := by
    rw [capturedFields, List.getElem?_map, h.device, ← h.captured]
    rfl
  have hwin := joinFields_window (capturedFields c) t _ hget
  rwa [← hfields, h.width] at hwin

theorem DrReady.target (h : DrReady s ps t n c k d name) : ∃ p, ps[t]? = some p :=
  ⟨_, List.getElem?_eq_getElem (h.count ▸ (List.getElem?_eq_some_iff.1 h.device).1)⟩

/-- R84: the devices after a scan that shifted in a vector of their own widths. -/
theorem DrReady.scan (h : DrReady s ps t n c k d name) (hn : 1 ≤ n) (ht : s.tap = .idle) {bs : Bits} {e : Env}
    (hx : s.exchange (drScanPlan (buildDR ps t (outBits s n))) = .all bs e) :
    window bs (3 + windowLo (drWidths ps t n) t) n = synthStored d name ∧
      e = .synth (drScanned ps t (outBits s n) c) k := by
  have hout := outBits_length s n
  obtain ⟨p, hp⟩ := h.target
  have hv : buildDR ps t (outBits s n) ≠ [] := buildDR_ne_nil hp (by rwa [hout])
  have hpulses : exchange (drScanPlan (buildDR ps t (outBits s n))) s.pulseNo (.synth c k) = .all bs e := h.env ▸ hx
  obtain ⟨rfl, rfl⟩ := exchange_synth hpulses
  obtain ⟨hsamples, hchain⟩ :=
    synthRun_drScan c (h.tau.trans ht) (drFieldList ps t (outBits s n)) (h.field_lengths hout) hv
  have hfit : windowLo (drWidths ps t n) t + n ≤ (buildDR ps t (outBits s n)).length := by
    rw [buildDR_length, hout]
    exact drWindow_fits ps t n hp
  refine ⟨?_, congrArg (Env.synth · k) hchain⟩
  rw [← window_window _ 3 _ _ _ hfit]
  exact (congrArg (window · (windowLo (drWidths ps t n) t) n) hsamples).trans h.window_captured

/-- The device of part `q` after the scan (R84): it has its old instruction, and captures as many bits as before. -/
theorem DrReady.drScanned_others (h : DrReady s ps t n c k d name) {out : Bits} (hout : out.length = n) {q : Nat}
    {r : Part} {g' : SynthPart} (hr : ps[q]? = some r) (hg' : (drScanned ps t out c).parts[q]? = some g')
    (hqt : q ≠ t) : recordWidth r = some (synthCaptureDR g').drCells.length := by
  have hq : q < c.parts.length := h.count ▸ (List.getElem?_eq_some_iff.1 hr).1
  have hg := List.getElem?_eq_getElem hq
  cases hg'.symm.trans (drScanned_get hr hg t out)
  exact (h.others q r _ hr hg hqt).trans
    (congrArg some (captured_length_synthUpdateDR (g := { c.parts[q] with drCells := drField t out q r })
      (h.field_length (g := c.parts[q]) hout hr hg)).symm)

/-- The devices after the scan are ready again, the operand in the target's register. -/
theorem DrReady.drScanned (h : DrReady s ps t n c k d name) {out : Bits} (hout : out.length = n) {u : State}
    (hchain : u.chain = some ps) (henv : u.env = .synth (drScanned ps t out c) k) (htap : u.tap = .idle)
    (hwf : Memory.wf u.inbuf = true) :
    ∃ d', DrReady u ps t n (Machine.drScanned ps t out c) k d' name ∧ synthStored d' name = out := by
  obtain ⟨p, hp⟩ := h.target
  have hcount := h.count
  have hfield : drField t out t p = out := if_pos rfl
  have hget := drScanned_get hp h.device t out
  rw [hfield] at hget
  obtain ⟨kl, kd, ki⟩ := synthUpdateDR_keeps { d with drCells := out }
  have hstored : synthStored (synthUpdateDR { d with drCells := out }) name = out :=
    synthStored_synthUpdateDR (d := { d with drCells := out }) h.latch h.notBypass h.notIdcode
  refine ⟨_, ⟨hchain, henv, htap.symm, ?_, hget, kl.trans h.latch, ?_, ?_, by rw [hstored, hout], ?_, hwf⟩, hstored⟩
  · simp [Machine.drScanned, drFieldList, hcount]
  · rw [kl, kd]; exact h.notBypass
  · rw [kl, ki]; exact h.notIdcode
  · intro q r g' hr hg' hqt
    exact h.drScanned_others hout hr hg' hqt

/-- R41: a stored result of at most 65535 bits is the result read back. -/
theorem resultBits_storeResult {s : State} (hwf : Memory.wf s.inbuf = true) {v : Bits} (hv : v.length ≤ 65535) :
    resultBits (s.storeResult v) = v := by
  have hlen : (BitVec.ofNat 16 v.length).toNat = v.length := by
    rw [BitVec.toNat_ofNat]
    exact Nat.mod_eq_of_lt (by omega)
  rw [resultBits, State.storeResult_inbuf, State.storeResult_inLen, hlen]
  exact bufferBits_writeVector hwf (hv.trans (by decide))

/-- R180: an exchange that answers OK returns what the register held and leaves its operand there, ready for another. -/
theorem DrReady.exchange (h : DrReady s ps t n c k d name) (hn : n ≤ 65535) {u : State}
    (hx : exec (.exchangeData t n) s = .next u) (hs : u.lastStatus = 0#4) :
    resultBits u = synthStored d name ∧
      ∀ m, ∃ c' d', DrReady { u with outbuf := m } ps t n c' k d' name ∧ synthStored d' name = outBits s n := by
  have hlen : (synthStored d name).length ≤ 65535 := h.width.trans_le hn
  obtain ⟨ht, ⟨rfl, rfl⟩ | ⟨h1, bs, e, hpulses, rfl⟩⟩ := exchangeData_ok h.chain hx hs
  · have hempty : synthStored d name = [] := List.eq_nil_of_length_eq_zero h.width
    have hresult : resultBits (s.accept.storeResult []) = [] :=
      resultBits_storeResult (s := s.accept) h.inbufWf (v := []) (by decide)
    refine ⟨hresult.trans hempty.symm, fun m => ⟨c, d, ?_, hempty⟩⟩
    exact ⟨h.chain, h.env, h.tau, h.count, h.device, h.latch, h.notBypass, h.notIdcode, h.width, h.others, h.inbufWf⟩
  · obtain ⟨p, hp⟩ := h.target
    have hout := outBits_length s n
    have hv : buildDR ps t (outBits s n) ≠ [] := buildDR_ne_nil hp (by rwa [hout])
    obtain ⟨hresult, rfl⟩ := h.scan h1 ht hpulses
    rw [hresult]
    refine ⟨resultBits_storeResult h.inbufWf hlen, fun m => ?_⟩
    have htap : advanceAll s.tap (tmsOf (drScanPlan (buildDR ps t (outBits s n)))) = .idle := by
      rw [ht, drScanPlan_tap hv]
    obtain ⟨d', hready, hstored⟩ := h.drScanned hout (u := { ((s.accept.delivered
      (drScanPlan (buildDR ps t (outBits s n))) bs (.synth (Machine.drScanned ps t (outBits s n) c) k)).storeResult
        (synthStored d name)).respond .ok n with outbuf := m }) h.chain rfl htap
      (wf_writeVector h.inbufWf (hlen.trans (by decide)))
    exact ⟨_, d', hready, hstored⟩

end

/-- Settles O55: two exchanges in a row, each from a ready state. -/
theorem drRoundTrip : Obligations.DrRoundTrip := by
  intro s u w ps t n p d name c k m hc hp henv htau hcount hcoh hd hl hb hi hwidth hothers hn hwf hx hs hx' hs'
  have hready : DrReady s ps t n c k d name := by
    refine ⟨hc, henv, htau, hcount, hd, hl, hb, hi, hwidth, fun q r g hr hg hqt => ?_, hwf⟩
    rw [(hcoh ps hc).1 q r hr, ← hothers q r g hr hg hqt, henv, Env.physIr, hg, Option.bind_some]
  obtain ⟨hresult, hnext⟩ := hready.exchange hn hx hs
  obtain ⟨c', d', hready', hstored⟩ := hnext m
  exact ⟨hresult, (hready'.exchange hn hx' hs').1.trans hstored⟩

end Sys2Proof.Machine
end
